-- ==== Sys2Proof/Word.lean ====
section
/-!
DEFINITION. The two bit-vector types of the block: a register word and a memory byte.
Bits are numbered from 0, the least significant (spec/00_scope.md R15).
Every quantity is unsigned, so no signed reading of either type is ever used (R17).
-/

namespace Sys2Proof

/-- A host register, a CMD word or the data of a HOST transaction: 32 bits
(spec/10_state.md R30, spec/30_encoding.md R100). -/
abbrev Word := BitVec 32

/-- One byte of MSG RAM, FRAME RAM or the carrier (spec/20_memory.md R71, R85). -/
abbrev Byte := BitVec 8

end Sys2Proof
end

