-- ==== Sys2Proof/Config.lean ====
section
/-!
DEFINITION. What one instance of the block fixes (the parameters of spec/00_scope.md R8) and the free values: every value the spec
leaves open is an opaque constant here, with no body, so that nothing can be proved of its value.
-/

namespace Sys2Proof

/-- The implementation parameters of spec/00_scope.md R8. FRAME_CAP is `Params.frameCap`, since R8 makes it MSG_CAP + 4.
A state holds the parameters of its instance and no step writes them (notes/assumptions/1.md). -/
structure Params where
  /-- MSG_CAP: the size of MSG RAM in bytes. -/
  msgCap : Nat
  /-- MAX_PIXELS: the largest legal PIXEL_COUNT. -/
  maxPixels : Nat
  /-- ADDR_W: the width in bits of a carrier port address. -/
  addrW : Nat
  /-- CARRIER_COHERENT: host and engine see each other's carrier writes without cache maintenance. -/
  coherent : Bool
  /-- HOST_BASE: the host address of register offset 0x00. -/
  hostBase : Nat
  deriving DecidableEq, Repr

/-- FRAME_CAP: the size of FRAME RAM in bytes (spec/00_scope.md R8). -/
def Params.frameCap (p : Params) : Nat := p.msgCap + 4

/-- The number of bytes of the carrier memory: 2^ADDR_W (spec/20_memory.md R70). -/
def Params.carrierSize (p : Params) : Nat := 2 ^ p.addrW

/-- The constraint column of spec/00_scope.md R8. The invariant asks for this much, so it covers every instance R8 admits. -/
abbrev Params.wf (p : Params) : Prop :=
  1 ≤ p.msgCap ∧ p.msgCap ≤ 2 ^ 29 - 4 ∧ 1 ≤ p.maxPixels ∧ p.maxPixels ≤ 2 ^ 32 - 1 ∧
    2 ≤ p.addrW ∧ p.addrW ≤ 32 ∧ p.hostBase % 256 = 0

/-- A legal instance: R8's constraints, and the guarantee of R9 that the frame of a full MSG RAM fits the 32-bit FRAME_BITS. R9 derives it
from R8, and it follows for every MSG_CAP but 2^29 − 4, the one value where the two rules contradict each other (DESIGN CHOICE: a legal
instance meets both; notes/assumptions/18.md). -/
abbrev Params.legal (p : Params) : Prop := p.wf ∧ 32 + 8 * p.msgCap < 2 ^ 32

/-- The reference values of spec/00_scope.md R8. The table gives HOST_BASE none ("not used; vectors give offsets"):
DESIGN CHOICE 0 (notes/assumptions/1.md). -/
def Params.reference : Params :=
  { msgCap := 4096, maxPixels := 65536, addrW := 32, coherent := true, hostBase := 0 }

namespace Config

/-- FREE VALUE: what byte `index` of MSG RAM holds after reset number `epoch`, until it is written
(spec/10_state.md R62, spec/70_reset_and_hazards.md R275; notes/assumptions/3.md). -/
opaque msgDraw (epoch index : Nat) : Byte

/-- FREE VALUE: what byte `index` of FRAME RAM holds after reset number `epoch`, until it is written
(spec/10_state.md R62, spec/70_reset_and_hazards.md R275; notes/assumptions/3.md). -/
opaque frameDraw (epoch index : Nat) : Byte

/-- FREE VALUE: what the carrier byte at `address` holds before any agent of the model writes it; reset does not touch it
(spec/70_reset_and_hazards.md R272; notes/assumptions/4.md). -/
opaque carrierFill (address : Nat) : Byte

/-- FREE VALUE: what FRAME_BITS holds after the PACK of a message of `n` bytes for which 32 + 8 × n does not fit it. The spec states no
result there (spec/00_scope.md R9, R16, spec/10_state.md R44; notes/assumptions/18.md). It is a function of the operand, since every
command is deterministic (spec/40_command.md R130). -/
opaque frameBitsOverflow (n : Nat) : Word

/-- FREE VALUE: whether carrier write number `draw`, whose outcome the spec leaves open between old and new, took effect
(spec/43_embedder.md R178, spec/70_reset_and_hazards.md R271; notes/assumptions/5.md). -/
opaque writeLands (draw : Nat) : Bool

end Config

end Sys2Proof
end

