-- ==== Sys2Proof/Syntax.lean ====
section
/-!
DEFINITION. The instructions of the block, one constructor per row of spec/opcode_table.json, and the two encoded forms an
instruction comes in (spec/30_encoding.md R100): the CMD word and the HOST transaction.
-/

namespace Sys2Proof

/-- The instructions. The six commands take no operand: each works on registers and RAMs (spec/30_encoding.md R107).
The two HOST transactions carry the fields of R101; any access size may be presented, well formed or not. -/
inductive Instr where
  /-- NOP, OPCODE 0x0 (spec/40_command.md R128). -/
  | nop
  /-- PACK, OPCODE 0x1 (spec/41_framer.md R140). -/
  | pack
  /-- UNPACK, OPCODE 0x2 (spec/41_framer.md R145). -/
  | unpack
  /-- CHECK, OPCODE 0x3 (spec/42_capacity.md R160). -/
  | check
  /-- EMBED, OPCODE 0x4 (spec/43_embedder.md R170). -/
  | embed
  /-- EXTRACT, OPCODE 0x5 (spec/44_extractor.md R190). -/
  | extract
  /-- RD, a HOST transaction with DIR = 0 (spec/45_host_access.md R220). -/
  | rd (offset : BitVec 8) (size : Nat)
  /-- WR, a HOST transaction with DIR = 1 (spec/45_host_access.md R220). -/
  | wr (offset : BitVec 8) (size : Nat) (wdata : Word)
  deriving DecidableEq, Repr

/-- The DIR field of a HOST transaction: 0 = read, 1 = write (spec/30_encoding.md R101). -/
inductive Dir where
  | read
  | write
  deriving DecidableEq, Repr

/-- The fields of a HOST transaction that the host presents (spec/30_encoding.md R101).
SIZE is the access size in bytes and has no width there. RDATA is what a read returns; it is no part of the request. -/
structure HostTxn where
  dir : Dir
  offset : BitVec 8
  size : Nat
  wdata : Word
  deriving DecidableEq, Repr

/-- The two formats of spec/30_encoding.md R100. -/
inductive Encoded where
  /-- A 32-bit command word. -/
  | cmd (word : Word)
  /-- A bus transaction on the register window. -/
  | host (txn : HostTxn)
  deriving DecidableEq, Repr

/-- Whether an instruction is a command of spec/30_encoding.md R103, run by the ENGINE; the others are HOST transactions. -/
def Instr.isCommand : Instr → Bool
  | .nop => true
  | .pack => true
  | .unpack => true
  | .check => true
  | .embed => true
  | .extract => true
  | .rd _ _ => false
  | .wr _ _ _ => false

end Sys2Proof
end

