-- ==== Sys2Proof/WellFormed.lean ====
section
/-!
DEFINITION. Which instructions the spec calls well formed: every command, and a HOST transaction with SIZE = 4 and
OFFSET[1:0] = 00 (spec/30_encoding.md R101). An ill-formed transaction still has a meaning, the bus error response
(spec/45_host_access.md R221), so the machine runs it too.
-/

namespace Sys2Proof

/-- SIZE = 4 (spec/30_encoding.md R101). -/
def sizeOk (size : Nat) : Bool := size == 4

/-- OFFSET[1:0] = 00 (spec/30_encoding.md R101). -/
def offsetAligned (offset : BitVec 8) : Bool := offset.extractLsb' 0 2 == 0#2

/-- The well-formedness of spec/30_encoding.md R101. -/
def Instr.wf : Instr → Bool
  | .nop => true
  | .pack => true
  | .unpack => true
  | .check => true
  | .embed => true
  | .extract => true
  | .rd offset size => sizeOk size && offsetAligned offset
  | .wr offset size _ => sizeOk size && offsetAligned offset

end Sys2Proof
end

