-- ==== Sys2Proof/Decode.lean ====
section
/-!
DEFINITION. The decoder of both formats of spec/30_encoding.md, total and rejecting by name, and after it the encoder written from the
same tables. The CMD word has the bits of R102 and the opcodes of R103. A HOST transaction has the fields of R101, for which the spec
gives no bit positions; `hostTxnOfBits` lays them out for the host's table interface (DESIGN CHOICE, notes/assumptions/7.md).
-/

namespace Sys2Proof

/-- Why a CMD word is illegal (spec/30_encoding.md R104). Both reasons end in the result code BAD_CMD. -/
inductive DecodeError where
  /-- OPCODE 0x6–0xF. -/
  | reservedOpcode
  /-- A bit of RSV, bits [31:4], is set. -/
  | reservedBits
  /-- Not a CMD word: the reserved bits of the model's own HOST bit layout are not 0 (notes/assumptions/7.md). -/
  | badHostBits
  deriving DecidableEq, Repr

/-- OPCODE, bits [3:0] of a CMD word (spec/30_encoding.md R102). -/
def cmdOpcode (w : Word) : BitVec 4 := w.extractLsb' 0 4

/-- RSV, bits [31:4] of a CMD word (spec/30_encoding.md R102). -/
def cmdReserved (w : Word) : BitVec 28 := w.extractLsb' 4 28

/-- The opcode map of spec/30_encoding.md R103. -/
def instrOfOpcode (op : BitVec 4) : Except DecodeError Instr :=
  if op = 0x0#4 then .ok .nop
  else if op = 0x1#4 then .ok .pack
  else if op = 0x2#4 then .ok .unpack
  else if op = 0x3#4 then .ok .check
  else if op = 0x4#4 then .ok .embed
  else if op = 0x5#4 then .ok .extract
  else .error .reservedOpcode

/-- The command a CMD word selects, from the whole word (spec/30_encoding.md R103, R104). -/
def decodeCmd (w : Word) : Except DecodeError Instr :=
  if cmdReserved w ≠ 0#28 then .error .reservedBits else instrOfOpcode (cmdOpcode w)

/-- The transaction a HOST request stands for, by DIR (spec/30_encoding.md R101). A read ignores WDATA. -/
def decodeHost (t : HostTxn) : Instr :=
  match t.dir with
  | .read => .rd t.offset t.size
  | .write => .wr t.offset t.size t.wdata

/-- The decoder of both formats (spec/30_encoding.md R100). -/
def decode : Encoded → Except DecodeError Instr
  | .cmd w => decodeCmd w
  | .host t => .ok (decodeHost t)

/-- Whether a CMD word is illegal: the value OPILL latches, `(w[31:4] != 0) or (w[3:0] >= 0x6)` (spec/40_command.md R121). -/
def cmdIllegal (w : Word) : Bool := cmdReserved w != 0#28 || decide (0x6#4 ≤ cmdOpcode w)

/-- The command the latched OP and OPILL select (spec/10_state.md R55): none for an illegal word. -/
def decodeLatched (op : BitVec 4) (opIll : Bool) : Option Instr :=
  if opIll then none else (instrOfOpcode op).toOption

/-- The byte offset in the window a host address names: address − HOST_BASE, for an address within the 256-byte window
(spec/30_encoding.md R101, spec/20_memory.md R97). -/
def windowOffset (p : Params) (address : Nat) : Option (BitVec 8) :=
  if p.hostBase ≤ address ∧ address < p.hostBase + 256 then some (BitVec.ofNat 8 (address - p.hostBase)) else none

/-- How many bits the model's own layout of a HOST transaction has (notes/assumptions/7.md). -/
def hostBits : Nat := 56

/-- A HOST transaction from its bits: DIR in bit 0, OFFSET in bits 15..8, SIZE in bits 23..16, WDATA in bits 55..24, and bits 7..1 zero
(DESIGN CHOICE, notes/assumptions/7.md). -/
def hostTxnOfBits (w : Nat) : Except DecodeError HostTxn :=
  if w / 2 % 128 ≠ 0 then .error .badHostBits
  else .ok
    { dir := if w % 2 = 1 then .write else .read
      offset := BitVec.ofNat 8 (w / 2 ^ 8)
      size := w / 2 ^ 16 % 256
      wdata := BitVec.ofNat 32 (w / 2 ^ 24) }

/-- What an instruction of `nbits` bits with the value `w` is encoded as: 32 bits are a CMD word, any other width is a HOST transaction
in the model's own layout, the bits above `nbits` being 0 (notes/assumptions/7.md). -/
def encodedOfTableWord (nbits w : Nat) : Except DecodeError Encoded :=
  if nbits = 32 then .ok (.cmd (BitVec.ofNat 32 w))
  else match hostTxnOfBits (w % 2 ^ nbits) with
    | .ok t => .ok (.host t)
    | .error e => .error e

/-- The instruction the decoder reads from `w`, numbered as spec/opcode_table.json numbers bits. -/
def decodeTableWord (nbits w : Nat) : Option Instr :=
  match encodedOfTableWord nbits w with
  | .ok e => (decode e).toOption
  | .error _ => none

/-- The opcode of a command (spec/30_encoding.md R103); a HOST transaction has none. -/
def opcodeOf : Instr → Option (BitVec 4)
  | .nop => some 0x0#4
  | .pack => some 0x1#4
  | .unpack => some 0x2#4
  | .check => some 0x3#4
  | .embed => some 0x4#4
  | .extract => some 0x5#4
  | .rd _ _ => none
  | .wr _ _ _ => none

/-- The encoder: a command's CMD word is its opcode with RSV = 0 (spec/30_encoding.md R102), a transaction's fields are those of R101. -/
def encode : Instr → Encoded
  | .nop => .cmd 0x00000000#32
  | .pack => .cmd 0x00000001#32
  | .unpack => .cmd 0x00000002#32
  | .check => .cmd 0x00000003#32
  | .embed => .cmd 0x00000004#32
  | .extract => .cmd 0x00000005#32
  | .rd offset size => .host { dir := .read, offset := offset, size := size, wdata := 0#32 }
  | .wr offset size wdata => .host { dir := .write, offset := offset, size := size, wdata := wdata }

/-- The bits of a HOST transaction in the layout of `hostTxnOfBits`. -/
def bitsOfHostTxn (t : HostTxn) : Nat :=
  (if t.dir = .write then 1 else 0) + t.offset.toNat * 2 ^ 8 + t.size % 256 * 2 ^ 16 + t.wdata.toNat * 2 ^ 24

/-- An instruction as a table word: how many bits it has and their value. -/
def tableWord (i : Instr) : Nat × Nat :=
  match encode i with
  | .cmd w => (32, w.toNat)
  | .host t => (hostBits, bitsOfHostTxn t)

end Sys2Proof
end

