-- ==== Sys2Proof/Machine/State.lean ====
section
/-!
DEFINITION. The state of the block as plain data: every register, hidden field and memory of spec/10_state.md, the wires that cross the
block's boundary, and the environment's schedule; the reasons a step can stop; and the state after reset (R62).
-/

namespace Sys2Proof.Machine

/-- The engine's phases (spec/10_state.md R58). Codes 0xB–0xF are never entered and have no name here (notes/assumptions/17.md). -/
inductive Phase where
  | idle
  | start
  | pack
  | unpack
  | capCheck
  | writeHeader
  | writePayload
  | readHeader
  | validateLength
  | readPayload
  | decode
  deriving DecidableEq, Repr

/-- The result codes of spec/30_encoding.md R105. Codes 0x8–0xE are never written and have no name here (notes/assumptions/17.md). -/
inductive Result where
  | ok
  | capacity
  | absent
  | short
  | oversize
  | range
  | busError
  | badCmd
  | pending
  deriving DecidableEq, Repr

/-- How the carrier port answers the engine's next accesses: the environment's input wire
(spec/43_embedder.md R178, spec/44_extractor.md R201; notes/assumptions/13.md). -/
inductive PortReply where
  /-- Every access completes. -/
  | okay
  /-- A carrier read gets an error response. -/
  | readError
  /-- A carrier read completes and a carrier write gets an error response. -/
  | writeError
  deriving DecidableEq, Repr

/-- The response of a HOST transaction: OKAY, or the bus error response of spec/45_host_access.md R221. -/
inductive BusResponse where
  | okay
  | slverr
  deriving DecidableEq, Repr

/-- One access the engine issues on the carrier port (spec/20_memory.md R90). -/
inductive Access where
  | read (address : Nat)
  | write (address : Nat) (value : Byte)
  deriving DecidableEq, Repr

/-- The path a direct carrier access takes. On a coherent platform all paths are one (spec/20_memory.md R96; notes/assumptions/6.md). -/
inductive Via where
  /-- The host's own memory path, with no cache maintenance. -/
  | cached
  /-- The host's own memory path, with the platform's maintenance for this byte: a write is made visible to the carrier port, and a read
  first discards the host's stale copy. -/
  | maintained
  /-- The carrier port's side, where another instance of the block is (spec/60_exceptions.md R259). -/
  | port
  deriving DecidableEq, Repr

/-- What an incoherent platform does with the host's copy of one carrier byte, by itself or because the host asks for it
(spec/20_memory.md R96, spec/70_reset_and_hazards.md R286; notes/assumptions/6.md). -/
inductive CacheMove where
  /-- The host's side takes a copy of the byte the carrier port holds. -/
  | fill
  /-- A byte the host wrote becomes visible to the carrier port. -/
  | writeBack
  /-- The host's side gives up a copy it has not written. -/
  | discard
  deriving DecidableEq, Repr

/-- What the environment does next: one event of the schedule (notes/assumptions/2.md). -/
inductive Input where
  /-- The ENGINE agent moves (spec/40_command.md R122). -/
  | engine
  /-- HOST issues a bus transaction at a host address (spec/30_encoding.md R101). -/
  | bus (address : Nat) (dir : Dir) (size : Nat) (wdata : Word)
  /-- HOST, or any agent other than the engine, reads a carrier byte directly (spec/45_host_access.md R230). -/
  | carrierRead (address : Nat) (via : Via)
  /-- HOST, or any agent other than the engine, writes a carrier byte directly (spec/45_host_access.md R230). -/
  | carrierWrite (address : Nat) (value : Byte) (via : Via)
  /-- The platform moves the host's copy of a carrier byte (spec/20_memory.md R96). -/
  | hostCache (address : Nat) (move : CacheMove)
  /-- The RST input takes a level: asserted (true) or deasserted (false) (spec/70_reset_and_hazards.md R270; notes/assumptions/12.md). -/
  | reset (asserted : Bool)
  /-- The carrier port's response to the engine's coming accesses changes. -/
  | portReply (reply : PortReply)
  deriving DecidableEq, Repr

/-- Why the machine stops. Each is safe: the model stops where the block would go on in a way no rule describes. -/
inductive Fault where
  /-- Raised by a direct carrier access of an agent other than the engine, at the first access that breaks "one mutator at a time per
  carrier region" (spec/70_reset_and_hazards.md R284, spec/20_memory.md R92; notes/assumptions/10.md). Safe: no claim covers the run. -/
  | carrierRace
  /-- Raised by RD and WR while RST is asserted: the transaction gets no step and no response, "stuck"
  (spec/70_reset_and_hazards.md R276). Safe. -/
  | stuckInReset
  /-- Raised by an engine step that would index a RAM at or beyond its size. No run from reset reaches such a state: the range checks
  and the busy lock exclude it (notes/assumptions/9.md). Safe. -/
  | ramOutside
  /-- Raised by an engine step that would address the carrier at or beyond 2^ADDR_W. No run from reset reaches such a state: range
  check 4 excludes it (notes/assumptions/9.md). Safe. -/
  | carrierOutside
  deriving DecidableEq, Repr

/-- Why an instruction or an event has no step. Each is safe: no state follows. -/
inductive Refusal where
  /-- An arm of exec whose instruction has no meaning yet. Raised by such an arm only. Safe. -/
  | notModelled (mnemonic : String)
  /-- Raised by a command asked to take an engine step where it has none: BUSY = 0, RST asserted, or a PHASE the command never enters
  (spec/40_command.md R122). The step function never asks for it in a reachable state (notes/assumptions/9.md). Safe. -/
  | noEngineStep
  /-- Raised by an event that names a carrier byte at or beyond 2^ADDR_W, which is outside the model's input domain
  (notes/assumptions/14.md). No instruction raises it. Safe. -/
  | noSuchCarrierByte
  deriving DecidableEq, Repr

end Sys2Proof.Machine

namespace Sys2Proof.Machine

/-- The whole state. Registers and hidden fields are those of spec/10_state.md, in its order. -/
structure State where
  /-- The parameters of this instance (spec/00_scope.md R8). No step writes them. -/
  params : Params
  /-- CTRL.IE (R32). -/
  ie : Bool
  /-- STATUS.BUSY (R35). -/
  busy : Bool
  /-- STATUS.DONE (R36). -/
  done : Bool
  /-- STATUS.BUSYERR (R37). -/
  busyErr : Bool
  /-- STATUS.RAMERR (R38). -/
  ramErr : Bool
  /-- STATUS.RESULT (R39). -/
  result : Result
  /-- PHASE (R40). -/
  phase : Phase
  /-- CURSOR: the engine's own, unbounded position, which the register reads mod 2^32 (R41, R60). -/
  cursor : Nat
  /-- CARRIER_BASE (R42). -/
  carrierBase : Word
  /-- PIXEL_COUNT (R43). -/
  pixelCount : Word
  /-- FRAME_BITS (R44). -/
  frameBits : Word
  /-- MSG_LEN (R45). -/
  msgLen : Word
  /-- HDR_LEN (R46). -/
  hdrLen : Word
  /-- MSG_PTR (R47). -/
  msgPtr : Word
  /-- FRAME_PTR (R49). -/
  framePtr : Word
  /-- OP, hidden (R55). -/
  op : BitVec 4
  /-- OPILL, hidden (R55). -/
  opIll : Bool
  /-- SHIFT, hidden: EXTRACT's header accumulator (R56). -/
  shift : Word
  /-- ACC, hidden: EXTRACT's payload byte accumulator (R57). -/
  acc : Byte
  /-- MSG RAM: the bytes written since the last reset (R63; notes/assumptions/3.md). -/
  msg : List Host.Cell
  /-- FRAME RAM: the bytes written since the last reset (R63; notes/assumptions/3.md). -/
  frame : List Host.Cell
  /-- The carrier memory: the bytes an agent has written (R64; notes/assumptions/4.md). -/
  carrier : List Host.Cell
  /-- The model's own: on an incoherent platform, the bytes the host wrote that the carrier port does not see yet
  (notes/assumptions/6.md). -/
  hostWrites : List Host.Cell
  /-- The model's own: on an incoherent platform, the copies the host's side has read, which an engine write makes stale
  (notes/assumptions/6.md). -/
  hostCached : List Host.Cell
  /-- The model's own: how many resets have drawn the RAM contents (notes/assumptions/3.md). -/
  ramEpoch : Nat
  /-- The model's own: how many other free values have been drawn (notes/assumptions/5.md). -/
  draws : Nat
  /-- The RST input (spec/70_reset_and_hazards.md R270). -/
  rst : Bool
  /-- The carrier port's response input (notes/assumptions/13.md). -/
  port : PortReply
  /-- The model's own: the environment's coming events, oldest first (notes/assumptions/2.md). -/
  inputs : List Input
  /-- RDATA of the last HOST read (spec/30_encoding.md R101; notes/assumptions/11.md). -/
  rdata : Word
  /-- The response of the last HOST transaction (spec/45_host_access.md R220, R221; notes/assumptions/11.md). -/
  resp : BusResponse
  /-- The model's own: what the last direct host carrier read returned (notes/assumptions/11.md). -/
  hostByte : Byte
  /-- The model's own: the carrier accesses the latest step issued, in order (notes/assumptions/11.md). -/
  portLog : List Access
  deriving DecidableEq, Repr

/-- The state after reset of an instance with parameters `p`: every register and hidden field at its value of spec/10_state.md R62,
both RAMs with no byte written, RST low, and nothing scheduled. -/
def State.resetWith (p : Params) : State :=
  { params := p
    ie := false
    busy := false
    done := false
    busyErr := false
    ramErr := false
    result := .ok
    phase := .idle
    cursor := 0
    carrierBase := 0#32
    pixelCount := 0#32
    frameBits := 0#32
    msgLen := 0#32
    hdrLen := 0#32
    msgPtr := 0#32
    framePtr := 0#32
    op := 0#4
    opIll := false
    shift := 0#32
    acc := 0#8
    msg := []
    frame := []
    carrier := []
    hostWrites := []
    hostCached := []
    ramEpoch := 0
    draws := 0
    rst := false
    port := .okay
    inputs := []
    rdata := 0#32
    resp := .okay
    hostByte := 0#8
    portLog := [] }

/-- The machine right after reset (spec/10_state.md R62), with the reference parameters of spec/00_scope.md R8. -/
def State.reset : State := State.resetWith Params.reference

end Sys2Proof.Machine
end

