-- ==== Sys2Proof/Machine/Ops.lean ====
section
/-!
DEFINITION. The named operations over memory and registers: sparse byte memories in their canonical form, the two RAMs and the carrier,
the free values a step draws, and the command lifecycle of spec/40_command.md: acceptance (R121), and finish (R126), which is how this
block enters its "trap" (spec/60_exceptions.md R253).
-/

namespace Sys2Proof.Machine

/-- The byte a sparse memory lists at an address; none where it lists none, a byte that no one has written. -/
def Memory.get? : List Host.Cell → Nat → Option Byte
  | [], _ => none
  | c :: m, a => if c.1 = a then some c.2 else Memory.get? m a

/-- Writing one byte, keeping the addresses strictly rising. -/
def Memory.set : List Host.Cell → Nat → Byte → List Host.Cell
  | [], a, v => [(a, v)]
  | c :: m, a, v =>
    if a < c.1 then (a, v) :: c :: m
    else if a = c.1 then (a, v) :: m
    else c :: Memory.set m a v

/-- Writing the `n` bytes `f 0 … f (n−1)` at `base, …, base + n − 1`. -/
def Memory.fill (m : List Host.Cell) (base : Nat) (f : Nat → Byte) : Nat → List Host.Cell
  | 0 => m
  | n + 1 => Memory.set (Memory.fill m base f n) (base + n) (f n)

/-- Listing an address no more. -/
def Memory.erase : List Host.Cell → Nat → List Host.Cell
  | [], _ => []
  | c :: m, a => if c.1 = a then Memory.erase m a else c :: Memory.erase m a

/-- The canonical form: addresses strictly rising. An unlisted address reads as no value written yet, so no entry can equal it
(notes/assumptions/3.md). -/
abbrev Memory.wf (m : List Host.Cell) : Prop := m.Pairwise (fun c d => c.1 < d.1)

/-- Every listed address lies below a bound. -/
abbrev Memory.below (m : List Host.Cell) (bound : Nat) : Prop := ∀ c ∈ m, c.1 < bound

/-- msg[i] (spec/20_memory.md R71): the byte written last, or the draw of spec/70_reset_and_hazards.md R275. -/
def readMsg (s : State) (i : Nat) : Byte := (Memory.get? s.msg i).getD (Config.msgDraw s.ramEpoch i)

/-- frame[i] (spec/20_memory.md R71): the byte written last, or the draw of spec/70_reset_and_hazards.md R275. -/
def readFrame (s : State) (i : Nat) : Byte := (Memory.get? s.frame i).getD (Config.frameDraw s.ramEpoch i)

/-- The carrier byte at an address (spec/20_memory.md R70). -/
def readCarrier (s : State) (a : Nat) : Byte := (Memory.get? s.carrier a).getD (Config.carrierFill a)

/-- msg[i] <- v. -/
def writeMsg (i : Nat) (v : Byte) (s : State) : State := { s with msg := Memory.set s.msg i v }

/-- frame[i] <- v. -/
def writeFrame (i : Nat) (v : Byte) (s : State) : State := { s with frame := Memory.set s.frame i v }

/-- The carrier byte at `a` becomes `v`. -/
def writeCarrier (a : Nat) (v : Byte) (s : State) : State := { s with carrier := Memory.set s.carrier a v }

/-- The byte a direct read sees by its path. On an incoherent platform the host sees its own last write, if the carrier port does not have
it yet, and otherwise its copy, or with maintenance and for another agent what the carrier port holds (spec/20_memory.md R92, R96,
spec/45_host_access.md R230; notes/assumptions/6.md). -/
def seenVia (via : Via) (s : State) (a : Nat) : Byte :=
  if s.params.coherent then readCarrier s a
  else
    match via with
    | .cached => ((Memory.get? s.hostWrites a).or (Memory.get? s.hostCached a)).getD (readCarrier s a)
    | .maintained => (Memory.get? s.hostWrites a).getD (readCarrier s a)
    | .port => readCarrier s a

/-- The host's side gives up its copy of a byte. -/
def discardCopy (a : Nat) (s : State) : State := { s with hostCached := Memory.erase s.hostCached a }

/-- The host's side takes a copy of the byte that the carrier port holds. -/
def fillCopy (a : Nat) (s : State) : State := { s with hostCached := Memory.set s.hostCached a (readCarrier s a) }

/-- A host write that the carrier port does not see yet. -/
def holdHostWrite (a : Nat) (v : Byte) (s : State) : State :=
  { s with hostWrites := Memory.set s.hostWrites a v, hostCached := Memory.erase s.hostCached a }

/-- A host write that the carrier port sees: the byte is written there, and the host's side holds no other value of it. -/
def writeThrough (a : Nat) (v : Byte) (s : State) : State :=
  { s with
    carrier := Memory.set s.carrier a v
    hostWrites := Memory.erase s.hostWrites a
    hostCached := Memory.erase s.hostCached a }

/-- A carrier access is issued on the port (spec/20_memory.md R90). -/
def logAccess (e : Access) (s : State) : State := { s with portLog := s.portLog ++ [e] }

/-- A carrier write whose outcome the spec leaves open: the byte holds its old or its new value, a draw of two values
(spec/43_embedder.md R178, spec/70_reset_and_hazards.md R271; notes/assumptions/5.md). -/
def writeCarrierDrawn (a : Nat) (v : Byte) (s : State) : State :=
  { s with
    carrier := Memory.set s.carrier a (if Config.writeLands s.draws then v else readCarrier s a)
    draws := s.draws + 1 }

/-- Accepting CMD word `w` (spec/40_command.md R121). -/
def accept (w : Word) (s : State) : State :=
  { s with
    op := cmdOpcode w
    opIll := cmdIllegal w
    busy := true
    done := false
    result := .pending
    phase := .start
    cursor := 0 }

/-- finish(code), the last action of the step that ends a command (spec/40_command.md R126): the block's only "trap entry"
(spec/60_exceptions.md R253). -/
def finish (code : Result) (s : State) : State :=
  { s with result := code, done := true, busy := false, phase := .idle }

/-- The acknowledgement of a finish, the nearest thing to a return: the host clears DONE where `clear` says so, and nothing is restored
(spec/60_exceptions.md R254). -/
def acknowledge (clear : Bool) (s : State) : State := { s with done := s.done && !clear }

/-- PHASE <- p. -/
def enterPhase (p : Phase) (s : State) : State := { s with phase := p }

/-- CURSOR advances by exactly 1 (spec/10_state.md R41). -/
def advanceCursor (s : State) : State := { s with cursor := s.cursor + 1 }

/-- MSG_PTR advances by 1, mod 2^32 (spec/45_host_access.md R227). -/
def advanceMsgPtr (s : State) : State := { s with msgPtr := s.msgPtr + 1#32 }

/-- FRAME_PTR advances by 1, mod 2^32 (spec/45_host_access.md R227). -/
def advanceFramePtr (s : State) : State := { s with framePtr := s.framePtr + 1#32 }

/-- HDR_LEN <- L, the last header value decoded (spec/10_state.md R46). -/
def setHdrLen (l : Word) (s : State) : State := { s with hdrLen := l }

/-- The level of the RST input (spec/70_reset_and_hazards.md R270). -/
def setRst (level : Bool) (s : State) : State := { s with rst := level }

/-- The command latched in OP and OPILL (spec/10_state.md R55); none for an illegal word. -/
def latched (s : State) : Option Instr := decodeLatched s.op s.opIll

/-- The guard of every engine step: one is enabled only while BUSY = 1 and RST is not asserted
(spec/40_command.md R122, spec/70_reset_and_hazards.md R270). -/
def whenRunning (s : State) (k : Host.Outcome State Fault Refusal) : Host.Outcome State Fault Refusal :=
  if s.busy = true ∧ s.rst = false then k else .refused .noEngineStep

/-- Step 3 of START (spec/40_command.md R124): the range checks, in order; the first that fails finishes with RANGE, and the command's own
continuation runs when none fails. Each check is true where it FAILS, as in the table of R125. -/
def startChecked (checks : List Bool) (continuation s : State) : Host.Outcome State Fault Refusal :=
  if checks.any id then .next (finish .range s) else .next continuation

end Sys2Proof.Machine
end

