-- ==== Sys2Proof/Machine/Operands.lean ====
section
/-!
DEFINITION. Where an instruction's operands are: the register window (spec/10_state.md section 1), the bit-address function and the frame
layout (spec/20_memory.md sections 2 and 3), and the range checks of spec/40_command.md R125.
-/

namespace Sys2Proof.Machine

/-- The names of the register map (spec/10_state.md R30). -/
inductive Reg where
  | id
  | ctrl
  | cmd
  | status
  | phase
  | cursor
  | carrierBase
  | pixelCount
  | frameBits
  | msgLen
  | hdrLen
  | msgPtr
  | msgData
  | framePtr
  | frameData
  | paramMsgCap
  | paramMaxPixels
  | reserved
  deriving DecidableEq, Repr

/-- The register at a word offset (spec/10_state.md R30, R53). -/
def regAt (offset : BitVec 8) : Reg :=
  if offset = 0x00#8 then .id
  else if offset = 0x04#8 then .ctrl
  else if offset = 0x08#8 then .cmd
  else if offset = 0x0C#8 then .status
  else if offset = 0x10#8 then .phase
  else if offset = 0x14#8 then .cursor
  else if offset = 0x18#8 then .carrierBase
  else if offset = 0x1C#8 then .pixelCount
  else if offset = 0x20#8 then .frameBits
  else if offset = 0x24#8 then .msgLen
  else if offset = 0x28#8 then .hdrLen
  else if offset = 0x2C#8 then .msgPtr
  else if offset = 0x30#8 then .msgData
  else if offset = 0x34#8 then .framePtr
  else if offset = 0x38#8 then .frameData
  else if offset = 0x3C#8 then .paramMsgCap
  else if offset = 0x40#8 then .paramMaxPixels
  else .reserved

/-- The locked registers and data ports (spec/10_state.md R54). -/
def Reg.locked : Reg → Bool
  | .carrierBase => true
  | .pixelCount => true
  | .frameBits => true
  | .msgLen => true
  | .msgPtr => true
  | .framePtr => true
  | .msgData => true
  | .frameData => true
  | .id => false
  | .ctrl => false
  | .cmd => false
  | .status => false
  | .phase => false
  | .cursor => false
  | .hdrLen => false
  | .paramMsgCap => false
  | .paramMaxPixels => false
  | .reserved => false

/-- The value of ID (spec/10_state.md R31). -/
def idValue : Word := 0x4C534231#32

/-- CARRIER_BASE as a number. Its bits [31:ADDR_W] read 0 whatever the register's cells hold (spec/10_state.md R42): every reader of the
register, host or engine, goes through here. -/
def carrierBaseAddr (s : State) : Nat := s.carrierBase.toNat % s.params.carrierSize

/-- CAP, the capacity in bits (spec/00_scope.md R18, spec/20_memory.md R78). -/
def cap (s : State) : Nat := 3 * s.pixelCount.toNat

/-- addr(b) = (pixelIndex, channel) (spec/20_memory.md R74). -/
def bitAddr (b : Nat) : Nat × Nat := (b / 3, b % 3)

/-- The carrier address of channel `c` of pixel `p` (spec/20_memory.md R73). -/
def channelAddr (s : State) (p c : Nat) : Nat := carrierBaseAddr s + 4 * p + c

/-- byteAddr(b), the one function EMBED and EXTRACT use (spec/20_memory.md R74, R79). -/
def byteAddr (s : State) (b : Nat) : Nat := channelAddr s (bitAddr b).1 (bitAddr b).2

/-- The end of the carrier region, unbounded (spec/20_memory.md R72). -/
def regionEnd (s : State) : Nat := carrierBaseAddr s + 4 * s.pixelCount.toNat

/-- Whether an address lies in the carrier region (spec/20_memory.md R72). -/
def inRegion (s : State) (a : Nat) : Bool := decide (carrierBaseAddr s ≤ a ∧ a < regionEnd s)

/-- lsb(x) (spec/00_scope.md R19). -/
def lsb (x : Byte) : Bool := x.getLsbD 0

/-- One bit as a byte. -/
def bitByte (v : Bool) : Byte := if v then 1#8 else 0#8

/-- The LSB write `(x & 0xFE) | v` (spec/20_memory.md R87). -/
def replaceLsb (x : Byte) (v : Bool) : Byte := (x &&& 0xFE#8) ||| bitByte v

/-- `(x << 1) | bit` in 32 bits: SHIFT's update (spec/44_extractor.md R192). -/
def shiftIn (x : Word) (v : Bool) : Word := (x <<< 1) ||| (bitByte v).setWidth 32

/-- `((x << 1) | bit) & 0xFF`: ACC's update (spec/44_extractor.md R195). -/
def shiftInByte (x : Byte) (v : Bool) : Byte := (x <<< 1) ||| bitByte v

/-- fbit(i) = (frame[i div 8] >> (7 − (i mod 8))) & 1 (spec/20_memory.md R80). -/
def fbit (s : State) (i : Nat) : Bool := (readFrame s (i / 8) >>> (7 - i % 8)).getLsbD 0

/-- BE32 (spec/00_scope.md R17): the first byte is the most significant. `be32_toNat` is the rule's sum. -/
def be32 (b0 b1 b2 b3 : Byte) : Word := b0 ++ b1 ++ b2 ++ b3

/-- Byte `k` of a header L in big-endian order: L[31:24], L[23:16], L[15:8], L[7:0] (spec/20_memory.md R81). -/
def headerByte (l : Word) (k : Nat) : Byte := l.extractLsb' (24 - 8 * k) 8

/-- Range check 1: MSG_LEN > MSG_CAP (spec/40_command.md R125). -/
def msgLenOut (s : State) : Bool := decide (s.msgLen.toNat > s.params.msgCap)

/-- Range check 2: PIXEL_COUNT > MAX_PIXELS (spec/40_command.md R125). -/
def pixelCountOut (s : State) : Bool := decide (s.pixelCount.toNat > s.params.maxPixels)

/-- Range check 3: FRAME_BITS > 8 × FRAME_CAP (spec/40_command.md R125). -/
def frameBitsOut (s : State) : Bool := decide (s.frameBits.toNat > 8 * s.params.frameCap)

/-- Range check 4: CARRIER_BASE + 4 × PIXEL_COUNT > 2^ADDR_W (spec/40_command.md R125). -/
def regionOut (s : State) : Bool := decide (regionEnd s > s.params.carrierSize)

end Sys2Proof.Machine
end

