-- ==== Sys2Proof/Machine/Flags.lean ====
section
/-!
DEFINITION. The flags: the codes of STATUS.RESULT and PHASE, the STATUS word, its write-1-to-clear bits, the sticky error flags and the
interrupt output (spec/10_state.md R34–R40, R58, spec/30_encoding.md R105, spec/60_exceptions.md R250).
-/

namespace Sys2Proof.Machine

/-- The codes of spec/30_encoding.md R105. -/
def Result.code : Result → BitVec 4
  | .ok => 0x0#4
  | .capacity => 0x1#4
  | .absent => 0x2#4
  | .short => 0x3#4
  | .oversize => 0x4#4
  | .range => 0x5#4
  | .busError => 0x6#4
  | .badCmd => 0x7#4
  | .pending => 0xF#4

/-- The codes of spec/10_state.md R58. -/
def Phase.code : Phase → BitVec 4
  | .idle => 0x0#4
  | .start => 0x1#4
  | .pack => 0x2#4
  | .unpack => 0x3#4
  | .capCheck => 0x4#4
  | .writeHeader => 0x5#4
  | .writePayload => 0x6#4
  | .readHeader => 0x7#4
  | .validateLength => 0x8#4
  | .readPayload => 0x9#4
  | .decode => 0xA#4

/-- One flag as a bit of a word. -/
def flagBit (v : Bool) (k : Nat) : Word := if v then 1#32 <<< k else 0#32

/-- The STATUS word: BUSY [0], DONE [1], BUSYERR [2], RAMERR [3], RESULT [7:4], bits [31:8] zero (spec/10_state.md R34). -/
def statusWord (s : State) : Word :=
  flagBit s.busy 0 ||| flagBit s.done 1 ||| flagBit s.busyErr 2 ||| flagBit s.ramErr 3 ||| (s.result.code.setWidth 32 <<< 4)

/-- A write of `w` to STATUS clears DONE, BUSYERR and RAMERR where bits 1, 2 and 3 of `w` are set (spec/10_state.md R34);
clearing DONE is the host's acknowledgement (spec/60_exceptions.md R254). -/
def writeStatus (w : Word) (s : State) : State :=
  { acknowledge (w.getLsbD 1) s with
    busyErr := s.busyErr && !w.getLsbD 2
    ramErr := s.ramErr && !w.getLsbD 3 }

/-- BUSYERR <- 1 (spec/10_state.md R37). -/
def setBusyErr (s : State) : State := { s with busyErr := true }

/-- RAMERR <- 1 (spec/10_state.md R38). -/
def setRamErr (s : State) : State := { s with ramErr := true }

/-- The IRQ output, a level: CTRL.IE ∧ STATUS.DONE (spec/60_exceptions.md R250). -/
def irq (s : State) : Bool := s.ie && s.done

end Sys2Proof.Machine
end

