-- ==== Sys2Proof/Machine/Control.lean ====
section
/-!
DEFINITION. The control command NOP and the illegal CMD word (spec/40_command.md section 3).
-/

namespace Sys2Proof.Machine

/-- The engine step of NOP: START finishes OK (spec/40_command.md R124, R128). -/
def execNop (s : State) : Host.Outcome State Fault Refusal :=
  whenRunning s <|
    match s.phase with
    | .start => .next (finish .ok s)
    | _ => .refused .noEngineStep

/-- The engine step of an illegal CMD word: START finishes BAD_CMD, before any range check (spec/40_command.md R124, R129). -/
def execIllegal (s : State) : Host.Outcome State Fault Refusal :=
  whenRunning s <|
    match s.phase with
    | .start => .next (finish .badCmd s)
    | _ => .refused .noEngineStep

end Sys2Proof.Machine
end

