-- ==== Sys2Proof/Machine/Capacity.lean ====
section
/-!
DEFINITION. The capacity checker: CHECK (spec/42_capacity.md).
-/

namespace Sys2Proof.Machine

/-- Whether the frame fits the carrier: FRAME_BITS ≤ 3 × PIXEL_COUNT, unbounded (spec/42_capacity.md R162). -/
def frameFits (s : State) : Bool := decide (s.frameBits.toNat ≤ cap s)

/-- The engine step of CHECK (spec/42_capacity.md R160): START with range checks 2 and 3, then the CAP_CHECK step of R162.
It touches no memory, as R160 and the table of spec/30_encoding.md R107 have it, although R104 calls NOP the only command with no effect on
memory (DESIGN CHOICE: the command's own rule is followed; notes/assumptions/20.md). -/
def execCheck (s : State) : Host.Outcome State Fault Refusal :=
  whenRunning s <|
    match s.phase with
    | .start => startChecked [pixelCountOut s, frameBitsOut s] (enterPhase .capCheck s) s
    | .capCheck => .next (finish (if frameFits s then .ok else .capacity) s)
    | _ => .refused .noEngineStep

end Sys2Proof.Machine
end

