-- ==== Sys2Proof/Machine/Embedder.lean ====
section
/-!
DEFINITION. The LSB embedder: EMBED (spec/43_embedder.md).
-/

namespace Sys2Proof.Machine

/-- The byte the WRITE step of bit `b` writes: `(x & 0xFE) | fbit(b)` for the byte x at byteAddr(b) (spec/43_embedder.md R173). -/
def embeddedByte (s : State) (b : Nat) : Byte := replaceLsb (readCarrier s (byteAddr s b)) (fbit s b)

/-- The phase after bit `b − 1` has been written and `b` bits are done: WRITE_HEADER below 32, else WRITE_PAYLOAD
(spec/43_embedder.md R173). -/
def writePhase (b : Nat) : Phase := if b < 32 then .writeHeader else .writePayload

/-- The CAP_CHECK step when OP = EMBED (spec/43_embedder.md R172). -/
def embedCapCheckStep (s : State) : Host.Outcome State Fault Refusal :=
  if s.frameBits.toNat > cap s then .next (finish .capacity s)
  else if s.frameBits.toNat = 0 then .next (finish .ok s)
  else .next (enterPhase .writeHeader s)

/-- A WRITE step whose accesses complete: byte `a` becomes `v`, CURSOR advances, and the command finishes after the last bit
(spec/43_embedder.md R173). -/
def writeBitDone (a : Nat) (v : Byte) (s : State) : State :=
  let s1 := advanceCursor (writeCarrier a v s)
  if s.cursor + 1 = s.frameBits.toNat then finish .ok s1 else enterPhase (writePhase (s.cursor + 1)) s1

/-- The WRITE step (spec/43_embedder.md R173), with the bus errors of R178. The write is issued even when the value is unchanged. -/
def writeBitStep (s : State) : Host.Outcome State Fault Refusal :=
  let b := s.cursor
  let a := byteAddr s b
  if b / 8 ≥ s.params.frameCap then .fault .ramOutside
  else if a ≥ s.params.carrierSize then .fault .carrierOutside
  else
    let s1 := logAccess (.read a) s
    match s.port with
    | .readError => .next (finish .busError s1)
    | .writeError => .next (finish .busError (writeCarrierDrawn a (embeddedByte s b) (logAccess (.write a (embeddedByte s b)) s1)))
    | .okay => .next (writeBitDone a (embeddedByte s b) (logAccess (.write a (embeddedByte s b)) s1))

/-- The engine step of EMBED (spec/43_embedder.md R170): START with range checks 2, 3 and 4, CAP_CHECK, then one WRITE step per bit. -/
def execEmbed (s : State) : Host.Outcome State Fault Refusal :=
  whenRunning s <|
    match s.phase with
    | .start => startChecked [pixelCountOut s, frameBitsOut s, regionOut s] (enterPhase .capCheck s) s
    | .capCheck => embedCapCheckStep s
    | .writeHeader => writeBitStep s
    | .writePayload => writeBitStep s
    | _ => .refused .noEngineStep

end Sys2Proof.Machine
end

