-- ==== Sys2Proof/Machine/Extractor.lean ====
section
/-!
DEFINITION. The LSB extractor: EXTRACT (spec/44_extractor.md).
-/

namespace Sys2Proof.Machine

/-- The bit EXTRACT reads at bit address `b`: lsb of the carrier byte at byteAddr(b) (spec/44_extractor.md R192, R195, R199). -/
def carrierBit (s : State) (b : Nat) : Bool := lsb (readCarrier s (byteAddr s b))

/-- SHIFT <- 0 (spec/44_extractor.md R191). -/
def clearShift (s : State) : State := { s with shift := 0#32 }

/-- EXTRACT's START continuation (spec/44_extractor.md R191). -/
def extractContinuation (s : State) : State :=
  if cap s < 32 then finish .absent s else enterPhase .readHeader (clearShift s)

/-- SHIFT takes a header bit and CURSOR advances (spec/44_extractor.md R192). -/
def takeHeaderBit (v : Bool) (s : State) : State := { s with shift := shiftIn s.shift v, cursor := s.cursor + 1 }

/-- The READ_HEADER step (spec/44_extractor.md R192), with the bus error of R201. -/
def readHeaderStep (s : State) : Host.Outcome State Fault Refusal :=
  let b := s.cursor
  let a := byteAddr s b
  if a ≥ s.params.carrierSize then .fault .carrierOutside
  else
    let s1 := logAccess (.read a) s
    match s.port with
    | .readError => .next (finish .busError s1)
    | _ =>
      let s2 := takeHeaderBit (carrierBit s b) s1
      .next (if b + 1 = 32 then enterPhase .validateLength s2 else s2)

/-- A header is valid when `0 < L` and `32 + L ≤ 3 × PIXEL_COUNT`, compared without wrap (spec/44_extractor.md R194). -/
def headerValid (s : State) (l : Nat) : Bool := decide (0 < l ∧ 32 + l ≤ cap s)

/-- ACC <- 0 (spec/44_extractor.md R193). -/
def clearAcc (s : State) : State := { s with acc := 0#8 }

/-- The VALIDATE_LENGTH step (spec/44_extractor.md R193, R194, R196). -/
def validateLengthStep (s : State) : Host.Outcome State Fault Refusal :=
  let l := s.shift
  let s1 := setHdrLen l s
  if headerValid s l.toNat = false then .next (finish .absent s1)
  else if l.toNat / 8 > s.params.msgCap then .next (finish .oversize s1)
  else .next (enterPhase .readPayload (clearAcc s1))

/-- The state after the READ_PAYLOAD step has read payload bit `k` (spec/44_extractor.md R195): ACC takes the bit, every eighth bit
stores it to MSG RAM and clears it, and the L-th bit ends the phase. L is held by SHIFT (spec/10_state.md R56; notes/assumptions/8.md). -/
def readPayloadDone (s : State) (k : Nat) (v : Bool) : State :=
  { s with
    cursor := s.cursor + 1
    acc := if (k + 1) % 8 = 0 then 0#8 else shiftInByte s.acc v
    msg := if (k + 1) % 8 = 0 then Memory.set s.msg ((k + 1) / 8 - 1) (shiftInByte s.acc v) else s.msg
    phase := if k + 1 = s.shift.toNat then .decode else s.phase }

/-- The READ_PAYLOAD step (spec/44_extractor.md R195), with the bus error of R201. -/
def readPayloadStep (s : State) : Host.Outcome State Fault Refusal :=
  let b := s.cursor
  let k := b - 32
  let a := byteAddr s b
  if a ≥ s.params.carrierSize then .fault .carrierOutside
  else if (k + 1) % 8 = 0 ∧ (k + 1) / 8 - 1 ≥ s.params.msgCap then .fault .ramOutside
  else
    let s1 := logAccess (.read a) s
    match s.port with
    | .readError => .next (finish .busError s1)
    | _ => .next (readPayloadDone s1 k (carrierBit s b))

/-- MSG_LEN <- n (spec/44_extractor.md R197). -/
def setMsgLen (n : Word) (s : State) : State := { s with msgLen := n }

/-- The DECODE step (spec/44_extractor.md R197). The trailing partial group in ACC is discarded. -/
def decodeStep (s : State) : Host.Outcome State Fault Refusal :=
  .next (finish .ok (setMsgLen (BitVec.ofNat 32 (s.shift.toNat / 8)) s))

/-- The engine step of EXTRACT (spec/44_extractor.md R190): START with range checks 2 and 4, READ_HEADER, VALIDATE_LENGTH, READ_PAYLOAD,
DECODE. -/
def execExtract (s : State) : Host.Outcome State Fault Refusal :=
  whenRunning s <|
    match s.phase with
    | .start => startChecked [pixelCountOut s, regionOut s] (extractContinuation s) s
    | .readHeader => readHeaderStep s
    | .validateLength => validateLengthStep s
    | .readPayload => readPayloadStep s
    | .decode => decodeStep s
    | _ => .refused .noEngineStep

end Sys2Proof.Machine
end

