-- ==== Sys2Proof/Machine/Framer.lean ====
section
/-!
DEFINITION. The bit-frame packer and unpacker: PACK and UNPACK (spec/41_framer.md).
-/

namespace Sys2Proof.Machine

/-- FRAME RAM after the PACK step of a message of `n` bytes: the four header bytes of L = 8 × n and then the message bytes
(spec/41_framer.md R142). -/
def packedFrame (s : State) (n : Nat) : List Host.Cell :=
  Memory.fill (Memory.fill s.frame 0 (headerByte (BitVec.ofNat 32 (8 * n))) 4) 4 (readMsg s) n

/-- What PACK writes to FRAME_BITS for a message of `n` bytes: 32 + 8 × n (spec/41_framer.md R142). Where that does not fit the 32 bits
of FRAME_BITS (spec/10_state.md R44), which R9 says never happens and R8 allows at MSG_LEN = MSG_CAP = 2^29 − 4 alone, the value is free
(DESIGN CHOICE: the spec states none; notes/assumptions/18.md). -/
def packedFrameBits (n : Nat) : Word :=
  if 32 + 8 * n < 2 ^ 32 then BitVec.ofNat 32 (32 + 8 * n) else Config.frameBitsOverflow n

/-- The PACK step's writes for a message of `n` bytes (spec/41_framer.md R142). -/
def packMessage (n : Nat) (s : State) : State :=
  { s with frame := packedFrame s n, frameBits := packedFrameBits n }

/-- The PACK step (spec/41_framer.md R142). -/
def packStep (s : State) : Host.Outcome State Fault Refusal :=
  let n := s.msgLen.toNat
  if n > s.params.msgCap then .fault .ramOutside
  else .next (finish .ok (packMessage n s))

/-- The engine step of PACK (spec/41_framer.md R140): START with range check 1, then the PACK step. -/
def execPack (s : State) : Host.Outcome State Fault Refusal :=
  whenRunning s <|
    match s.phase with
    | .start => startChecked [msgLenOut s] (enterPhase .pack s) s
    | .pack => packStep s
    | _ => .refused .noEngineStep

/-- The header of the frame in FRAME RAM: L = BE32(frame[0..3]) (spec/41_framer.md R147). -/
def frameHeader (s : State) : Word := be32 (readFrame s 0) (readFrame s 1) (readFrame s 2) (readFrame s 3)

/-- The UNPACK step's writes into `s` for a payload of `n` bytes in the frame of `source` (spec/41_framer.md R147). -/
def unpackedMessage (source : State) (n : Nat) (s : State) : State :=
  { s with msg := Memory.fill s.msg 0 (fun j => readFrame source (4 + j)) n, msgLen := BitVec.ofNat 32 n }

/-- The UNPACK step (spec/41_framer.md R147). -/
def unpackStep (s : State) : Host.Outcome State Fault Refusal :=
  if s.frameBits.toNat < 32 then .next (finish .short s)
  else
    let l := frameHeader s
    let s1 := setHdrLen l s
    if 32 + l.toNat > s.frameBits.toNat then .next (finish .short s1)
    else
      let n := l.toNat / 8
      if n > s.params.msgCap then .fault .ramOutside
      else .next (finish .ok (unpackedMessage s n s1))

/-- The engine step of UNPACK (spec/41_framer.md R145): START with range check 3, then the UNPACK step. -/
def execUnpack (s : State) : Host.Outcome State Fault Refusal :=
  whenRunning s <|
    match s.phase with
    | .start => startChecked [frameBitsOut s] (enterPhase .unpack s) s
    | .unpack => unpackStep s
    | _ => .refused .noEngineStep

end Sys2Proof.Machine
end

