-- ==== Sys2Proof/Machine/HostAccess.lean ====
section
/-!
DEFINITION. The HOST transactions RD and WR (spec/45_host_access.md): register reads and writes, the busy lock and the data ports.
-/

namespace Sys2Proof.Machine

/-- The answer to a HOST read: RDATA and an OKAY response (spec/45_host_access.md R220). -/
def answerRead (v : Word) (s : State) : State := { s with rdata := v, resp := .okay }

/-- The answer to a HOST write: an OKAY response (spec/45_host_access.md R220). -/
def answerWrite (s : State) : State := { s with resp := .okay }

/-- The bus error response of an ill-formed read: RDATA = 0 and no state change (spec/45_host_access.md R221). -/
def errorRead (s : State) : State := { s with rdata := 0#32, resp := .slverr }

/-- The bus error response of an ill-formed write: no state change (spec/45_host_access.md R221). -/
def errorWrite (s : State) : State := { s with resp := .slverr }

/-- The value a register reads, reserved bits 0 (spec/45_host_access.md R220, spec/10_state.md section 2). The data ports, whose read has
a side effect, are read by `readMsgPort` and `readFramePort`; here they give 0. BUSY does not matter: HDR_LEN reads the new L as soon as
VALIDATE_LENGTH has written it, although spec/40_command.md R131 says that only PHASE, CURSOR and STATUS can be observed while BUSY = 1
(DESIGN CHOICE, notes/assumptions/21.md). -/
def regValue (s : State) : Reg → Word
  | .id => idValue
  | .ctrl => flagBit s.ie 0
  | .cmd => 0#32
  | .status => statusWord s
  | .phase => s.phase.code.setWidth 32
  | .cursor => BitVec.ofNat 32 s.cursor
  | .carrierBase => BitVec.ofNat 32 (carrierBaseAddr s)
  | .pixelCount => s.pixelCount
  | .frameBits => s.frameBits
  | .msgLen => s.msgLen
  | .hdrLen => s.hdrLen
  | .msgPtr => s.msgPtr
  | .framePtr => s.framePtr
  | .paramMsgCap => BitVec.ofNat 32 s.params.msgCap
  | .paramMaxPixels => BitVec.ofNat 32 s.params.maxPixels
  | .msgData => 0#32
  | .frameData => 0#32
  | .reserved => 0#32

/-- A read of MSG_DATA (spec/45_host_access.md R226, R227). -/
def readMsgPort (s : State) : State :=
  if s.busy then answerRead 0#32 (setBusyErr s)
  else
    let p := s.msgPtr
    let s1 := advanceMsgPtr s
    if p.toNat < s.params.msgCap then answerRead ((readMsg s p.toNat).setWidth 32) s1
    else answerRead 0#32 (setRamErr s1)

/-- A read of FRAME_DATA (spec/45_host_access.md R226, R227). -/
def readFramePort (s : State) : State :=
  if s.busy then answerRead 0#32 (setBusyErr s)
  else
    let p := s.framePtr
    let s1 := advanceFramePtr s
    if p.toNat < s.params.frameCap then answerRead ((readFrame s p.toNat).setWidth 32) s1
    else answerRead 0#32 (setRamErr s1)

/-- A well-formed read of a register (spec/45_host_access.md R220, R222). -/
def readReg (r : Reg) (s : State) : State :=
  match r with
  | .msgData => readMsgPort s
  | .frameData => readFramePort s
  | r => answerRead (regValue s r) s

/-- A write of MSG_DATA while BUSY = 0 (spec/45_host_access.md R227). -/
def writeMsgPort (w : Word) (s : State) : State :=
  let p := s.msgPtr
  advanceMsgPtr (if p.toNat < s.params.msgCap then writeMsg p.toNat (w.setWidth 8) s else setRamErr s)

/-- A write of FRAME_DATA while BUSY = 0 (spec/45_host_access.md R227). -/
def writeFramePort (w : Word) (s : State) : State :=
  let p := s.framePtr
  advanceFramePtr (if p.toNat < s.params.frameCap then writeFrame p.toNat (w.setWidth 8) s else setRamErr s)

/-- CARRIER_BASE takes WDATA[ADDR_W−1:0] (spec/45_host_access.md R225). -/
def carrierBaseBits (s : State) (w : Word) : Word := BitVec.ofNat 32 (w.toNat % s.params.carrierSize)

/-- What a write does to a register while it is not locked out (spec/45_host_access.md R220, R223–R225, R227, spec/40_command.md R121). -/
def storeReg (r : Reg) (w : Word) (s : State) : State :=
  match r with
  | .ctrl => { s with ie := w.getLsbD 0 }
  | .cmd => accept w s
  | .status => writeStatus w s
  | .carrierBase => { s with carrierBase := carrierBaseBits s w }
  | .pixelCount => { s with pixelCount := w }
  | .frameBits => { s with frameBits := w }
  | .msgLen => { s with msgLen := w }
  | .msgPtr => { s with msgPtr := w }
  | .framePtr => { s with framePtr := w }
  | .msgData => writeMsgPort w s
  | .frameData => writeFramePort w s
  | .id => s
  | .phase => s
  | .cursor => s
  | .hdrLen => s
  | .paramMsgCap => s
  | .paramMaxPixels => s
  | .reserved => s

/-- Whether a write to a register is dropped now: BUSY = 1, and the register is CMD or a locked one
(spec/40_command.md R123, spec/45_host_access.md R226). -/
def writeDropped (r : Reg) (s : State) : Bool := s.busy && (r.locked || decide (r = .cmd))

/-- A well-formed write of a register (spec/45_host_access.md R220): dropped with BUSYERR, or stored. -/
def writeReg (r : Reg) (w : Word) (s : State) : State :=
  answerWrite (if writeDropped r s then setBusyErr s else storeReg r w s)

/-- RD (spec/45_host_access.md R220–R222, R226, R227). While RST is asserted there is no step: stuck (spec/70_reset_and_hazards.md R276). -/
def execRd (offset : BitVec 8) (size : Nat) (s : State) : Host.Outcome State Fault Refusal :=
  if s.rst then .fault .stuckInReset
  else if sizeOk size && offsetAligned offset then .next (readReg (regAt offset) s)
  else .next (errorRead s)

/-- WR (spec/45_host_access.md R220, R221, R223–R228). While RST is asserted there is no step: stuck
(spec/70_reset_and_hazards.md R276). -/
def execWr (offset : BitVec 8) (size : Nat) (wdata : Word) (s : State) : Host.Outcome State Fault Refusal :=
  if s.rst then .fault .stuckInReset
  else if sizeOk size && offsetAligned offset then .next (writeReg (regAt offset) wdata s)
  else .next (errorWrite s)

end Sys2Proof.Machine
end

