-- ==== Sys2Proof/Machine/Dispatch.lean ====
section
/-!
DEFINITION. The one dispatch from an instruction to its meaning. A command's meaning is the engine step it takes in the state's PHASE
(spec/40_command.md R122); a HOST transaction's is the whole transaction.
-/

namespace Sys2Proof.Machine

def exec (i : Instr) (s : State) : Host.Outcome State Fault Refusal :=
  match i with
  | .nop => Sys2Proof.Machine.execNop s
  | .pack => Sys2Proof.Machine.execPack s
  | .unpack => Sys2Proof.Machine.execUnpack s
  | .check => Sys2Proof.Machine.execCheck s
  | .embed => Sys2Proof.Machine.execEmbed s
  | .extract => Sys2Proof.Machine.execExtract s
  | .rd offset size => Sys2Proof.Machine.execRd offset size s
  | .wr offset size wdata => Sys2Proof.Machine.execWr offset size wdata s

end Sys2Proof.Machine
end

