-- ==== Sys2Proof/Machine/Agents.lean ====
section
/-!
DEFINITION. The agents and the environment: the engine's step, a HOST transaction arriving at a host address, a direct carrier access of
another agent with the hazard of spec/70_reset_and_hazards.md R284, RST (R270, R271) and the schedule that interleaves them.
-/

namespace Sys2Proof.Machine

/-- The ENGINE agent's step (spec/40_command.md R122, R124): the latched command's, or BAD_CMD for an illegal word. While BUSY = 0, or
RST is asserted, none is enabled and nothing changes. -/
def engineStep (s : State) : Host.Outcome State Fault Refusal :=
  if s.busy = true ∧ s.rst = false then
    match latched s with
    | some i => exec i s
    | none => execIllegal s
  else .next s

/-- A HOST transaction at a host address (spec/30_encoding.md R101): one outside the block's window is not the block's. -/
def hostTransaction (address : Nat) (dir : Dir) (size : Nat) (wdata : Word) (s : State) : Host.Outcome State Fault Refusal :=
  match windowOffset s.params address with
  | some offset => exec (decodeHost { dir := dir, offset := offset, size := size, wdata := wdata }) s
  | none => .next s

/-- Whether a direct read of a carrier byte is the hazard: BUSY = 1 and the byte is in the region (spec/20_memory.md R92,
spec/45_host_access.md R230), but for the reads that spec/70_reset_and_hazards.md R284 allows during EXTRACT
(notes/assumptions/10.md). BUSY is this block's: of two instances with overlapping regions (spec/60_exceptions.md R259) the hazard is
recorded in the model of the one that is BUSY, with the other's accesses as events here (DESIGN CHOICE, notes/assumptions/22.md). -/
def readRaces (s : State) (a : Nat) : Bool := s.busy && decide (latched s ≠ some .extract) && inRegion s a

/-- Whether a direct write of a carrier byte is the hazard: BUSY = 1 and the byte is in the region (spec/20_memory.md R92,
spec/45_host_access.md R230, spec/70_reset_and_hazards.md R284; notes/assumptions/10.md). BUSY is this block's, as in `readRaces`
(DESIGN CHOICE, notes/assumptions/22.md). -/
def writeRaces (s : State) (a : Nat) : Bool := s.busy && inRegion s a

/-- A direct carrier read by an agent other than the engine (spec/45_host_access.md R230). With maintenance the host's stale copy is gone
(spec/20_memory.md R96; notes/assumptions/6.md). -/
def hostCarrierRead (a : Nat) (via : Via) (s : State) : Host.Outcome State Fault Refusal :=
  if a ≥ s.params.carrierSize then .refused .noSuchCarrierByte
  else if readRaces s a then .fault .carrierRace
  else
    let s1 := { s with hostByte := seenVia via s a }
    .next (if via = .maintained then discardCopy a s1 else s1)

/-- A direct carrier write by an agent other than the engine (spec/45_host_access.md R230). On an incoherent platform a host write with no
maintenance stays on the host's side (spec/20_memory.md R96; notes/assumptions/6.md). -/
def hostCarrierWrite (a : Nat) (v : Byte) (via : Via) (s : State) : Host.Outcome State Fault Refusal :=
  if a ≥ s.params.carrierSize then .refused .noSuchCarrierByte
  else if writeRaces s a then .fault .carrierRace
  else if s.params.coherent then .next (writeCarrier a v s)
  else
    match via with
    | .cached => .next (holdHostWrite a v s)
    | .maintained => .next (writeThrough a v s)
    | .port => .next (writeCarrier a v s)

/-- What an incoherent platform does with the host's copy of a byte; on a coherent one there is none to move. Writing a byte back to the
carrier region while BUSY = 1 is the hazard like any other write there (spec/20_memory.md R92, R96, spec/70_reset_and_hazards.md R286;
notes/assumptions/6.md). Taking a copy of a byte there is no hazard, even during EMBED: it is the platform's move and no agent's read of
R284, and only what the host later reads can show it (DESIGN CHOICE, notes/assumptions/6.md). -/
def hostCacheMove (a : Nat) (move : CacheMove) (s : State) : Host.Outcome State Fault Refusal :=
  if a ≥ s.params.carrierSize then .refused .noSuchCarrierByte
  else if s.params.coherent then .next s
  else
    match move, Memory.get? s.hostWrites a with
    | .fill, _ => .next (fillCopy a s)
    | .discard, _ => .next (discardCopy a s)
    | .writeBack, none => .next s
    | .writeBack, some v => if writeRaces s a then .fault .carrierRace else .next (writeThrough a v s)

/-- Every register and hidden field at its value of spec/10_state.md R62, and fresh RAM draws; the carrier is untouched
(spec/70_reset_and_hazards.md R270, R272). The wires and the model's own fields stay. -/
def resetBlock (s : State) : State :=
  { State.resetWith s.params with
    carrier := s.carrier
    hostWrites := s.hostWrites
    hostCached := s.hostCached
    ramEpoch := s.ramEpoch + 1
    draws := s.draws
    rst := s.rst
    port := s.port
    inputs := s.inputs
    rdata := s.rdata
    resp := s.resp
    hostByte := s.hostByte
    portLog := s.portLog }

/-- Whether a carrier write may be in flight: EMBED is in a WRITE phase, not held by RST, and its next access is to a byte that exists. -/
def writeInFlight (s : State) : Bool :=
  s.busy && !s.rst && decide (latched s = some .embed) && decide (s.phase = .writeHeader ∨ s.phase = .writePayload) &&
    decide (s.cursor / 8 < s.params.frameCap ∧ byteAddr s s.cursor < s.params.carrierSize)

/-- RST is asserted (spec/70_reset_and_hazards.md R270, R271): the command is abandoned with no finish, and the byte of a write in flight
holds its old or its new value. -/
def assertReset (s : State) : State :=
  let s1 := if writeInFlight s then writeCarrierDrawn (byteAddr s s.cursor) (embeddedByte s s.cursor) s else s
  setRst true (resetBlock s1)

/-- RST is deasserted (spec/70_reset_and_hazards.md R270). -/
def deassertReset (s : State) : State := setRst false (resetBlock s)

/-- RST takes a level (spec/70_reset_and_hazards.md R270). Taking the level it already has is no edge and changes nothing (DESIGN CHOICE,
notes/assumptions/12.md). -/
def changeRst (level : Bool) (s : State) : State :=
  if level = s.rst then s else if level then assertReset s else deassertReset s

/-- One event of the environment (notes/assumptions/2.md). -/
def handle (e : Input) (s : State) : Host.Outcome State Fault Refusal :=
  match e with
  | .engine => engineStep s
  | .bus address dir size wdata => hostTransaction address dir size wdata s
  | .carrierRead a via => hostCarrierRead a via s
  | .carrierWrite a v via => hostCarrierWrite a v via s
  | .hostCache a move => hostCacheMove a move s
  | .reset asserted => .next (changeRst asserted s)
  | .portReply reply => .next { s with port := reply }

/-- One step: the oldest scheduled event, or the engine's step when none is scheduled (notes/assumptions/2.md). The log of port accesses
starts empty. -/
def stepBody (s : State) : Host.Outcome State Fault Refusal :=
  match s.inputs with
  | [] => engineStep { s with portLog := [] }
  | e :: rest => handle e { s with inputs := rest, portLog := [] }

/-- The engine moves next: with nothing scheduled it already does. -/
def engineFirst : List Input → List Input
  | [] => []
  | e :: rest => .engine :: e :: rest

/-- `s` with an instruction placed where the next step takes it from (notes/assumptions/2.md, notes/assumptions/7.md): a CMD word is the word the block has
just accepted, and the engine moves next; a HOST transaction is the next event, at its offset in the window. RST is low, or neither
could be taken. -/
def placeWord (s : State) (nbits w : Nat) : State :=
  match encodedOfTableWord nbits w with
  | .ok (.cmd word) => { accept word s with rst := false, inputs := engineFirst s.inputs, portLog := [] }
  | .ok (.host t) => { s with rst := false, inputs := .bus (s.params.hostBase + t.offset.toNat) t.dir t.size t.wdata :: s.inputs }
  | .error _ => s

end Sys2Proof.Machine
end

