-- ==== Sys2Proof/Machine/Step.lean ====
section
/-!
DEFINITION. The step function and the host's way to place an instruction before it. Both only call what Machine/Agents.lean defines.
-/

namespace Sys2Proof.Machine

/-- One step of the machine, of whichever agent the schedule says (spec/00_scope.md R11). -/
def step (s : State) : Host.Outcome State Fault Refusal := Sys2Proof.Machine.stepBody s

/-- `s` with the instruction `w` of `nbits` bits where `step` takes its next instruction from. -/
def State.withFetchWord (s : State) (nbits w : Nat) : State := Sys2Proof.Machine.placeWord s nbits w

end Sys2Proof.Machine
end

