-- ==== Sys2Proof/Safety.lean ====
section
/-!
DEFINITION. What claims use: the end of a command (spec/00_scope.md R14), the invariant that every step keeps, the environments a claim
about a whole command assumes (spec/40_command.md R130), and the bits of a carrier as numbers (spec/44_extractor.md R199).
-/

namespace Sys2Proof.Machine

/-- One step's or one instruction's answer. -/
abbrev Answer := Host.Outcome State Fault Refusal

/-- The end of a command: BUSY = 0 and DONE = 1 (spec/00_scope.md R14). -/
abbrev CommandEnd (s : State) : Prop := s.busy = false ∧ s.done = true

/-- Range check 1 passes (spec/40_command.md R125). -/
abbrev MsgLenLegal (s : State) : Prop := s.msgLen.toNat ≤ s.params.msgCap

/-- Range check 2 passes (spec/40_command.md R125). -/
abbrev PixelCountLegal (s : State) : Prop := s.pixelCount.toNat ≤ s.params.maxPixels

/-- Range check 3 passes (spec/40_command.md R125). -/
abbrev FrameBitsLegal (s : State) : Prop := s.frameBits.toNat ≤ 8 * s.params.frameCap

/-- Range check 4 passes: the carrier region is legal (spec/20_memory.md R72). -/
abbrev RegionLegal (s : State) : Prop := regionEnd s ≤ s.params.carrierSize

/-- EMBED is past its checks and has bits left to write (spec/43_embedder.md R172, R173). -/
abbrev Embedding (s : State) : Prop :=
  latched s = some .embed ∧ s.cursor < s.frameBits.toNat ∧ s.frameBits.toNat ≤ cap s ∧
    PixelCountLegal s ∧ FrameBitsLegal s ∧ RegionLegal s

/-- EXTRACT is past its checks (spec/44_extractor.md R191). -/
abbrev Extracting (s : State) : Prop :=
  latched s = some .extract ∧ 32 ≤ cap s ∧ PixelCountLegal s ∧ RegionLegal s

/-- EXTRACT has accepted the header L that SHIFT and HDR_LEN hold (spec/44_extractor.md R193). -/
abbrev HeaderAccepted (s : State) : Prop :=
  s.hdrLen = s.shift ∧ 0 < s.shift.toNat ∧ 32 + s.shift.toNat ≤ cap s ∧ s.shift.toNat / 8 ≤ s.params.msgCap

/-- What holds of a running command in each phase (spec/40_command.md R124, R125 and the step rules of 41 to 44). -/
def Running (s : State) : Prop :=
  match s.phase with
  | .idle => False
  | .start => s.cursor = 0
  | .pack => latched s = some .pack ∧ s.cursor = 0 ∧ MsgLenLegal s
  | .unpack => latched s = some .unpack ∧ s.cursor = 0 ∧ FrameBitsLegal s
  | .capCheck =>
      s.cursor = 0 ∧ PixelCountLegal s ∧ FrameBitsLegal s ∧
        (latched s = some .check ∨ (latched s = some .embed ∧ RegionLegal s))
  | .writeHeader => Embedding s ∧ s.cursor < 32
  | .writePayload => Embedding s ∧ 32 ≤ s.cursor
  | .readHeader => Extracting s ∧ s.cursor < 32
  | .validateLength => Extracting s ∧ s.cursor = 32
  | .readPayload => Extracting s ∧ HeaderAccepted s ∧ 32 ≤ s.cursor ∧ s.cursor < 32 + s.shift.toNat
  | .decode => Extracting s ∧ HeaderAccepted s ∧ s.cursor = 32 + s.shift.toNat

/-- The invariant of the block: legal parameters; the flags' invariant `BUSY = 1 → DONE = 0` (spec/10_state.md R36) and the meaning of
PENDING (R39) and IDLE (R40); RST holds the block idle (spec/70_reset_and_hazards.md R270); the memories are canonical and hold no byte
that does not exist; and a running command's registers are what its checks left. CURSOR is at most
3 × MAX_PIXELS: R60 says it stays below, but by R60's own stop conditions it ends at exactly that on a full carrier of MAX_PIXELS pixels
(DESIGN CHOICE: the stop conditions are followed; spec/10_state.md R60; notes/assumptions/23.md). -/
structure Inv (s : State) : Prop where
  params_wf : s.params.wf
  busy_not_done : s.busy = true → s.done = false
  busy_iff_pending : s.busy = true ↔ s.result = .pending
  idle_iff_phase : s.busy = false ↔ s.phase = .idle
  reset_idle : s.rst = true → s.busy = false ∧ irq s = false
  base_bits : s.carrierBase.toNat < s.params.carrierSize
  cursor_bound : s.cursor ≤ 3 * s.params.maxPixels
  msg_wf : Memory.wf s.msg ∧ Memory.below s.msg s.params.msgCap
  frame_wf : Memory.wf s.frame ∧ Memory.below s.frame s.params.frameCap
  carrier_wf : Memory.wf s.carrier ∧ Memory.below s.carrier s.params.carrierSize
  host_copies_wf :
    (Memory.wf s.hostWrites ∧ Memory.below s.hostWrites s.params.carrierSize) ∧
      Memory.wf s.hostCached ∧ Memory.below s.hostCached s.params.carrierSize
  running : s.busy = true → Running s

/-- A quiet environment: nothing is scheduled, so every step is the engine's, and the carrier port answers every access
(the premises of spec/40_command.md R130). -/
abbrev Quiet (s : State) : Prop := s.inputs = [] ∧ s.port = .okay ∧ s.rst = false

/-- The word of a legal command has just been accepted in a quiet environment (spec/40_command.md R121). -/
abbrev Accepted (i : Instr) (s : State) : Prop :=
  latched s = some i ∧ s.busy = true ∧ s.phase = .start ∧ s.cursor = 0 ∧ Quiet s

/-- The ENGINE has an enabled step: BUSY = 1 and RST is not asserted (spec/40_command.md R122, spec/70_reset_and_hazards.md R270). -/
abbrev Engaged (s : State) : Prop := s.busy = true ∧ s.rst = false

/-- The next event is a well-sized HOST write of `w` at offset `off` of the block's window (spec/45_host_access.md R220). -/
def HostWrites (s : State) (off : BitVec 8) (w : Word) : Prop :=
  ∃ address rest, s.inputs = .bus address .write 4 w :: rest ∧ windowOffset s.params address = some off

/-- The host's copy of a byte, if it holds one it has not written, is what the carrier port holds (spec/20_memory.md R96). -/
def CopyFresh (s : State) (a : Nat) : Prop :=
  s.params.coherent = true ∨ ∀ v, Memory.get? s.hostCached a = some v → v = readCarrier s a

/-- The next event changes the level of RST: a reset is asserted, or deasserted (spec/70_reset_and_hazards.md R270). -/
def ResetEvent (s : State) : Prop := ∃ rest, s.inputs = .reset (!s.rst) :: rest

/-- The next event is a CMD write that the block accepts (spec/40_command.md R120). -/
def CommandAccepted (s : State) : Prop := s.busy = false ∧ ∃ w, HostWrites s 0x08#8 w

/-- A step from `s` to `t` in which the accesses of one channel bit of a command completed: it issued accesses, and none got an error
response (spec/43_embedder.md R173, spec/44_extractor.md R192, R195). -/
def BitCompleted (s t : State) : Prop :=
  t.portLog ≠ [] ∧
    ((latched s = some .embed ∧ s.port = .okay) ∨ (latched s = some .extract ∧ s.port ≠ .readError))

/-- `k` steps of the machine. -/
def run (k : Nat) (s : State) : Answer := Host.Core.run Sys2Proof.core k s

/-- The header a carrier holds: Σ c_i × 2^(31−i) over the bit addresses 0..31 (spec/44_extractor.md R199). -/
def carrierHeader (s : State) : Nat := ∑ i ∈ Finset.range 32, (carrierBit s i).toNat * 2 ^ (31 - i)

/-- Payload byte `j` a carrier holds: Σ c_(32+8j+m) × 2^(7−m) over m = 0..7 (spec/44_extractor.md R199). -/
def carrierPayloadByte (s : State) (j : Nat) : Nat :=
  ∑ m ∈ Finset.range 8, (carrierBit s (32 + 8 * j + m)).toNat * 2 ^ (7 - m)

/-- How many engine steps the accepted command takes at most (spec/40_command.md R127). EXTRACT's bound has the L of a header that R194
accepts; any other header ends the command before the payload. -/
def stepBound (s : State) : Nat :=
  match latched s with
  | some .pack => 2
  | some .unpack => 2
  | some .check => 2
  | some .embed => 2 + s.frameBits.toNat
  | some .extract => if headerValid s (carrierHeader s) then 35 + carrierHeader s else 35
  | _ => 1

/-- The carrier address an access names. -/
def Access.address : Access → Nat
  | .read a => a
  | .write a _ => a

/-- Whether an access is a write. -/
def Access.isWrite : Access → Bool
  | .read _ => false
  | .write _ _ => true

/-- The parameters and everything a HOST transaction cannot change while BUSY = 1: the registers a command reads and
writes, the hidden fields, the memories and the carrier port (spec/10_state.md R54, spec/40_command.md R130). -/
structure EngineView where
  params : Params
  busy : Bool
  result : Result
  phase : Phase
  cursor : Nat
  carrierBase : Word
  pixelCount : Word
  frameBits : Word
  msgLen : Word
  hdrLen : Word
  msgPtr : Word
  framePtr : Word
  op : BitVec 4
  opIll : Bool
  shift : Word
  acc : Byte
  msg : List Host.Cell
  frame : List Host.Cell
  carrier : List Host.Cell
  ramEpoch : Nat
  draws : Nat
  rst : Bool
  port : PortReply
  deriving DecidableEq, Repr

/-- The engine's view of a state. -/
def engineView (s : State) : EngineView :=
  { params := s.params, busy := s.busy, result := s.result, phase := s.phase, cursor := s.cursor
    carrierBase := s.carrierBase, pixelCount := s.pixelCount, frameBits := s.frameBits, msgLen := s.msgLen
    hdrLen := s.hdrLen, msgPtr := s.msgPtr, framePtr := s.framePtr, op := s.op, opIll := s.opIll
    shift := s.shift, acc := s.acc, msg := s.msg, frame := s.frame, carrier := s.carrier
    ramEpoch := s.ramEpoch, draws := s.draws, rst := s.rst, port := s.port }

/-- What two answers have in common when they are next states with one engine's view, or the same stop. -/
def sameView : Answer → Answer → Prop
  | .next t, .next t' => engineView t = engineView t'
  | .fault f, .fault f' => f = f'
  | .refused r, .refused r' => r = r'
  | _, _ => False

end Sys2Proof.Machine
end

