-- ==== Sys2Proof/Certificates/Slice0/Obligations.lean ====
section
/-!
DEFINITION. The statements for the provers, each from the numbered rules its docstring names.
-/

open Sys2Proof Sys2Proof.Machine

/-! ### Encoding -/

/-- R103: the command is selected by the whole CMD word; a word above 5 is illegal. -/
def Obligations.CmdWordsDecodeByTheOpcodeMap : Prop :=
  ∀ w : Word,
    (decode (.cmd w) = .ok .nop ↔ w.toNat = 0) ∧ (decode (.cmd w) = .ok .pack ↔ w.toNat = 1) ∧
    (decode (.cmd w) = .ok .unpack ↔ w.toNat = 2) ∧ (decode (.cmd w) = .ok .check ↔ w.toNat = 3) ∧
    (decode (.cmd w) = .ok .embed ↔ w.toNat = 4) ∧ (decode (.cmd w) = .ok .extract ↔ w.toNat = 5) ∧
    ((∃ e, decode (.cmd w) = .error e) ↔ 6 ≤ w.toNat)

/-- R102, R103, R104: a few words written out from the encoding. -/
def Obligations.SpecWordsDecodeToTheirInstructions : Prop :=
  decodeTableWord 32 0b00000000000000000000000000000000 = some .nop ∧
  decodeTableWord 32 0b00000000000000000000000000000001 = some .pack ∧
  decodeTableWord 32 0b00000000000000000000000000000010 = some .unpack ∧
  decodeTableWord 32 0b00000000000000000000000000000011 = some .check ∧
  decodeTableWord 32 0b00000000000000000000000000000100 = some .embed ∧
  decodeTableWord 32 0b00000000000000000000000000000101 = some .extract ∧
  decodeTableWord 32 0x00000014 = none ∧ decodeTableWord 32 0x80000001 = none ∧
  decode (.host { dir := .read, offset := 0x0C#8, size := 4, wdata := 0#32 }) = .ok (.rd 0x0C#8 4) ∧
  decode (.host { dir := .write, offset := 0x08#8, size := 4, wdata := 4#32 }) = .ok (.wr 0x08#8 4 4#32)

/-- No bit of an encoding is dropped: decoding the table word of a well-formed instruction gives the instruction, operands and all.
The bit positions of a HOST transaction are the model's choice (notes/assumptions/7.md). -/
def Obligations.TableWordsRoundTrip : Prop :=
  ∀ i : Instr, i.wf = true → decodeTableWord (tableWord i).1 (tableWord i).2 = some i

/-- R55, R104, R121: what acceptance latches is the decoded word, and OPILL is set exactly for an illegal one. -/
def Obligations.LatchedCommandIsTheDecodedWord : Prop :=
  ∀ (w : Word) (s : State),
    latched (accept w s) = (decode (.cmd w)).toOption ∧ ((accept w s).opIll = true ↔ 6 ≤ w.toNat)

/-! ### The command lifecycle -/

/-- R121: a CMD write while BUSY = 0 is accepted, changes what the rule lists and nothing else, and drops IRQ. -/
def Obligations.IdleCmdWriteIsAccepted : Prop :=
  ∀ (w : Word) (s : State), s.rst = false → s.busy = false →
    ∃ t, exec (.wr 0x08#8 4 w) s = .next t ∧ irq t = false ∧
      t = { s with
        op := w.extractLsb' 0 4, opIll := decide (w.extractLsb' 4 28 ≠ 0#28 ∨ 6 ≤ (w.extractLsb' 0 4).toNat)
        busy := true, done := false, result := .pending, phase := .start, cursor := 0, resp := .okay }

/-- R123: a CMD write while BUSY = 1 sets BUSYERR and has no other effect. -/
def Obligations.BusyCmdWriteIsDropped : Prop :=
  ∀ (w : Word) (s : State), s.rst = false → s.busy = true →
    exec (.wr 0x08#8 4 w) s = .next { s with busyErr := true, resp := .okay }

/-- R122, R124: the engine's step runs the latched command (or ends an illegal word), whether it is scheduled or nothing is; while
BUSY = 0 or RST is asserted none is enabled. -/
def Obligations.StepRunsTheLatchedCommand : Prop :=
  ∀ (s : State) (rest : List Input), s.inputs = [] ∧ rest = [] ∨ s.inputs = .engine :: rest →
    (∀ i, Engaged s → latched s = some i → step s = exec i { s with inputs := rest, portLog := [] }) ∧
    (Engaged s → latched s = none → step s = execIllegal { s with inputs := rest, portLog := [] }) ∧
    (¬ Engaged s → step s = .next { s with inputs := rest, portLog := [] })

/-- R101, R97: a scheduled HOST transaction at offset `off` of the window is RD or WR there; one outside the window is not the block's. -/
def Obligations.StepRunsTheHostTransaction : Prop :=
  ∀ (s : State) (rest : List Input) (size : Nat) (w : Word),
    (∀ off : BitVec 8, s.inputs = .bus (s.params.hostBase + off.toNat) .read size w :: rest →
      step s = exec (.rd off size) { s with inputs := rest, portLog := [] }) ∧
    (∀ off : BitVec 8, s.inputs = .bus (s.params.hostBase + off.toNat) .write size w :: rest →
      step s = exec (.wr off size w) { s with inputs := rest, portLog := [] }) ∧
    (∀ (a : Nat) (d : Dir), a < s.params.hostBase ∨ s.params.hostBase + 256 ≤ a → s.inputs = .bus a d size w :: rest →
      step s = .next { s with inputs := rest, portLog := [] })

/-- A placed instruction is the very next step's (notes/assumptions/2.md, notes/assumptions/7.md). -/
def Obligations.PlacedInstructionRunsNext : Prop :=
  ∀ (s : State) (i : Instr), i.wf = true →
    step (s.withFetchWord (tableWord i).1 (tableWord i).2) =
      exec i { s.withFetchWord (tableWord i).1 (tableWord i).2 with inputs := s.inputs, portLog := [] }

/-- R141, R146, R161, R171, R191: what START does once the command's range checks pass. -/
def Obligations.StartContinuations : Prop :=
  ∀ s : State, Engaged s → s.phase = .start →
    (MsgLenLegal s → exec .pack s = .next { s with phase := .pack }) ∧
    (FrameBitsLegal s → exec .unpack s = .next { s with phase := .unpack }) ∧
    (PixelCountLegal s → FrameBitsLegal s → exec .check s = .next { s with phase := .capCheck }) ∧
    (PixelCountLegal s → FrameBitsLegal s → RegionLegal s → exec .embed s = .next { s with phase := .capCheck }) ∧
    (PixelCountLegal s → RegionLegal s → 3 * s.pixelCount.toNat < 32 →
      exec .extract s = .next { s with result := .absent, done := true, busy := false, phase := .idle }) ∧
    (PixelCountLegal s → RegionLegal s → 32 ≤ 3 * s.pixelCount.toNat →
      exec .extract s = .next { s with shift := 0#32, phase := .readHeader })

/-- R125: a command whose range check fails finishes with RANGE and changes nothing but STATUS and PHASE. -/
def Obligations.RangeFailuresAtStart : Prop :=
  ∀ s : State, Engaged s → s.phase = .start → s.cursor = 0 →
    let ranged : Answer := .next { s with result := .range, done := true, busy := false, phase := .idle, cursor := 0 }
    let pixels := s.params.maxPixels < s.pixelCount.toNat
    let bits := 8 * (s.params.msgCap + 4) < s.frameBits.toNat
    let region := 2 ^ s.params.addrW < s.carrierBase.toNat % 2 ^ s.params.addrW + 4 * s.pixelCount.toNat
    (s.params.msgCap < s.msgLen.toNat → exec .pack s = ranged) ∧
    (bits → exec .unpack s = ranged) ∧
    (pixels ∨ bits → exec .check s = ranged) ∧
    (pixels ∨ bits ∨ region → exec .embed s = ranged) ∧
    (pixels ∨ region → exec .extract s = ranged)

/-- R128: NOP's START step finishes OK; STATUS reads 0x02 when no error flag is set. -/
def Obligations.NopFinishesOk : Prop :=
  encode .nop = .cmd 0x00000000#32 ∧
  ∀ s : State, Engaged s → s.phase = .start → s.cursor = 0 →
    ∃ t, exec .nop s = .next t ∧
      t = { s with result := .ok, done := true, busy := false, phase := .idle, cursor := 0 } ∧
      (s.busyErr = false → s.ramErr = false → statusWord t = 0x02#32)

/-- R129: an accepted illegal word finishes BAD_CMD in its START step, with no range check and no memory touched. -/
def Obligations.IllegalWordFinishesBadCmd : Prop :=
  ∀ (w : Word) (s : State), 6 ≤ w.toNat → s.rst = false → s.inputs = [] →
    ∃ t, step (accept w s) = .next t ∧
      t = { accept w s with result := .badCmd, done := true, busy := false, phase := .idle, cursor := 0, portLog := [] } ∧
      (s.busyErr = false → s.ramErr = false → statusWord t = 0x72#32)

/-- R126, R252: a step of any command that ends it raises DONE, and with it IRQ when IE = 1, and leaves the engine idle with a result. -/
def Obligations.FinishRaisesDone : Prop :=
  ∀ (i : Instr) (s t : State), i.isCommand = true → exec i s = .next t → t.busy = false →
    t.done = true ∧ t.phase = .idle ∧ t.result ≠ .pending ∧ irq t = s.ie

/-! ### PACK and UNPACK -/

/-- R9, R142: the PACK step. The frame's bits are the header of L = 8n, MSB first, and then each message byte, MSB first. FRAME_BITS is stated
where 32 + 8n fits its 32 bits: for every n ≤ MSG_CAP of a legal instance (LegalInstancesHoldEveryFrame); at MSG_LEN = 2^29 − 4 it is the
model's free value (DESIGN CHOICE, notes/assumptions/18.md). -/
def Obligations.PackBuildsTheFrame : Prop :=
  ∀ s : State, s.params.wf → Engaged s → s.phase = .pack → MsgLenLegal s →
    ∃ t, exec .pack s = .next t ∧
      (∀ k, k < 4 → (readFrame t k).toNat = 8 * s.msgLen.toNat / 2 ^ (24 - 8 * k) % 256) ∧
      (∀ i, i < s.msgLen.toNat → readFrame t (4 + i) = readMsg s i) ∧
      (∀ j, 4 + s.msgLen.toNat ≤ j → readFrame t j = readFrame s j) ∧
      (∀ i, i < 32 → fbit t i = (8 * s.msgLen.toNat).testBit (31 - i)) ∧
      (∀ i m, i < s.msgLen.toNat → m < 8 → fbit t (32 + 8 * i + m) = (readMsg s i).getLsbD (7 - m)) ∧
      (s.params.legal ∨ 32 + 8 * s.msgLen.toNat < 2 ^ 32 → t.frameBits.toNat = 32 + 8 * s.msgLen.toNat) ∧
      t = { s with
        frame := t.frame, frameBits := t.frameBits, result := .ok, done := true, busy := false, phase := .idle }

/-- R147: the UNPACK step, in its three outcomes. -/
def Obligations.UnpackRecoversTheMessage : Prop :=
  ∀ s : State, s.params.wf → Engaged s → s.phase = .unpack → FrameBitsLegal s →
    let l := (readFrame s 0).toNat * 2 ^ 24 + (readFrame s 1).toNat * 2 ^ 16 + (readFrame s 2).toNat * 2 ^ 8 + (readFrame s 3).toNat
    (s.frameBits.toNat < 32 →
      exec .unpack s = .next { s with result := .short, done := true, busy := false, phase := .idle }) ∧
    (32 ≤ s.frameBits.toNat → s.frameBits.toNat < 32 + l →
      exec .unpack s = .next
        { s with hdrLen := BitVec.ofNat 32 l, result := .short, done := true, busy := false, phase := .idle }) ∧
    (32 + l ≤ s.frameBits.toNat →
      l / 8 ≤ s.params.msgCap ∧ ∃ t, exec .unpack s = .next t ∧
        (∀ j, j < l / 8 → readMsg t j = readFrame s (4 + j)) ∧ (∀ j, l / 8 ≤ j → readMsg t j = readMsg s j) ∧
        t = { s with
          msg := t.msg, msgLen := BitVec.ofNat 32 (l / 8), hdrLen := BitVec.ofNat 32 l, result := .ok, done := true, busy := false
          phase := .idle })

/-- R149, R150: PACK and then UNPACK gives the message back, and FRAME_BITS = 32 + the frame's length after both, which HDR_LEN holds after
UNPACK. PACK leaves the register HDR_LEN (R46), so after PACK R150 speaks of the length in the frame (notes/assumptions/19.md). The premise
that 32 + 8n fits FRAME_BITS holds for every n ≤ MSG_CAP of a legal instance (notes/assumptions/18.md). -/
def Obligations.FramingRoundTrip : Prop :=
  ∀ s : State, s.params.wf → Quiet s → MsgLenLegal s → s.params.legal ∨ 32 + 8 * s.msgLen.toNat < 2 ^ 32 →
    ∃ t u, run 2 (accept 0x1#32 s) = .next t ∧ run 2 (accept 0x2#32 t) = .next u ∧
      CommandEnd t ∧ t.result = .ok ∧ t.frameBits.toNat = 32 + (frameHeader t).toNat ∧ t.hdrLen = s.hdrLen ∧
      CommandEnd u ∧ u.result = .ok ∧ u.msgLen = s.msgLen ∧ u.hdrLen.toNat = 8 * s.msgLen.toNat ∧
      u.frameBits.toNat = 32 + u.hdrLen.toNat ∧ ∀ i, i < s.msgLen.toNat → readMsg u i = readMsg s i

/-- R9: in a legal instance the frame of every message fits FRAME_BITS, the header and FRAME RAM, and the message of every frame that UNPACK
accepts fits MSG RAM. Of the instances R8 admits, only MSG_CAP = 2^29 − 4 is not legal (notes/assumptions/18.md). -/
def Obligations.LegalInstancesHoldEveryFrame : Prop :=
  ∀ p : Params, p.wf →
    (p.legal ↔ p.msgCap ≠ 2 ^ 29 - 4) ∧
    (p.legal → ∀ n, n ≤ p.msgCap → 32 + 8 * n < 2 ^ 32 ∧ (packedFrameBits n).toNat = 32 + 8 * n) ∧
    (∀ n, n ≤ p.msgCap → 8 * n < 2 ^ 32 ∧ 4 + n ≤ p.frameCap ∧ 32 + 8 * n ≤ 8 * p.frameCap) ∧
    (∀ bits l, bits ≤ 8 * p.frameCap → 32 + l ≤ bits → l / 8 ≤ p.msgCap)

/-! ### CHECK and EMBED -/

/-- R162: the CAP_CHECK step when OP = CHECK. -/
def Obligations.CheckComparesWithCapacity : Prop :=
  ∀ s : State, Engaged s → s.phase = .capCheck →
    (s.frameBits.toNat ≤ 3 * s.pixelCount.toNat →
      exec .check s = .next { s with result := .ok, done := true, busy := false, phase := .idle }) ∧
    (3 * s.pixelCount.toNat < s.frameBits.toNat →
      exec .check s = .next { s with result := .capacity, done := true, busy := false, phase := .idle })

/-- R172: the CAP_CHECK step when OP = EMBED; a refused EMBED makes no carrier access. -/
def Obligations.EmbedRefusesWhatDoesNotFit : Prop :=
  ∀ s : State, Engaged s → s.phase = .capCheck →
    (3 * s.pixelCount.toNat < s.frameBits.toNat →
      exec .embed s = .next { s with result := .capacity, done := true, busy := false, phase := .idle }) ∧
    (s.frameBits.toNat = 0 →
      exec .embed s = .next { s with result := .ok, done := true, busy := false, phase := .idle }) ∧
    (0 < s.frameBits.toNat → s.frameBits.toNat ≤ 3 * s.pixelCount.toNat →
      exec .embed s = .next { s with phase := .writeHeader })

/-- R173, R178: the WRITE step handles the bit at CURSOR; a bus error finishes the command. Whether the byte of a failed write is old or
new is the draw of R178, which the model counts in a field of its own (DESIGN CHOICE, notes/assumptions/5.md). -/
def Obligations.WriteStepEmbedsOneBit : Prop :=
  ∀ s : State, Engaged s → s.phase = .writeHeader ∨ s.phase = .writePayload → Embedding s →
    let b := s.cursor
    let a := carrierBaseAddr s + 4 * (b / 3) + b % 3
    let v := (readFrame s (b / 8)).getLsbD (7 - b % 8)
    let y := (readCarrier s a &&& 0xFE#8) ||| (if v then 1#8 else 0#8)
    ∃ t, exec .embed s = .next t ∧ (∀ a', a' ≠ a → readCarrier t a' = readCarrier s a') ∧
      (s.port = .okay → readCarrier t a = y ∧
        t = { s with
          carrier := t.carrier, cursor := b + 1, portLog := s.portLog ++ [.read a, .write a y]
          result := if b + 1 = s.frameBits.toNat then .ok else s.result
          done := if b + 1 = s.frameBits.toNat then true else s.done
          busy := if b + 1 = s.frameBits.toNat then false else true
          phase := if b + 1 = s.frameBits.toNat then .idle else if b + 1 < 32 then .writeHeader else .writePayload }) ∧
      (s.port = .readError →
        t = { s with result := .busError, done := true, busy := false, phase := .idle, portLog := s.portLog ++ [.read a] }) ∧
      (s.port = .writeError → (readCarrier t a = y ∨ readCarrier t a = readCarrier s a) ∧
        t = { s with
          carrier := t.carrier, draws := s.draws + 1, result := .busError, done := true, busy := false, phase := .idle
          portLog := s.portLog ++ [.read a, .write a y] })

/-- R87: the LSB write sets bit 0 and keeps bits [7:1]. -/
def Obligations.LsbWriteKeepsTheHighBits : Prop :=
  ∀ (x : Byte) (v : Bool), replaceLsb x v = (x &&& 0xFE#8) ||| (if v then 1#8 else 0#8) ∧
    (replaceLsb x v).getLsbD 0 = v ∧ ∀ k, 0 < k → k < 8 → (replaceLsb x v).getLsbD k = x.getLsbD k

/-- R178: after b WRITE steps, an error response at bit b ends EMBED at CURSOR = b: the bits below are written, the byte of bit b is old
after a read error and old or new after a write error, and no other byte is touched. -/
def Obligations.EmbedBusErrorIsPrecise : Prop :=
  ∀ (s : State) (b : Nat), Accepted .embed s → PixelCountLegal s → FrameBitsLegal s → RegionLegal s →
    s.frameBits.toNat ≤ cap s → b < s.frameBits.toNat →
    ∃ m, run (2 + b) s = .next m ∧
      ∀ r, r ≠ PortReply.okay →
        ∃ t, step { m with port := r } = .next t ∧ CommandEnd t ∧ t.result = .busError ∧ t.cursor = b ∧
          (∀ c, c < b → readCarrier t (byteAddr s c) = replaceLsb (readCarrier s (byteAddr s c)) (fbit s c)) ∧
          (r = .readError → readCarrier t (byteAddr s b) = readCarrier s (byteAddr s b)) ∧
          (readCarrier t (byteAddr s b) = readCarrier s (byteAddr s b) ∨
            readCarrier t (byteAddr s b) = replaceLsb (readCarrier s (byteAddr s b)) (fbit s b)) ∧
          (∀ a, (∀ c, c ≤ b → a ≠ byteAddr s c) → readCarrier t a = readCarrier s a) ∧
          (∀ e ∈ t.portLog, e.address = byteAddr s b)

/-- R174, R88: an EMBED that finishes OK has written every frame bit into its slot's LSB and changed no other carrier byte. -/
def Obligations.EmbedWritesTheWholeFrame : Prop :=
  ∀ s : State, Accepted .embed s → PixelCountLegal s → FrameBitsLegal s → RegionLegal s → s.frameBits.toNat ≤ cap s →
    ∃ t, run (2 + s.frameBits.toNat) s = .next t ∧ CommandEnd t ∧ t.result = .ok ∧ t.cursor = s.frameBits.toNat ∧
      (∀ b, b < s.frameBits.toNat → readCarrier t (byteAddr s b) = replaceLsb (readCarrier s (byteAddr s b)) (fbit s b)) ∧
      (∀ a, (∀ b, b < s.frameBits.toNat → a ≠ byteAddr s b) → readCarrier t a = readCarrier s a) ∧
      t.msg = s.msg ∧ t.frame = s.frame ∧ t.frameBits = s.frameBits ∧ t.msgLen = s.msgLen ∧ t.hdrLen = s.hdrLen

/-- R76: bit addresses below CAP and channel slots are in bijection, with inverse b = 3p + c; so are their carrier bytes, which lie in the
region and are never an alpha byte. -/
def Obligations.BitAddressesAreABijection : Prop :=
  (∀ (s : State) (b : Nat), b < cap s →
    (bitAddr b).1 < s.pixelCount.toNat ∧ (bitAddr b).2 < 3 ∧ 3 * (bitAddr b).1 + (bitAddr b).2 = b ∧
      inRegion s (byteAddr s b) = true ∧ (byteAddr s b - carrierBaseAddr s) % 4 ≠ 3) ∧
  (∀ (s : State) (p c : Nat), p < s.pixelCount.toNat → c < 3 →
    3 * p + c < cap s ∧ bitAddr (3 * p + c) = (p, c) ∧ byteAddr s (3 * p + c) = carrierBaseAddr s + 4 * p + c) ∧
  (∀ (s : State) (b b' : Nat), byteAddr s b = byteAddr s b' → b = b')

/-- R75, R90, R122, R204: an engine step accesses the carrier only at the byte of the bit at CURSOR, which is below CAP, in the region and
no alpha byte; at most a read and then a write, and a write only for EMBED. -/
def Obligations.EngineAccessesOnlyTheCursorSlot : Prop :=
  ∀ s t : State, Inv s → step s = .next t →
    (∀ e ∈ t.portLog, e.address = byteAddr s s.cursor ∧ s.cursor < cap s ∧ inRegion s e.address = true ∧
      (e.address - carrierBaseAddr s) % 4 ≠ 3 ∧ (e.isWrite = true → latched s = some .embed)) ∧
    (t.portLog = [] ∨ t.portLog = [.read (byteAddr s s.cursor)] ∨
      ∃ v, t.portLog = [.read (byteAddr s s.cursor), .write (byteAddr s s.cursor) v])

/-! ### EXTRACT -/

/-- R192: the READ_HEADER step. -/
def Obligations.ReadHeaderStepShiftsOneBit : Prop :=
  ∀ s : State, Engaged s → s.phase = .readHeader → Extracting s → s.cursor < 32 →
    let b := s.cursor
    let a := carrierBaseAddr s + 4 * (b / 3) + b % 3
    (s.port = .readError → exec .extract s = .next
      { s with result := .busError, done := true, busy := false, phase := .idle, portLog := s.portLog ++ [.read a] }) ∧
    (s.port ≠ .readError →
      ∃ t, exec .extract s = .next t ∧ t.shift.toNat = (2 * s.shift.toNat + (readCarrier s a).toNat % 2) % 2 ^ 32 ∧
        t = { s with
          shift := t.shift, cursor := b + 1, phase := if b + 1 = 32 then .validateLength else .readHeader
          portLog := s.portLog ++ [.read a] })

/-- R193: the VALIDATE_LENGTH step; L is what SHIFT holds. -/
def Obligations.ValidateLengthStepDecides : Prop :=
  ∀ s : State, Engaged s → s.phase = .validateLength →
    let l := s.shift.toNat
    (l = 0 ∨ 3 * s.pixelCount.toNat < 32 + l → exec .extract s = .next
      { s with hdrLen := s.shift, result := .absent, done := true, busy := false, phase := .idle }) ∧
    (0 < l → 32 + l ≤ 3 * s.pixelCount.toNat → s.params.msgCap < l / 8 → exec .extract s = .next
      { s with hdrLen := s.shift, result := .oversize, done := true, busy := false, phase := .idle }) ∧
    (0 < l → 32 + l ≤ 3 * s.pixelCount.toNat → l / 8 ≤ s.params.msgCap → exec .extract s = .next
      { s with hdrLen := s.shift, acc := 0#8, phase := .readPayload })

/-- R195: the READ_PAYLOAD step. -/
def Obligations.ReadPayloadStepTakesOneBit : Prop :=
  ∀ s : State, Engaged s → s.phase = .readPayload → Extracting s → HeaderAccepted s → 32 ≤ s.cursor →
    s.cursor < 32 + s.shift.toNat →
    let b := s.cursor
    let k := b - 32
    let a := carrierBaseAddr s + 4 * (b / 3) + b % 3
    (s.port = .readError → exec .extract s = .next
      { s with result := .busError, done := true, busy := false, phase := .idle, portLog := s.portLog ++ [.read a] }) ∧
    (s.port ≠ .readError →
      ∃ (t : State) (acc1 : Byte), exec .extract s = .next t ∧
        acc1.toNat = (2 * s.acc.toNat + (readCarrier s a).toNat % 2) % 256 ∧
        (∀ j, readMsg t j = if (k + 1) % 8 = 0 ∧ j = (k + 1) / 8 - 1 then acc1 else readMsg s j) ∧
        t = { s with
          cursor := b + 1, acc := if (k + 1) % 8 = 0 then 0#8 else acc1
          msg := if (k + 1) % 8 = 0 then t.msg else s.msg
          phase := if k + 1 = s.shift.toNat then .decode else .readPayload
          portLog := s.portLog ++ [.read a] })

/-- R197: the DECODE step. -/
def Obligations.DecodeStepSetsTheLength : Prop :=
  ∀ s : State, Engaged s → s.phase = .decode →
    ∃ t, exec .extract s = .next t ∧ t.msgLen.toNat = s.shift.toNat / 8 ∧
      t = { s with msgLen := t.msgLen, result := .ok, done := true, busy := false, phase := .idle }

/-- R199: the result of an EXTRACT that finishes OK, as sums over the carrier's bits. -/
def Obligations.ExtractRecoversThePayload : Prop :=
  ∀ s : State, Accepted .extract s → PixelCountLegal s → RegionLegal s →
    0 < carrierHeader s → 32 + carrierHeader s ≤ cap s → carrierHeader s / 8 ≤ s.params.msgCap →
    ∃ t, run (35 + carrierHeader s) s = .next t ∧ CommandEnd t ∧ t.result = .ok ∧
      (∀ j, j < carrierHeader s / 8 → (readMsg t j).toNat = carrierPayloadByte s j) ∧
      t.msgLen.toNat = carrierHeader s / 8 ∧ t.hdrLen.toNat = carrierHeader s ∧ t.cursor = 32 + carrierHeader s ∧
      (∀ j, carrierHeader s / 8 ≤ j → readMsg t j = readMsg s j) ∧
      t.carrier = s.carrier ∧ t.frame = s.frame ∧ t.frameBits = s.frameBits

/-- R194, R196: an invalid header gives ABSENT and a valid one too long for MSG RAM gives OVERSIZE, both after the header alone and with
the outputs unchanged. -/
def Obligations.RejectedHeaderLeavesTheOutputs : Prop :=
  ∀ s : State, Accepted .extract s → PixelCountLegal s → RegionLegal s → 32 ≤ cap s →
    (carrierHeader s = 0 ∨ cap s < 32 + carrierHeader s ∨ s.params.msgCap < carrierHeader s / 8) →
    ∃ t, run 34 s = .next t ∧ CommandEnd t ∧
      t.result = (if carrierHeader s = 0 ∨ cap s < 32 + carrierHeader s then .absent else .oversize) ∧
      t.hdrLen.toNat = carrierHeader s ∧ t.cursor = 32 ∧ t.msg = s.msg ∧ t.msgLen = s.msgLen ∧ t.carrier = s.carrier

/-- R201: an error response at bit b ends EXTRACT at CURSOR = b, with the bytes completed before it in MSG RAM. -/
def Obligations.ExtractBusErrorIsPrecise : Prop :=
  ∀ (s : State) (b : Nat), Accepted .extract s → PixelCountLegal s → RegionLegal s → 32 ≤ cap s →
    (b < 32 ∨ (32 ≤ b ∧ b < 32 + carrierHeader s ∧ 32 + carrierHeader s ≤ cap s ∧ carrierHeader s / 8 ≤ s.params.msgCap)) →
    ∃ m t, run (if b < 32 then 1 + b else 2 + b) s = .next m ∧ step { m with port := .readError } = .next t ∧
      CommandEnd t ∧ t.result = .busError ∧ t.cursor = b ∧
      (b < 32 → t.hdrLen = s.hdrLen) ∧ (32 ≤ b → t.hdrLen.toNat = carrierHeader s) ∧
      (∀ j, j < (b - 32) / 8 → (readMsg t j).toNat = carrierPayloadByte s j) ∧
      t.msgLen = s.msgLen ∧ t.carrier = s.carrier

/-- R89: no step of EXTRACT, in any state, changes the carrier or issues a write on its port. -/
def Obligations.ExtractLeavesTheCarrierAlone : Prop :=
  ∀ s t : State, exec .extract s = .next t →
    (∀ a, readCarrier t a = readCarrier s a) ∧ ∀ e ∈ t.portLog, e ∈ s.portLog ∨ e.isWrite = false

/-- R200: EXTRACT of a carrier gives what UNPACK gives of the frame the carrier holds, where that frame fits FRAME RAM. -/
def Obligations.ExtractEqualsUnpack : Prop :=
  ∀ s u : State, s.params.wf → s.params = u.params → Accepted .extract s → PixelCountLegal s → RegionLegal s →
    0 < carrierHeader s → 32 + carrierHeader s ≤ cap s → carrierHeader s / 8 ≤ s.params.msgCap →
    Accepted .unpack u → FrameBitsLegal u → u.frameBits.toNat = 32 + carrierHeader s →
    (∀ i, i < 32 + carrierHeader s → fbit u i = carrierBit s i) →
    ∃ t v, run (35 + carrierHeader s) s = .next t ∧ run 2 u = .next v ∧ t.result = .ok ∧ v.result = .ok ∧
      t.msgLen = v.msgLen ∧ t.hdrLen = v.hdrLen ∧ ∀ j, j < carrierHeader s / 8 → readMsg t j = readMsg v j

/-- R203: PACK, EMBED and EXTRACT in that order give the message back, or ABSENT for the empty message. -/
def Obligations.ComposedRoundTrip : Prop :=
  ∀ s : State, s.params.wf → Quiet s → MsgLenLegal s → PixelCountLegal s → RegionLegal s →
    32 + 8 * s.msgLen.toNat ≤ cap s →
    ∃ t u v, run 2 (accept 0x1#32 s) = .next t ∧ run (2 + (32 + 8 * s.msgLen.toNat)) (accept 0x4#32 t) = .next u ∧
      run (35 + 8 * s.msgLen.toNat) (accept 0x5#32 u) = .next v ∧ CommandEnd t ∧ CommandEnd u ∧ CommandEnd v ∧
      (s.msgLen.toNat = 0 → v.result = .absent) ∧
      (0 < s.msgLen.toNat → v.result = .ok ∧ v.msgLen = s.msgLen ∧ ∀ i, i < s.msgLen.toNat → readMsg v i = readMsg s i)

/-! ### HOST transactions -/

/-- R221: an ill-formed access gets the error response and changes no state; a read returns 0. No well-formed access gets it. -/
def Obligations.IllFormedAccessGetsTheErrorResponse : Prop :=
  ∀ (off : BitVec 8) (size : Nat) (w : Word) (s : State), s.rst = false →
    (size ≠ 4 ∨ off.toNat % 4 ≠ 0 →
      exec (.rd off size) s = .next { s with rdata := 0#32, resp := .slverr } ∧
      exec (.wr off size w) s = .next { s with resp := .slverr }) ∧
    (size = 4 → off.toNat % 4 = 0 →
      (∃ t, exec (.rd off size) s = .next t ∧ t.resp = .okay) ∧ ∃ t, exec (.wr off size w) s = .next t ∧ t.resp = .okay)

/-- R222: a well-formed read of a register other than a data port has no side effect. -/
def Obligations.PlainReadsHaveNoSideEffect : Prop :=
  ∀ (off : BitVec 8) (s : State), s.rst = false → off.toNat % 4 = 0 → off ≠ 0x30#8 → off ≠ 0x38#8 →
    ∃ v, exec (.rd off 4) s = .next { s with rdata := v, resp := .okay }

/-- R31–R34, R40–R47, R49, R51, R52: the value each register reads, with PHASE by the codes of R58 and RESULT by those of R105.
It says so whatever BUSY is: that HDR_LEN can be read while BUSY = 1, and shows the new L once it is written, is the model's choice (R131
against R220 and R222; DESIGN CHOICE, notes/assumptions/21.md). -/
def Obligations.RegistersReadTheirValues : Prop :=
  ∀ s : State, s.rst = false →
    let reads (off : BitVec 8) (v : Word) : Prop := exec (.rd off 4) s = .next { s with rdata := v, resp := .okay }
    reads 0x00#8 0x4C534231#32 ∧ reads 0x04#8 (if s.ie then 1#32 else 0#32) ∧ reads 0x08#8 0#32 ∧
    reads 0x10#8
      (match s.phase with
        | .idle => 0x0#32 | .start => 0x1#32 | .pack => 0x2#32 | .unpack => 0x3#32 | .capCheck => 0x4#32
        | .writeHeader => 0x5#32 | .writePayload => 0x6#32 | .readHeader => 0x7#32 | .validateLength => 0x8#32
        | .readPayload => 0x9#32 | .decode => 0xA#32) ∧ reads 0x14#8 (BitVec.ofNat 32 s.cursor) ∧
    reads 0x18#8 (BitVec.ofNat 32 (s.carrierBase.toNat % 2 ^ s.params.addrW)) ∧ reads 0x1C#8 s.pixelCount ∧
    reads 0x20#8 s.frameBits ∧ reads 0x24#8 s.msgLen ∧ reads 0x28#8 s.hdrLen ∧ reads 0x2C#8 s.msgPtr ∧
    reads 0x34#8 s.framePtr ∧ reads 0x3C#8 (BitVec.ofNat 32 s.params.msgCap) ∧
    reads 0x40#8 (BitVec.ofNat 32 s.params.maxPixels) ∧ reads 0x0C#8 (statusWord s) ∧
    (statusWord s).getLsbD 0 = s.busy ∧ (statusWord s).getLsbD 1 = s.done ∧ (statusWord s).getLsbD 2 = s.busyErr ∧
    (statusWord s).getLsbD 3 = s.ramErr ∧ (statusWord s).extractLsb' 4 4 =
      (match s.result with
        | .ok => 0x0#4 | .capacity => 0x1#4 | .absent => 0x2#4 | .short => 0x3#4 | .oversize => 0x4#4 | .range => 0x5#4
        | .busError => 0x6#4 | .badCmd => 0x7#4 | .pending => 0xF#4) ∧
    (statusWord s).extractLsb' 8 24 = 0#24

/-- R106: the whole STATUS word at the points of a command's life, with no error flag set: each result code of R105 after a finish, 0xF1
while a command runs, and 0x00 after reset. -/
def Obligations.StatusWordOverACommandsLife : Prop :=
  statusWord State.reset = 0x00#32 ∧
  ∀ s : State, s.busyErr = false → s.ramErr = false →
    statusWord (finish .ok s) = 0x02#32 ∧ statusWord (finish .capacity s) = 0x12#32 ∧
    statusWord (finish .absent s) = 0x22#32 ∧ statusWord (finish .short s) = 0x32#32 ∧
    statusWord (finish .oversize s) = 0x42#32 ∧ statusWord (finish .range s) = 0x52#32 ∧
    statusWord (finish .busError s) = 0x62#32 ∧ statusWord (finish .badCmd s) = 0x72#32 ∧
    (Inv s → s.busy = true → statusWord s = 0xF1#32)

/-- R223, R34: a STATUS write clears the flags whose bits are set, at any time; while BUSY = 1 only BUSYERR and RAMERR can change. -/
def Obligations.StatusWriteClearsFlags : Prop :=
  ∀ (w : Word) (s : State), s.rst = false →
    exec (.wr 0x0C#8 4 w) s = .next
      { s with
        done := s.done && !w.getLsbD 1, busyErr := s.busyErr && !w.getLsbD 2, ramErr := s.ramErr && !w.getLsbD 3
        resp := .okay } ∧
    (Inv s → s.busy = true → exec (.wr 0x0C#8 4 w) s = .next
      { s with busyErr := s.busyErr && !w.getLsbD 2, ramErr := s.ramErr && !w.getLsbD 3, resp := .okay })

/-- R224, R250: a CTRL write sets IE from bit 0 at any time, and IRQ follows. -/
def Obligations.CtrlWriteSetsTheInterruptEnable : Prop :=
  ∀ (w : Word) (s : State), s.rst = false →
    ∃ t, exec (.wr 0x04#8 4 w) s = .next t ∧ t = { s with ie := w.getLsbD 0, resp := .okay } ∧
      irq t = (w.getLsbD 0 && s.done)

/-- R225: a write to a locked register while BUSY = 0 stores the written bits and checks no range. -/
def Obligations.LockedRegisterWritesStore : Prop :=
  ∀ (w : Word) (s : State), s.rst = false → s.busy = false →
    exec (.wr 0x18#8 4 w) s = .next { s with carrierBase := BitVec.ofNat 32 (w.toNat % 2 ^ s.params.addrW), resp := .okay } ∧
    exec (.wr 0x1C#8 4 w) s = .next { s with pixelCount := w, resp := .okay } ∧
    exec (.wr 0x20#8 4 w) s = .next { s with frameBits := w, resp := .okay } ∧
    exec (.wr 0x24#8 4 w) s = .next { s with msgLen := w, resp := .okay } ∧
    exec (.wr 0x2C#8 4 w) s = .next { s with msgPtr := w, resp := .okay } ∧
    exec (.wr 0x34#8 4 w) s = .next { s with framePtr := w, resp := .okay }

/-- R226: the busy lock. -/
def Obligations.BusyLockDropsAccesses : Prop :=
  ∀ (w : Word) (s : State), s.rst = false → s.busy = true →
    (∀ off ∈ [0x18#8, 0x1C#8, 0x20#8, 0x24#8, 0x2C#8, 0x34#8, 0x30#8, 0x38#8],
      exec (.wr off 4 w) s = .next { s with busyErr := true, resp := .okay }) ∧
    (∀ off ∈ [0x30#8, 0x38#8], exec (.rd off 4) s = .next { s with busyErr := true, rdata := 0#32, resp := .okay }) ∧
    (∀ p ∈ [(0x18#8, BitVec.ofNat 32 (carrierBaseAddr s)), (0x1C#8, s.pixelCount), (0x20#8, s.frameBits), (0x24#8, s.msgLen),
        (0x2C#8, s.msgPtr), (0x34#8, s.framePtr)],
      exec (.rd p.1 4) s = .next { s with rdata := p.2, resp := .okay })

/-- R227, R228, R229: the data ports while BUSY = 0. The pointer advances on every access, in range or not. -/
def Obligations.DataPortsMoveOneByte : Prop :=
  ∀ (w : Word) (s : State), s.rst = false → s.busy = false →
    (∃ t, exec (.rd 0x30#8 4) s = .next t ∧
      t.rdata.toNat = (if s.msgPtr.toNat < s.params.msgCap then (readMsg s s.msgPtr.toNat).toNat else 0) ∧
      t.msgPtr.toNat = (s.msgPtr.toNat + 1) % 2 ^ 32 ∧
      t = { s with
        msgPtr := t.msgPtr, rdata := t.rdata, resp := .okay
        ramErr := if s.msgPtr.toNat < s.params.msgCap then s.ramErr else true }) ∧
    (∃ t, exec (.rd 0x38#8 4) s = .next t ∧
      t.rdata.toNat = (if s.framePtr.toNat < s.params.msgCap + 4 then (readFrame s s.framePtr.toNat).toNat else 0) ∧
      t.framePtr.toNat = (s.framePtr.toNat + 1) % 2 ^ 32 ∧
      t = { s with
        framePtr := t.framePtr, rdata := t.rdata, resp := .okay
        ramErr := if s.framePtr.toNat < s.params.msgCap + 4 then s.ramErr else true }) ∧
    (∃ t, exec (.wr 0x30#8 4 w) s = .next t ∧ t.msgPtr.toNat = (s.msgPtr.toNat + 1) % 2 ^ 32 ∧
      (∀ i, readMsg t i = if i = s.msgPtr.toNat ∧ i < s.params.msgCap then w.setWidth 8 else readMsg s i) ∧
      t = { s with
        msg := t.msg, msgPtr := t.msgPtr, resp := .okay
        ramErr := if s.msgPtr.toNat < s.params.msgCap then s.ramErr else true }) ∧
    (∃ t, exec (.wr 0x38#8 4 w) s = .next t ∧ t.framePtr.toNat = (s.framePtr.toNat + 1) % 2 ^ 32 ∧
      (∀ i, readFrame t i = if i = s.framePtr.toNat ∧ i < s.params.msgCap + 4 then w.setWidth 8 else readFrame s i) ∧
      t = { s with
        frame := t.frame, framePtr := t.framePtr, resp := .okay
        ramErr := if s.framePtr.toNat < s.params.msgCap + 4 then s.ramErr else true })

/-- R53 and the RO rows of R30: reserved offsets read 0, and writes to them and to read-only registers change nothing. -/
def Obligations.ReservedAndReadOnlyOffsets : Prop :=
  ∀ (off : BitVec 8) (w : Word) (s : State), s.rst = false → off.toNat % 4 = 0 →
    (0x44 ≤ off.toNat → exec (.rd off 4) s = .next { s with rdata := 0#32, resp := .okay }) ∧
    (0x44 ≤ off.toNat ∨ off ∈ [0x00#8, 0x10#8, 0x14#8, 0x28#8, 0x3C#8, 0x40#8] →
      exec (.wr off 4 w) s = .next { s with resp := .okay })

/-! ### Interrupt, flags and cursor over every step -/

/-- R251: once asserted, IRQ deasserts in a step exactly when the step is a STATUS write clearing DONE, a CMD write (which is then
accepted), a CTRL write with IE = 0, or a reset. -/
def Obligations.OnlyHostAndResetDropIrq : Prop :=
  ∀ s t : State, (s.busy = true → s.done = false) → step s = .next t → irq s = true →
    (irq t = false ↔
      (∃ w, HostWrites s 0x0C#8 w ∧ w.getLsbD 1 = true) ∨ (∃ w, HostWrites s 0x08#8 w) ∨
      (∃ w, HostWrites s 0x04#8 w ∧ w.getLsbD 0 = false) ∨ ResetEvent s)

/-- R37, R38: only a host write of 1 to its STATUS bit, or reset, clears a sticky error flag. -/
def Obligations.ErrorFlagsAreSticky : Prop :=
  ∀ s t : State, step s = .next t →
    (s.busyErr = true → (t.busyErr = false ↔ (∃ w, HostWrites s 0x0C#8 w ∧ w.getLsbD 2 = true) ∨ ResetEvent s)) ∧
    (s.ramErr = true → (t.ramErr = false ↔ (∃ w, HostWrites s 0x0C#8 w ∧ w.getLsbD 3 = true) ∨ ResetEvent s))

/-- R41, R121, R62: acceptance and reset set CURSOR to 0, a channel bit that EMBED or EXTRACT has accessed without a bus error moves it by
exactly 1, and every other step leaves it. A completed bit is a read and a write of its byte for EMBED, a read for EXTRACT.
That CURSOR is 0 already at the assertion of RST, where R62 gives its value after the deassertion, is the model's choice (DESIGN CHOICE,
notes/assumptions/12.md). -/
def Obligations.CursorCountsChannelBits : Prop :=
  ∀ s t : State, step s = .next t →
    (CommandAccepted s → t.cursor = 0) ∧ (ResetEvent s → t.cursor = 0) ∧ (BitCompleted s t → t.cursor = s.cursor + 1) ∧
    (¬ CommandAccepted s → ¬ ResetEvent s → ¬ BitCompleted s t → t.cursor = s.cursor) ∧
    (BitCompleted s t → Engaged s ∧
      ((latched s = some .embed ∧ ∃ v, t.portLog = [.read (byteAddr s s.cursor), .write (byteAddr s s.cursor) v]) ∨
       (latched s = some .extract ∧ t.portLog = [.read (byteAddr s s.cursor)])))

/-! ### Reset -/

/-- R270, R62: when RST is deasserted every register and hidden field holds its reset value, the engine is idle, IRQ is 0 and the carrier
is untouched. The RAM bytes are the draws of notes/assumptions/3.md, whatever they are. An event that gives RST the level it has is no
edge and changes nothing (DESIGN CHOICE, notes/assumptions/12.md). -/
def Obligations.ResetGivesTheResetValues : Prop :=
  ∀ (s : State) (rest : List Input),
    (s.inputs = .reset false :: rest → s.rst = true →
      ∃ t, step s = .next t ∧ t.rst = false ∧ irq t = false ∧
        t.ie = false ∧ t.busy = false ∧ t.done = false ∧ t.busyErr = false ∧ t.ramErr = false ∧ t.result.code = 0x0#4 ∧
        t.phase.code = 0x0#4 ∧ t.cursor = 0 ∧ t.carrierBase = 0#32 ∧ t.pixelCount = 0#32 ∧ t.frameBits = 0#32 ∧
        t.msgLen = 0#32 ∧ t.hdrLen = 0#32 ∧ t.msgPtr = 0#32 ∧ t.framePtr = 0#32 ∧ t.op = 0#4 ∧ t.opIll = false ∧
        t.shift = 0#32 ∧ t.acc = 0#8 ∧ t.params = s.params ∧ ∀ a, readCarrier t a = readCarrier s a) ∧
    (s.inputs = .reset s.rst :: rest → step s = .next { s with inputs := rest, portLog := [] })

/-- R271, R272: asserting RST abandons the command with no finish and leaves the carrier alone, but for the byte of an EMBED write in
flight, which holds its old or its new value. THE MODEL'S CHOICE (DESIGN CHOICE and DEDUCED, notes/assumptions/12.md): that BUSY, DONE,
PHASE and IRQ hold their reset values already at the assertion, where R270 gives them at the deassertion, and that the byte in flight is
the one at CURSOR. -/
def Obligations.ResetAbandonsTheCommand : Prop :=
  ∀ (s : State) (rest : List Input), s.inputs = .reset true :: rest → s.rst = false →
    ∃ t, step s = .next t ∧ t.rst = true ∧ t.busy = false ∧ t.done = false ∧ t.phase = .idle ∧ irq t = false ∧
      ∀ a, readCarrier t a = readCarrier s a ∨
        (Engaged s ∧ latched s = some .embed ∧ (s.phase = .writeHeader ∨ s.phase = .writePayload) ∧ a = byteAddr s s.cursor ∧
          readCarrier t a = replaceLsb (readCarrier s a) (fbit s s.cursor))

/-- R276: a HOST transaction while RST is asserted gets no step. -/
def Obligations.HostTransactionsInResetAreStuck : Prop :=
  ∀ (off : BitVec 8) (size : Nat) (w : Word) (s : State), s.rst = true →
    exec (.rd off size) s = .fault .stuckInReset ∧ exec (.wr off size w) s = .fault .stuckInReset

/-! ### The carrier between agents -/

/-- R92, R230, R284: while a command runs, a direct access of the carrier region by another agent is the hazard, and a fault, whichever
path it takes; but a read during EXTRACT is allowed by R284 and sees the carrier (how the rules fit together is the reading of
notes/assumptions/10.md; BUSY is this block's, notes/assumptions/22.md; the write-back is notes/assumptions/6.md). -/
def Obligations.CarrierRaceFaults : Prop :=
  ∀ (s : State) (a : Nat) (v : Byte) (via : Via) (rest : List Input), s.busy = true →
    carrierBaseAddr s ≤ a → a < carrierBaseAddr s + 4 * s.pixelCount.toNat → a < 2 ^ s.params.addrW →
    (s.inputs = .carrierWrite a v via :: rest → step s = .fault .carrierRace) ∧
    (s.inputs = .hostCache a .writeBack :: rest → s.params.coherent = false → Memory.get? s.hostWrites a ≠ none →
      step s = .fault .carrierRace) ∧
    (s.inputs = .carrierRead a via :: rest → latched s ≠ some .extract → step s = .fault .carrierRace) ∧
    (s.inputs = .carrierRead a via :: rest → latched s = some .extract →
      ∃ t, step s = .next t ∧ t.hostByte = seenVia via s a ∧
        (s.params.coherent = true ∨ via = .port → t.hostByte = readCarrier s a) ∧
        t = { s with
          inputs := rest, portLog := [], hostByte := t.hostByte
          hostCached := if via = .maintained then Memory.erase s.hostCached a else s.hostCached })

/-- R92, R230, R91, R96: while BUSY = 0 a direct carrier access is an ordinary memory access. On a coherent platform, and for an agent on the
carrier port's side, that memory is the carrier. On an incoherent one the host reads what it wrote last, whatever maintenance it skips and
whatever the platform moves; its write reaches the carrier with maintenance or when it is written back, and its copy hides nothing but
writes of others, until it is discarded. The host's copies as two lists and their moves as events are the model's choice (DESIGN CHOICE,
notes/assumptions/6.md). -/
def Obligations.HostCarrierAccessIsOrdinaryMemory : Prop :=
  ∀ (s : State) (a : Nat) (rest : List Input), s.busy = false → a < 2 ^ s.params.addrW →
    (∀ via, s.inputs = .carrierRead a via :: rest →
      ∃ t, step s = .next t ∧
        (s.params.coherent = true ∨ via = .port → t.hostByte = readCarrier s a) ∧
        (via = .cached → t.hostByte = seenVia .cached s a) ∧
        (via = .maintained → CopyFresh s a → t.hostByte = seenVia .cached s a) ∧
        (via = .maintained → Memory.get? s.hostWrites a = none → t.hostByte = readCarrier s a) ∧
        (∀ a', CopyFresh s a' → seenVia .cached t a' = seenVia .cached s a') ∧
        t = { s with inputs := rest, portLog := [], hostByte := t.hostByte, hostCached := t.hostCached }) ∧
    (∀ v via, s.inputs = .carrierWrite a v via :: rest →
      ∃ t, step s = .next t ∧
        (s.params.coherent = true ∨ via ≠ .port → seenVia .cached t a = v ∧ CopyFresh t a) ∧
        (∀ a', a' ≠ a → seenVia .cached t a' = seenVia .cached s a') ∧
        (s.params.coherent = true ∨ via ≠ .cached → readCarrier t a = v) ∧
        (s.params.coherent = false → via = .cached → readCarrier t a = readCarrier s a) ∧
        (∀ a', a' ≠ a → readCarrier t a' = readCarrier s a') ∧
        t = { s with
          inputs := rest, portLog := [], carrier := t.carrier, hostWrites := t.hostWrites, hostCached := t.hostCached }) ∧
    (∀ move, s.inputs = .hostCache a move :: rest →
      ∃ t, step s = .next t ∧
        (∀ a', CopyFresh s a' → CopyFresh t a' ∧ seenVia .cached t a' = seenVia .cached s a') ∧
        (∀ v, s.params.coherent = false → move = .writeBack → Memory.get? s.hostWrites a = some v → readCarrier t a = v) ∧
        (∀ a', a' ≠ a ∨ move ≠ .writeBack → readCarrier t a' = readCarrier s a') ∧
        t = { s with
          inputs := rest, portLog := [], carrier := t.carrier, hostWrites := t.hostWrites, hostCached := t.hostCached })

/-! ### Invariant, progress and non-interference -/

/-- The state after reset meets the invariant. -/
def Obligations.ResetStateMeetsTheInvariant : Prop := Inv State.reset

/-- R36, R39, R40, R60, R71 and the range checks: every step of every agent keeps the invariant. -/
def Obligations.EveryStepKeepsTheInvariant : Prop :=
  ∀ s t : State, Inv s → step s = .next t → Inv t

/-- R13, R122, R242: in a state that meets the invariant a running command always has its engine step, and the only stops are the hazard,
a HOST transaction in reset, and an event that names no carrier byte. -/
def Obligations.RunningCommandsNeverGetStuck : Prop :=
  ∀ s : State, Inv s →
    (∀ i, Engaged s → latched s = some i → ∃ t, exec i s = .next t) ∧
    (∀ f, step s = .fault f → f = .carrierRace ∨ (f = .stuckInReset ∧ s.rst = true)) ∧
    (∀ r, step s = .refused r → r = .noSuchCarrierByte)

/-- R127: every accepted command finishes within its bound of engine steps, whatever the operands, the carrier and its port answer. -/
def Obligations.CommandsFinishWithinTheStepBound : Prop :=
  ∀ s : State, Engaged s → s.phase = .start → s.cursor = 0 → s.inputs = [] →
    ∃ k t, k ≤ stepBound s ∧ run k s = .next t ∧ CommandEnd t

/-- R54, R130: no HOST transaction changes what a running command reads or writes, and what the engine's step does depends on nothing
else. -/
def Obligations.HostAccessesCannotDisturbACommand : Prop :=
  (∀ s t : State, s.busy = true →
    (∀ off size, exec (.rd off size) s = .next t → engineView t = engineView s) ∧
    (∀ off size w, exec (.wr off size w) s = .next t → engineView t = engineView s)) ∧
  (∀ s s' : State, engineView s = engineView s' → sameView (engineStep s) (engineStep s'))

/-- R107: the frames. Whatever an instruction's form, a next state differs from the old one only in what the rule lists for it. -/
def Obligations.InstructionsChangeOnlyTheirOutputs : Prop :=
  ∀ s t : State,
    (exec .nop s = .next t ∨ exec .check s = .next t →
      t = { s with result := t.result, done := t.done, busy := t.busy, phase := t.phase }) ∧
    (exec .pack s = .next t →
      (∀ j, 4 + s.msgLen.toNat ≤ j → readFrame t j = readFrame s j) ∧
      t = { s with
        frame := t.frame, frameBits := t.frameBits, result := t.result, done := t.done, busy := t.busy, phase := t.phase }) ∧
    (exec .unpack s = .next t →
      (∀ j, (frameHeader s).toNat / 8 ≤ j → readMsg t j = readMsg s j) ∧
      t = { s with
        msg := t.msg, msgLen := t.msgLen, hdrLen := t.hdrLen, result := t.result, done := t.done, busy := t.busy
        phase := t.phase }) ∧
    (exec .embed s = .next t →
      (∀ a, a ≠ byteAddr s s.cursor → readCarrier t a = readCarrier s a) ∧
      t = { s with
        carrier := t.carrier, cursor := t.cursor, draws := t.draws, portLog := t.portLog, result := t.result
        done := t.done, busy := t.busy, phase := t.phase }) ∧
    (exec .extract s = .next t →
      (∀ j, j ≠ (s.cursor - 32 + 1) / 8 - 1 → readMsg t j = readMsg s j) ∧
      t = { s with
        msg := t.msg, msgLen := t.msgLen, hdrLen := t.hdrLen, shift := t.shift, acc := t.acc, cursor := t.cursor
        portLog := t.portLog, result := t.result, done := t.done, busy := t.busy, phase := t.phase }) ∧
    (∀ off size, exec (.rd off size) s = .next t →
      t = { s with
        busyErr := t.busyErr, ramErr := t.ramErr, msgPtr := t.msgPtr, framePtr := t.framePtr, rdata := t.rdata
        resp := t.resp }) ∧
    (∀ off size w, exec (.wr off size w) s = .next t →
      (∀ j, off ≠ 0x30#8 ∨ j ≠ s.msgPtr.toNat → readMsg t j = readMsg s j) ∧
      (∀ j, off ≠ 0x38#8 ∨ j ≠ s.framePtr.toNat → readFrame t j = readFrame s j) ∧
      t = { s with
        ie := t.ie, busy := t.busy, done := t.done, busyErr := t.busyErr, ramErr := t.ramErr, result := t.result
        phase := t.phase, cursor := t.cursor, carrierBase := t.carrierBase, pixelCount := t.pixelCount
        frameBits := t.frameBits, msgLen := t.msgLen, msgPtr := t.msgPtr, framePtr := t.framePtr, op := t.op
        opIll := t.opIll, msg := t.msg, frame := t.frame, resp := t.resp })
end

