-- ==== Sys2Proof/Laws/State.lean ====
section
/-!
SUPPORT. One lemma per field per update of the state, each true by rfl, so that no later proof unfolds a record update.
-/

namespace Sys2Proof.Machine

section -- writeMsg
variable (i : Nat) (v : Byte) (s : State)
@[simp] theorem writeMsg_params : (writeMsg i v s).params = s.params := rfl
@[simp] theorem writeMsg_ie : (writeMsg i v s).ie = s.ie := rfl
@[simp] theorem writeMsg_busy : (writeMsg i v s).busy = s.busy := rfl
@[simp] theorem writeMsg_done : (writeMsg i v s).done = s.done := rfl
@[simp] theorem writeMsg_busyErr : (writeMsg i v s).busyErr = s.busyErr := rfl
@[simp] theorem writeMsg_ramErr : (writeMsg i v s).ramErr = s.ramErr := rfl
@[simp] theorem writeMsg_result : (writeMsg i v s).result = s.result := rfl
@[simp] theorem writeMsg_phase : (writeMsg i v s).phase = s.phase := rfl
@[simp] theorem writeMsg_cursor : (writeMsg i v s).cursor = s.cursor := rfl
@[simp] theorem writeMsg_carrierBase : (writeMsg i v s).carrierBase = s.carrierBase := rfl
@[simp] theorem writeMsg_pixelCount : (writeMsg i v s).pixelCount = s.pixelCount := rfl
@[simp] theorem writeMsg_frameBits : (writeMsg i v s).frameBits = s.frameBits := rfl
@[simp] theorem writeMsg_msgLen : (writeMsg i v s).msgLen = s.msgLen := rfl
@[simp] theorem writeMsg_hdrLen : (writeMsg i v s).hdrLen = s.hdrLen := rfl
@[simp] theorem writeMsg_msgPtr : (writeMsg i v s).msgPtr = s.msgPtr := rfl
@[simp] theorem writeMsg_framePtr : (writeMsg i v s).framePtr = s.framePtr := rfl
@[simp] theorem writeMsg_op : (writeMsg i v s).op = s.op := rfl
@[simp] theorem writeMsg_opIll : (writeMsg i v s).opIll = s.opIll := rfl
@[simp] theorem writeMsg_shift : (writeMsg i v s).shift = s.shift := rfl
@[simp] theorem writeMsg_acc : (writeMsg i v s).acc = s.acc := rfl
@[simp] theorem writeMsg_msg : (writeMsg i v s).msg = Memory.set s.msg i v := rfl
@[simp] theorem writeMsg_frame : (writeMsg i v s).frame = s.frame := rfl
@[simp] theorem writeMsg_carrier : (writeMsg i v s).carrier = s.carrier := rfl
@[simp] theorem writeMsg_hostWrites : (writeMsg i v s).hostWrites = s.hostWrites := rfl
@[simp] theorem writeMsg_hostCached : (writeMsg i v s).hostCached = s.hostCached := rfl
@[simp] theorem writeMsg_ramEpoch : (writeMsg i v s).ramEpoch = s.ramEpoch := rfl
@[simp] theorem writeMsg_draws : (writeMsg i v s).draws = s.draws := rfl
@[simp] theorem writeMsg_rst : (writeMsg i v s).rst = s.rst := rfl
@[simp] theorem writeMsg_port : (writeMsg i v s).port = s.port := rfl
@[simp] theorem writeMsg_inputs : (writeMsg i v s).inputs = s.inputs := rfl
@[simp] theorem writeMsg_rdata : (writeMsg i v s).rdata = s.rdata := rfl
@[simp] theorem writeMsg_resp : (writeMsg i v s).resp = s.resp := rfl
@[simp] theorem writeMsg_hostByte : (writeMsg i v s).hostByte = s.hostByte := rfl
@[simp] theorem writeMsg_portLog : (writeMsg i v s).portLog = s.portLog := rfl
end

section -- writeFrame
variable (i : Nat) (v : Byte) (s : State)
@[simp] theorem writeFrame_params : (writeFrame i v s).params = s.params := rfl
@[simp] theorem writeFrame_ie : (writeFrame i v s).ie = s.ie := rfl
@[simp] theorem writeFrame_busy : (writeFrame i v s).busy = s.busy := rfl
@[simp] theorem writeFrame_done : (writeFrame i v s).done = s.done := rfl
@[simp] theorem writeFrame_busyErr : (writeFrame i v s).busyErr = s.busyErr := rfl
@[simp] theorem writeFrame_ramErr : (writeFrame i v s).ramErr = s.ramErr := rfl
@[simp] theorem writeFrame_result : (writeFrame i v s).result = s.result := rfl
@[simp] theorem writeFrame_phase : (writeFrame i v s).phase = s.phase := rfl
@[simp] theorem writeFrame_cursor : (writeFrame i v s).cursor = s.cursor := rfl
@[simp] theorem writeFrame_carrierBase : (writeFrame i v s).carrierBase = s.carrierBase := rfl
@[simp] theorem writeFrame_pixelCount : (writeFrame i v s).pixelCount = s.pixelCount := rfl
@[simp] theorem writeFrame_frameBits : (writeFrame i v s).frameBits = s.frameBits := rfl
@[simp] theorem writeFrame_msgLen : (writeFrame i v s).msgLen = s.msgLen := rfl
@[simp] theorem writeFrame_hdrLen : (writeFrame i v s).hdrLen = s.hdrLen := rfl
@[simp] theorem writeFrame_msgPtr : (writeFrame i v s).msgPtr = s.msgPtr := rfl
@[simp] theorem writeFrame_framePtr : (writeFrame i v s).framePtr = s.framePtr := rfl
@[simp] theorem writeFrame_op : (writeFrame i v s).op = s.op := rfl
@[simp] theorem writeFrame_opIll : (writeFrame i v s).opIll = s.opIll := rfl
@[simp] theorem writeFrame_shift : (writeFrame i v s).shift = s.shift := rfl
@[simp] theorem writeFrame_acc : (writeFrame i v s).acc = s.acc := rfl
@[simp] theorem writeFrame_msg : (writeFrame i v s).msg = s.msg := rfl
@[simp] theorem writeFrame_frame : (writeFrame i v s).frame = Memory.set s.frame i v := rfl
@[simp] theorem writeFrame_carrier : (writeFrame i v s).carrier = s.carrier := rfl
@[simp] theorem writeFrame_hostWrites : (writeFrame i v s).hostWrites = s.hostWrites := rfl
@[simp] theorem writeFrame_hostCached : (writeFrame i v s).hostCached = s.hostCached := rfl
@[simp] theorem writeFrame_ramEpoch : (writeFrame i v s).ramEpoch = s.ramEpoch := rfl
@[simp] theorem writeFrame_draws : (writeFrame i v s).draws = s.draws := rfl
@[simp] theorem writeFrame_rst : (writeFrame i v s).rst = s.rst := rfl
@[simp] theorem writeFrame_port : (writeFrame i v s).port = s.port := rfl
@[simp] theorem writeFrame_inputs : (writeFrame i v s).inputs = s.inputs := rfl
@[simp] theorem writeFrame_rdata : (writeFrame i v s).rdata = s.rdata := rfl
@[simp] theorem writeFrame_resp : (writeFrame i v s).resp = s.resp := rfl
@[simp] theorem writeFrame_hostByte : (writeFrame i v s).hostByte = s.hostByte := rfl
@[simp] theorem writeFrame_portLog : (writeFrame i v s).portLog = s.portLog := rfl
end

section -- writeCarrier
variable (a : Nat) (v : Byte) (s : State)
@[simp] theorem writeCarrier_params : (writeCarrier a v s).params = s.params := rfl
@[simp] theorem writeCarrier_ie : (writeCarrier a v s).ie = s.ie := rfl
@[simp] theorem writeCarrier_busy : (writeCarrier a v s).busy = s.busy := rfl
@[simp] theorem writeCarrier_done : (writeCarrier a v s).done = s.done := rfl
@[simp] theorem writeCarrier_busyErr : (writeCarrier a v s).busyErr = s.busyErr := rfl
@[simp] theorem writeCarrier_ramErr : (writeCarrier a v s).ramErr = s.ramErr := rfl
@[simp] theorem writeCarrier_result : (writeCarrier a v s).result = s.result := rfl
@[simp] theorem writeCarrier_phase : (writeCarrier a v s).phase = s.phase := rfl
@[simp] theorem writeCarrier_cursor : (writeCarrier a v s).cursor = s.cursor := rfl
@[simp] theorem writeCarrier_carrierBase : (writeCarrier a v s).carrierBase = s.carrierBase := rfl
@[simp] theorem writeCarrier_pixelCount : (writeCarrier a v s).pixelCount = s.pixelCount := rfl
@[simp] theorem writeCarrier_frameBits : (writeCarrier a v s).frameBits = s.frameBits := rfl
@[simp] theorem writeCarrier_msgLen : (writeCarrier a v s).msgLen = s.msgLen := rfl
@[simp] theorem writeCarrier_hdrLen : (writeCarrier a v s).hdrLen = s.hdrLen := rfl
@[simp] theorem writeCarrier_msgPtr : (writeCarrier a v s).msgPtr = s.msgPtr := rfl
@[simp] theorem writeCarrier_framePtr : (writeCarrier a v s).framePtr = s.framePtr := rfl
@[simp] theorem writeCarrier_op : (writeCarrier a v s).op = s.op := rfl
@[simp] theorem writeCarrier_opIll : (writeCarrier a v s).opIll = s.opIll := rfl
@[simp] theorem writeCarrier_shift : (writeCarrier a v s).shift = s.shift := rfl
@[simp] theorem writeCarrier_acc : (writeCarrier a v s).acc = s.acc := rfl
@[simp] theorem writeCarrier_msg : (writeCarrier a v s).msg = s.msg := rfl
@[simp] theorem writeCarrier_frame : (writeCarrier a v s).frame = s.frame := rfl
@[simp] theorem writeCarrier_carrier : (writeCarrier a v s).carrier = Memory.set s.carrier a v := rfl
@[simp] theorem writeCarrier_hostWrites : (writeCarrier a v s).hostWrites = s.hostWrites := rfl
@[simp] theorem writeCarrier_hostCached : (writeCarrier a v s).hostCached = s.hostCached := rfl
@[simp] theorem writeCarrier_ramEpoch : (writeCarrier a v s).ramEpoch = s.ramEpoch := rfl
@[simp] theorem writeCarrier_draws : (writeCarrier a v s).draws = s.draws := rfl
@[simp] theorem writeCarrier_rst : (writeCarrier a v s).rst = s.rst := rfl
@[simp] theorem writeCarrier_port : (writeCarrier a v s).port = s.port := rfl
@[simp] theorem writeCarrier_inputs : (writeCarrier a v s).inputs = s.inputs := rfl
@[simp] theorem writeCarrier_rdata : (writeCarrier a v s).rdata = s.rdata := rfl
@[simp] theorem writeCarrier_resp : (writeCarrier a v s).resp = s.resp := rfl
@[simp] theorem writeCarrier_hostByte : (writeCarrier a v s).hostByte = s.hostByte := rfl
@[simp] theorem writeCarrier_portLog : (writeCarrier a v s).portLog = s.portLog := rfl
end

section -- discardCopy
variable (a : Nat) (s : State)
@[simp] theorem discardCopy_params : (discardCopy a s).params = s.params := rfl
@[simp] theorem discardCopy_ie : (discardCopy a s).ie = s.ie := rfl
@[simp] theorem discardCopy_busy : (discardCopy a s).busy = s.busy := rfl
@[simp] theorem discardCopy_done : (discardCopy a s).done = s.done := rfl
@[simp] theorem discardCopy_busyErr : (discardCopy a s).busyErr = s.busyErr := rfl
@[simp] theorem discardCopy_ramErr : (discardCopy a s).ramErr = s.ramErr := rfl
@[simp] theorem discardCopy_result : (discardCopy a s).result = s.result := rfl
@[simp] theorem discardCopy_phase : (discardCopy a s).phase = s.phase := rfl
@[simp] theorem discardCopy_cursor : (discardCopy a s).cursor = s.cursor := rfl
@[simp] theorem discardCopy_carrierBase : (discardCopy a s).carrierBase = s.carrierBase := rfl
@[simp] theorem discardCopy_pixelCount : (discardCopy a s).pixelCount = s.pixelCount := rfl
@[simp] theorem discardCopy_frameBits : (discardCopy a s).frameBits = s.frameBits := rfl
@[simp] theorem discardCopy_msgLen : (discardCopy a s).msgLen = s.msgLen := rfl
@[simp] theorem discardCopy_hdrLen : (discardCopy a s).hdrLen = s.hdrLen := rfl
@[simp] theorem discardCopy_msgPtr : (discardCopy a s).msgPtr = s.msgPtr := rfl
@[simp] theorem discardCopy_framePtr : (discardCopy a s).framePtr = s.framePtr := rfl
@[simp] theorem discardCopy_op : (discardCopy a s).op = s.op := rfl
@[simp] theorem discardCopy_opIll : (discardCopy a s).opIll = s.opIll := rfl
@[simp] theorem discardCopy_shift : (discardCopy a s).shift = s.shift := rfl
@[simp] theorem discardCopy_acc : (discardCopy a s).acc = s.acc := rfl
@[simp] theorem discardCopy_msg : (discardCopy a s).msg = s.msg := rfl
@[simp] theorem discardCopy_frame : (discardCopy a s).frame = s.frame := rfl
@[simp] theorem discardCopy_carrier : (discardCopy a s).carrier = s.carrier := rfl
@[simp] theorem discardCopy_hostWrites : (discardCopy a s).hostWrites = s.hostWrites := rfl
@[simp] theorem discardCopy_hostCached : (discardCopy a s).hostCached = Memory.erase s.hostCached a := rfl
@[simp] theorem discardCopy_ramEpoch : (discardCopy a s).ramEpoch = s.ramEpoch := rfl
@[simp] theorem discardCopy_draws : (discardCopy a s).draws = s.draws := rfl
@[simp] theorem discardCopy_rst : (discardCopy a s).rst = s.rst := rfl
@[simp] theorem discardCopy_port : (discardCopy a s).port = s.port := rfl
@[simp] theorem discardCopy_inputs : (discardCopy a s).inputs = s.inputs := rfl
@[simp] theorem discardCopy_rdata : (discardCopy a s).rdata = s.rdata := rfl
@[simp] theorem discardCopy_resp : (discardCopy a s).resp = s.resp := rfl
@[simp] theorem discardCopy_hostByte : (discardCopy a s).hostByte = s.hostByte := rfl
@[simp] theorem discardCopy_portLog : (discardCopy a s).portLog = s.portLog := rfl
end

section -- fillCopy
variable (a : Nat) (s : State)
@[simp] theorem fillCopy_params : (fillCopy a s).params = s.params := rfl
@[simp] theorem fillCopy_ie : (fillCopy a s).ie = s.ie := rfl
@[simp] theorem fillCopy_busy : (fillCopy a s).busy = s.busy := rfl
@[simp] theorem fillCopy_done : (fillCopy a s).done = s.done := rfl
@[simp] theorem fillCopy_busyErr : (fillCopy a s).busyErr = s.busyErr := rfl
@[simp] theorem fillCopy_ramErr : (fillCopy a s).ramErr = s.ramErr := rfl
@[simp] theorem fillCopy_result : (fillCopy a s).result = s.result := rfl
@[simp] theorem fillCopy_phase : (fillCopy a s).phase = s.phase := rfl
@[simp] theorem fillCopy_cursor : (fillCopy a s).cursor = s.cursor := rfl
@[simp] theorem fillCopy_carrierBase : (fillCopy a s).carrierBase = s.carrierBase := rfl
@[simp] theorem fillCopy_pixelCount : (fillCopy a s).pixelCount = s.pixelCount := rfl
@[simp] theorem fillCopy_frameBits : (fillCopy a s).frameBits = s.frameBits := rfl
@[simp] theorem fillCopy_msgLen : (fillCopy a s).msgLen = s.msgLen := rfl
@[simp] theorem fillCopy_hdrLen : (fillCopy a s).hdrLen = s.hdrLen := rfl
@[simp] theorem fillCopy_msgPtr : (fillCopy a s).msgPtr = s.msgPtr := rfl
@[simp] theorem fillCopy_framePtr : (fillCopy a s).framePtr = s.framePtr := rfl
@[simp] theorem fillCopy_op : (fillCopy a s).op = s.op := rfl
@[simp] theorem fillCopy_opIll : (fillCopy a s).opIll = s.opIll := rfl
@[simp] theorem fillCopy_shift : (fillCopy a s).shift = s.shift := rfl
@[simp] theorem fillCopy_acc : (fillCopy a s).acc = s.acc := rfl
@[simp] theorem fillCopy_msg : (fillCopy a s).msg = s.msg := rfl
@[simp] theorem fillCopy_frame : (fillCopy a s).frame = s.frame := rfl
@[simp] theorem fillCopy_carrier : (fillCopy a s).carrier = s.carrier := rfl
@[simp] theorem fillCopy_hostWrites : (fillCopy a s).hostWrites = s.hostWrites := rfl
@[simp] theorem fillCopy_hostCached : (fillCopy a s).hostCached = Memory.set s.hostCached a (readCarrier s a) := rfl
@[simp] theorem fillCopy_ramEpoch : (fillCopy a s).ramEpoch = s.ramEpoch := rfl
@[simp] theorem fillCopy_draws : (fillCopy a s).draws = s.draws := rfl
@[simp] theorem fillCopy_rst : (fillCopy a s).rst = s.rst := rfl
@[simp] theorem fillCopy_port : (fillCopy a s).port = s.port := rfl
@[simp] theorem fillCopy_inputs : (fillCopy a s).inputs = s.inputs := rfl
@[simp] theorem fillCopy_rdata : (fillCopy a s).rdata = s.rdata := rfl
@[simp] theorem fillCopy_resp : (fillCopy a s).resp = s.resp := rfl
@[simp] theorem fillCopy_hostByte : (fillCopy a s).hostByte = s.hostByte := rfl
@[simp] theorem fillCopy_portLog : (fillCopy a s).portLog = s.portLog := rfl
end

section -- holdHostWrite
variable (a : Nat) (v : Byte) (s : State)
@[simp] theorem holdHostWrite_params : (holdHostWrite a v s).params = s.params := rfl
@[simp] theorem holdHostWrite_ie : (holdHostWrite a v s).ie = s.ie := rfl
@[simp] theorem holdHostWrite_busy : (holdHostWrite a v s).busy = s.busy := rfl
@[simp] theorem holdHostWrite_done : (holdHostWrite a v s).done = s.done := rfl
@[simp] theorem holdHostWrite_busyErr : (holdHostWrite a v s).busyErr = s.busyErr := rfl
@[simp] theorem holdHostWrite_ramErr : (holdHostWrite a v s).ramErr = s.ramErr := rfl
@[simp] theorem holdHostWrite_result : (holdHostWrite a v s).result = s.result := rfl
@[simp] theorem holdHostWrite_phase : (holdHostWrite a v s).phase = s.phase := rfl
@[simp] theorem holdHostWrite_cursor : (holdHostWrite a v s).cursor = s.cursor := rfl
@[simp] theorem holdHostWrite_carrierBase : (holdHostWrite a v s).carrierBase = s.carrierBase := rfl
@[simp] theorem holdHostWrite_pixelCount : (holdHostWrite a v s).pixelCount = s.pixelCount := rfl
@[simp] theorem holdHostWrite_frameBits : (holdHostWrite a v s).frameBits = s.frameBits := rfl
@[simp] theorem holdHostWrite_msgLen : (holdHostWrite a v s).msgLen = s.msgLen := rfl
@[simp] theorem holdHostWrite_hdrLen : (holdHostWrite a v s).hdrLen = s.hdrLen := rfl
@[simp] theorem holdHostWrite_msgPtr : (holdHostWrite a v s).msgPtr = s.msgPtr := rfl
@[simp] theorem holdHostWrite_framePtr : (holdHostWrite a v s).framePtr = s.framePtr := rfl
@[simp] theorem holdHostWrite_op : (holdHostWrite a v s).op = s.op := rfl
@[simp] theorem holdHostWrite_opIll : (holdHostWrite a v s).opIll = s.opIll := rfl
@[simp] theorem holdHostWrite_shift : (holdHostWrite a v s).shift = s.shift := rfl
@[simp] theorem holdHostWrite_acc : (holdHostWrite a v s).acc = s.acc := rfl
@[simp] theorem holdHostWrite_msg : (holdHostWrite a v s).msg = s.msg := rfl
@[simp] theorem holdHostWrite_frame : (holdHostWrite a v s).frame = s.frame := rfl
@[simp] theorem holdHostWrite_carrier : (holdHostWrite a v s).carrier = s.carrier := rfl
@[simp] theorem holdHostWrite_hostWrites : (holdHostWrite a v s).hostWrites = Memory.set s.hostWrites a v := rfl
@[simp] theorem holdHostWrite_hostCached : (holdHostWrite a v s).hostCached = Memory.erase s.hostCached a := rfl
@[simp] theorem holdHostWrite_ramEpoch : (holdHostWrite a v s).ramEpoch = s.ramEpoch := rfl
@[simp] theorem holdHostWrite_draws : (holdHostWrite a v s).draws = s.draws := rfl
@[simp] theorem holdHostWrite_rst : (holdHostWrite a v s).rst = s.rst := rfl
@[simp] theorem holdHostWrite_port : (holdHostWrite a v s).port = s.port := rfl
@[simp] theorem holdHostWrite_inputs : (holdHostWrite a v s).inputs = s.inputs := rfl
@[simp] theorem holdHostWrite_rdata : (holdHostWrite a v s).rdata = s.rdata := rfl
@[simp] theorem holdHostWrite_resp : (holdHostWrite a v s).resp = s.resp := rfl
@[simp] theorem holdHostWrite_hostByte : (holdHostWrite a v s).hostByte = s.hostByte := rfl
@[simp] theorem holdHostWrite_portLog : (holdHostWrite a v s).portLog = s.portLog := rfl
end

section -- writeThrough
variable (a : Nat) (v : Byte) (s : State)
@[simp] theorem writeThrough_params : (writeThrough a v s).params = s.params := rfl
@[simp] theorem writeThrough_ie : (writeThrough a v s).ie = s.ie := rfl
@[simp] theorem writeThrough_busy : (writeThrough a v s).busy = s.busy := rfl
@[simp] theorem writeThrough_done : (writeThrough a v s).done = s.done := rfl
@[simp] theorem writeThrough_busyErr : (writeThrough a v s).busyErr = s.busyErr := rfl
@[simp] theorem writeThrough_ramErr : (writeThrough a v s).ramErr = s.ramErr := rfl
@[simp] theorem writeThrough_result : (writeThrough a v s).result = s.result := rfl
@[simp] theorem writeThrough_phase : (writeThrough a v s).phase = s.phase := rfl
@[simp] theorem writeThrough_cursor : (writeThrough a v s).cursor = s.cursor := rfl
@[simp] theorem writeThrough_carrierBase : (writeThrough a v s).carrierBase = s.carrierBase := rfl
@[simp] theorem writeThrough_pixelCount : (writeThrough a v s).pixelCount = s.pixelCount := rfl
@[simp] theorem writeThrough_frameBits : (writeThrough a v s).frameBits = s.frameBits := rfl
@[simp] theorem writeThrough_msgLen : (writeThrough a v s).msgLen = s.msgLen := rfl
@[simp] theorem writeThrough_hdrLen : (writeThrough a v s).hdrLen = s.hdrLen := rfl
@[simp] theorem writeThrough_msgPtr : (writeThrough a v s).msgPtr = s.msgPtr := rfl
@[simp] theorem writeThrough_framePtr : (writeThrough a v s).framePtr = s.framePtr := rfl
@[simp] theorem writeThrough_op : (writeThrough a v s).op = s.op := rfl
@[simp] theorem writeThrough_opIll : (writeThrough a v s).opIll = s.opIll := rfl
@[simp] theorem writeThrough_shift : (writeThrough a v s).shift = s.shift := rfl
@[simp] theorem writeThrough_acc : (writeThrough a v s).acc = s.acc := rfl
@[simp] theorem writeThrough_msg : (writeThrough a v s).msg = s.msg := rfl
@[simp] theorem writeThrough_frame : (writeThrough a v s).frame = s.frame := rfl
@[simp] theorem writeThrough_carrier : (writeThrough a v s).carrier = Memory.set s.carrier a v := rfl
@[simp] theorem writeThrough_hostWrites : (writeThrough a v s).hostWrites = Memory.erase s.hostWrites a := rfl
@[simp] theorem writeThrough_hostCached : (writeThrough a v s).hostCached = Memory.erase s.hostCached a := rfl
@[simp] theorem writeThrough_ramEpoch : (writeThrough a v s).ramEpoch = s.ramEpoch := rfl
@[simp] theorem writeThrough_draws : (writeThrough a v s).draws = s.draws := rfl
@[simp] theorem writeThrough_rst : (writeThrough a v s).rst = s.rst := rfl
@[simp] theorem writeThrough_port : (writeThrough a v s).port = s.port := rfl
@[simp] theorem writeThrough_inputs : (writeThrough a v s).inputs = s.inputs := rfl
@[simp] theorem writeThrough_rdata : (writeThrough a v s).rdata = s.rdata := rfl
@[simp] theorem writeThrough_resp : (writeThrough a v s).resp = s.resp := rfl
@[simp] theorem writeThrough_hostByte : (writeThrough a v s).hostByte = s.hostByte := rfl
@[simp] theorem writeThrough_portLog : (writeThrough a v s).portLog = s.portLog := rfl
end

section -- logAccess
variable (e : Access) (s : State)
@[simp] theorem logAccess_params : (logAccess e s).params = s.params := rfl
@[simp] theorem logAccess_ie : (logAccess e s).ie = s.ie := rfl
@[simp] theorem logAccess_busy : (logAccess e s).busy = s.busy := rfl
@[simp] theorem logAccess_done : (logAccess e s).done = s.done := rfl
@[simp] theorem logAccess_busyErr : (logAccess e s).busyErr = s.busyErr := rfl
@[simp] theorem logAccess_ramErr : (logAccess e s).ramErr = s.ramErr := rfl
@[simp] theorem logAccess_result : (logAccess e s).result = s.result := rfl
@[simp] theorem logAccess_phase : (logAccess e s).phase = s.phase := rfl
@[simp] theorem logAccess_cursor : (logAccess e s).cursor = s.cursor := rfl
@[simp] theorem logAccess_carrierBase : (logAccess e s).carrierBase = s.carrierBase := rfl
@[simp] theorem logAccess_pixelCount : (logAccess e s).pixelCount = s.pixelCount := rfl
@[simp] theorem logAccess_frameBits : (logAccess e s).frameBits = s.frameBits := rfl
@[simp] theorem logAccess_msgLen : (logAccess e s).msgLen = s.msgLen := rfl
@[simp] theorem logAccess_hdrLen : (logAccess e s).hdrLen = s.hdrLen := rfl
@[simp] theorem logAccess_msgPtr : (logAccess e s).msgPtr = s.msgPtr := rfl
@[simp] theorem logAccess_framePtr : (logAccess e s).framePtr = s.framePtr := rfl
@[simp] theorem logAccess_op : (logAccess e s).op = s.op := rfl
@[simp] theorem logAccess_opIll : (logAccess e s).opIll = s.opIll := rfl
@[simp] theorem logAccess_shift : (logAccess e s).shift = s.shift := rfl
@[simp] theorem logAccess_acc : (logAccess e s).acc = s.acc := rfl
@[simp] theorem logAccess_msg : (logAccess e s).msg = s.msg := rfl
@[simp] theorem logAccess_frame : (logAccess e s).frame = s.frame := rfl
@[simp] theorem logAccess_carrier : (logAccess e s).carrier = s.carrier := rfl
@[simp] theorem logAccess_hostWrites : (logAccess e s).hostWrites = s.hostWrites := rfl
@[simp] theorem logAccess_hostCached : (logAccess e s).hostCached = s.hostCached := rfl
@[simp] theorem logAccess_ramEpoch : (logAccess e s).ramEpoch = s.ramEpoch := rfl
@[simp] theorem logAccess_draws : (logAccess e s).draws = s.draws := rfl
@[simp] theorem logAccess_rst : (logAccess e s).rst = s.rst := rfl
@[simp] theorem logAccess_port : (logAccess e s).port = s.port := rfl
@[simp] theorem logAccess_inputs : (logAccess e s).inputs = s.inputs := rfl
@[simp] theorem logAccess_rdata : (logAccess e s).rdata = s.rdata := rfl
@[simp] theorem logAccess_resp : (logAccess e s).resp = s.resp := rfl
@[simp] theorem logAccess_hostByte : (logAccess e s).hostByte = s.hostByte := rfl
@[simp] theorem logAccess_portLog : (logAccess e s).portLog = s.portLog ++ [e] := rfl
end

section -- writeCarrierDrawn
variable (a : Nat) (v : Byte) (s : State)
@[simp] theorem writeCarrierDrawn_params : (writeCarrierDrawn a v s).params = s.params := rfl
@[simp] theorem writeCarrierDrawn_ie : (writeCarrierDrawn a v s).ie = s.ie := rfl
@[simp] theorem writeCarrierDrawn_busy : (writeCarrierDrawn a v s).busy = s.busy := rfl
@[simp] theorem writeCarrierDrawn_done : (writeCarrierDrawn a v s).done = s.done := rfl
@[simp] theorem writeCarrierDrawn_busyErr : (writeCarrierDrawn a v s).busyErr = s.busyErr := rfl
@[simp] theorem writeCarrierDrawn_ramErr : (writeCarrierDrawn a v s).ramErr = s.ramErr := rfl
@[simp] theorem writeCarrierDrawn_result : (writeCarrierDrawn a v s).result = s.result := rfl
@[simp] theorem writeCarrierDrawn_phase : (writeCarrierDrawn a v s).phase = s.phase := rfl
@[simp] theorem writeCarrierDrawn_cursor : (writeCarrierDrawn a v s).cursor = s.cursor := rfl
@[simp] theorem writeCarrierDrawn_carrierBase : (writeCarrierDrawn a v s).carrierBase = s.carrierBase := rfl
@[simp] theorem writeCarrierDrawn_pixelCount : (writeCarrierDrawn a v s).pixelCount = s.pixelCount := rfl
@[simp] theorem writeCarrierDrawn_frameBits : (writeCarrierDrawn a v s).frameBits = s.frameBits := rfl
@[simp] theorem writeCarrierDrawn_msgLen : (writeCarrierDrawn a v s).msgLen = s.msgLen := rfl
@[simp] theorem writeCarrierDrawn_hdrLen : (writeCarrierDrawn a v s).hdrLen = s.hdrLen := rfl
@[simp] theorem writeCarrierDrawn_msgPtr : (writeCarrierDrawn a v s).msgPtr = s.msgPtr := rfl
@[simp] theorem writeCarrierDrawn_framePtr : (writeCarrierDrawn a v s).framePtr = s.framePtr := rfl
@[simp] theorem writeCarrierDrawn_op : (writeCarrierDrawn a v s).op = s.op := rfl
@[simp] theorem writeCarrierDrawn_opIll : (writeCarrierDrawn a v s).opIll = s.opIll := rfl
@[simp] theorem writeCarrierDrawn_shift : (writeCarrierDrawn a v s).shift = s.shift := rfl
@[simp] theorem writeCarrierDrawn_acc : (writeCarrierDrawn a v s).acc = s.acc := rfl
@[simp] theorem writeCarrierDrawn_msg : (writeCarrierDrawn a v s).msg = s.msg := rfl
@[simp] theorem writeCarrierDrawn_frame : (writeCarrierDrawn a v s).frame = s.frame := rfl
@[simp] theorem writeCarrierDrawn_carrier : (writeCarrierDrawn a v s).carrier = Memory.set s.carrier a (if Config.writeLands s.draws then v else readCarrier s a) := rfl
@[simp] theorem writeCarrierDrawn_hostWrites : (writeCarrierDrawn a v s).hostWrites = s.hostWrites := rfl
@[simp] theorem writeCarrierDrawn_hostCached : (writeCarrierDrawn a v s).hostCached = s.hostCached := rfl
@[simp] theorem writeCarrierDrawn_ramEpoch : (writeCarrierDrawn a v s).ramEpoch = s.ramEpoch := rfl
@[simp] theorem writeCarrierDrawn_draws : (writeCarrierDrawn a v s).draws = s.draws + 1 := rfl
@[simp] theorem writeCarrierDrawn_rst : (writeCarrierDrawn a v s).rst = s.rst := rfl
@[simp] theorem writeCarrierDrawn_port : (writeCarrierDrawn a v s).port = s.port := rfl
@[simp] theorem writeCarrierDrawn_inputs : (writeCarrierDrawn a v s).inputs = s.inputs := rfl
@[simp] theorem writeCarrierDrawn_rdata : (writeCarrierDrawn a v s).rdata = s.rdata := rfl
@[simp] theorem writeCarrierDrawn_resp : (writeCarrierDrawn a v s).resp = s.resp := rfl
@[simp] theorem writeCarrierDrawn_hostByte : (writeCarrierDrawn a v s).hostByte = s.hostByte := rfl
@[simp] theorem writeCarrierDrawn_portLog : (writeCarrierDrawn a v s).portLog = s.portLog := rfl
end

section -- accept
variable (w : Word) (s : State)
@[simp] theorem accept_params : (accept w s).params = s.params := rfl
@[simp] theorem accept_ie : (accept w s).ie = s.ie := rfl
@[simp] theorem accept_busy : (accept w s).busy = true := rfl
@[simp] theorem accept_done : (accept w s).done = false := rfl
@[simp] theorem accept_busyErr : (accept w s).busyErr = s.busyErr := rfl
@[simp] theorem accept_ramErr : (accept w s).ramErr = s.ramErr := rfl
@[simp] theorem accept_result : (accept w s).result = .pending := rfl
@[simp] theorem accept_phase : (accept w s).phase = .start := rfl
@[simp] theorem accept_cursor : (accept w s).cursor = 0 := rfl
@[simp] theorem accept_carrierBase : (accept w s).carrierBase = s.carrierBase := rfl
@[simp] theorem accept_pixelCount : (accept w s).pixelCount = s.pixelCount := rfl
@[simp] theorem accept_frameBits : (accept w s).frameBits = s.frameBits := rfl
@[simp] theorem accept_msgLen : (accept w s).msgLen = s.msgLen := rfl
@[simp] theorem accept_hdrLen : (accept w s).hdrLen = s.hdrLen := rfl
@[simp] theorem accept_msgPtr : (accept w s).msgPtr = s.msgPtr := rfl
@[simp] theorem accept_framePtr : (accept w s).framePtr = s.framePtr := rfl
@[simp] theorem accept_op : (accept w s).op = cmdOpcode w := rfl
@[simp] theorem accept_opIll : (accept w s).opIll = cmdIllegal w := rfl
@[simp] theorem accept_shift : (accept w s).shift = s.shift := rfl
@[simp] theorem accept_acc : (accept w s).acc = s.acc := rfl
@[simp] theorem accept_msg : (accept w s).msg = s.msg := rfl
@[simp] theorem accept_frame : (accept w s).frame = s.frame := rfl
@[simp] theorem accept_carrier : (accept w s).carrier = s.carrier := rfl
@[simp] theorem accept_hostWrites : (accept w s).hostWrites = s.hostWrites := rfl
@[simp] theorem accept_hostCached : (accept w s).hostCached = s.hostCached := rfl
@[simp] theorem accept_ramEpoch : (accept w s).ramEpoch = s.ramEpoch := rfl
@[simp] theorem accept_draws : (accept w s).draws = s.draws := rfl
@[simp] theorem accept_rst : (accept w s).rst = s.rst := rfl
@[simp] theorem accept_port : (accept w s).port = s.port := rfl
@[simp] theorem accept_inputs : (accept w s).inputs = s.inputs := rfl
@[simp] theorem accept_rdata : (accept w s).rdata = s.rdata := rfl
@[simp] theorem accept_resp : (accept w s).resp = s.resp := rfl
@[simp] theorem accept_hostByte : (accept w s).hostByte = s.hostByte := rfl
@[simp] theorem accept_portLog : (accept w s).portLog = s.portLog := rfl
end

section -- finish
variable (code : Result) (s : State)
@[simp] theorem finish_params : (finish code s).params = s.params := rfl
@[simp] theorem finish_ie : (finish code s).ie = s.ie := rfl
@[simp] theorem finish_busy : (finish code s).busy = false := rfl
@[simp] theorem finish_done : (finish code s).done = true := rfl
@[simp] theorem finish_busyErr : (finish code s).busyErr = s.busyErr := rfl
@[simp] theorem finish_ramErr : (finish code s).ramErr = s.ramErr := rfl
@[simp] theorem finish_result : (finish code s).result = code := rfl
@[simp] theorem finish_phase : (finish code s).phase = .idle := rfl
@[simp] theorem finish_cursor : (finish code s).cursor = s.cursor := rfl
@[simp] theorem finish_carrierBase : (finish code s).carrierBase = s.carrierBase := rfl
@[simp] theorem finish_pixelCount : (finish code s).pixelCount = s.pixelCount := rfl
@[simp] theorem finish_frameBits : (finish code s).frameBits = s.frameBits := rfl
@[simp] theorem finish_msgLen : (finish code s).msgLen = s.msgLen := rfl
@[simp] theorem finish_hdrLen : (finish code s).hdrLen = s.hdrLen := rfl
@[simp] theorem finish_msgPtr : (finish code s).msgPtr = s.msgPtr := rfl
@[simp] theorem finish_framePtr : (finish code s).framePtr = s.framePtr := rfl
@[simp] theorem finish_op : (finish code s).op = s.op := rfl
@[simp] theorem finish_opIll : (finish code s).opIll = s.opIll := rfl
@[simp] theorem finish_shift : (finish code s).shift = s.shift := rfl
@[simp] theorem finish_acc : (finish code s).acc = s.acc := rfl
@[simp] theorem finish_msg : (finish code s).msg = s.msg := rfl
@[simp] theorem finish_frame : (finish code s).frame = s.frame := rfl
@[simp] theorem finish_carrier : (finish code s).carrier = s.carrier := rfl
@[simp] theorem finish_hostWrites : (finish code s).hostWrites = s.hostWrites := rfl
@[simp] theorem finish_hostCached : (finish code s).hostCached = s.hostCached := rfl
@[simp] theorem finish_ramEpoch : (finish code s).ramEpoch = s.ramEpoch := rfl
@[simp] theorem finish_draws : (finish code s).draws = s.draws := rfl
@[simp] theorem finish_rst : (finish code s).rst = s.rst := rfl
@[simp] theorem finish_port : (finish code s).port = s.port := rfl
@[simp] theorem finish_inputs : (finish code s).inputs = s.inputs := rfl
@[simp] theorem finish_rdata : (finish code s).rdata = s.rdata := rfl
@[simp] theorem finish_resp : (finish code s).resp = s.resp := rfl
@[simp] theorem finish_hostByte : (finish code s).hostByte = s.hostByte := rfl
@[simp] theorem finish_portLog : (finish code s).portLog = s.portLog := rfl
end

section -- acknowledge
variable (clear : Bool) (s : State)
@[simp] theorem acknowledge_params : (acknowledge clear s).params = s.params := rfl
@[simp] theorem acknowledge_ie : (acknowledge clear s).ie = s.ie := rfl
@[simp] theorem acknowledge_busy : (acknowledge clear s).busy = s.busy := rfl
@[simp] theorem acknowledge_done : (acknowledge clear s).done = (s.done && !clear) := rfl
@[simp] theorem acknowledge_busyErr : (acknowledge clear s).busyErr = s.busyErr := rfl
@[simp] theorem acknowledge_ramErr : (acknowledge clear s).ramErr = s.ramErr := rfl
@[simp] theorem acknowledge_result : (acknowledge clear s).result = s.result := rfl
@[simp] theorem acknowledge_phase : (acknowledge clear s).phase = s.phase := rfl
@[simp] theorem acknowledge_cursor : (acknowledge clear s).cursor = s.cursor := rfl
@[simp] theorem acknowledge_carrierBase : (acknowledge clear s).carrierBase = s.carrierBase := rfl
@[simp] theorem acknowledge_pixelCount : (acknowledge clear s).pixelCount = s.pixelCount := rfl
@[simp] theorem acknowledge_frameBits : (acknowledge clear s).frameBits = s.frameBits := rfl
@[simp] theorem acknowledge_msgLen : (acknowledge clear s).msgLen = s.msgLen := rfl
@[simp] theorem acknowledge_hdrLen : (acknowledge clear s).hdrLen = s.hdrLen := rfl
@[simp] theorem acknowledge_msgPtr : (acknowledge clear s).msgPtr = s.msgPtr := rfl
@[simp] theorem acknowledge_framePtr : (acknowledge clear s).framePtr = s.framePtr := rfl
@[simp] theorem acknowledge_op : (acknowledge clear s).op = s.op := rfl
@[simp] theorem acknowledge_opIll : (acknowledge clear s).opIll = s.opIll := rfl
@[simp] theorem acknowledge_shift : (acknowledge clear s).shift = s.shift := rfl
@[simp] theorem acknowledge_acc : (acknowledge clear s).acc = s.acc := rfl
@[simp] theorem acknowledge_msg : (acknowledge clear s).msg = s.msg := rfl
@[simp] theorem acknowledge_frame : (acknowledge clear s).frame = s.frame := rfl
@[simp] theorem acknowledge_carrier : (acknowledge clear s).carrier = s.carrier := rfl
@[simp] theorem acknowledge_hostWrites : (acknowledge clear s).hostWrites = s.hostWrites := rfl
@[simp] theorem acknowledge_hostCached : (acknowledge clear s).hostCached = s.hostCached := rfl
@[simp] theorem acknowledge_ramEpoch : (acknowledge clear s).ramEpoch = s.ramEpoch := rfl
@[simp] theorem acknowledge_draws : (acknowledge clear s).draws = s.draws := rfl
@[simp] theorem acknowledge_rst : (acknowledge clear s).rst = s.rst := rfl
@[simp] theorem acknowledge_port : (acknowledge clear s).port = s.port := rfl
@[simp] theorem acknowledge_inputs : (acknowledge clear s).inputs = s.inputs := rfl
@[simp] theorem acknowledge_rdata : (acknowledge clear s).rdata = s.rdata := rfl
@[simp] theorem acknowledge_resp : (acknowledge clear s).resp = s.resp := rfl
@[simp] theorem acknowledge_hostByte : (acknowledge clear s).hostByte = s.hostByte := rfl
@[simp] theorem acknowledge_portLog : (acknowledge clear s).portLog = s.portLog := rfl
end

section -- enterPhase
variable (p : Phase) (s : State)
@[simp] theorem enterPhase_params : (enterPhase p s).params = s.params := rfl
@[simp] theorem enterPhase_ie : (enterPhase p s).ie = s.ie := rfl
@[simp] theorem enterPhase_busy : (enterPhase p s).busy = s.busy := rfl
@[simp] theorem enterPhase_done : (enterPhase p s).done = s.done := rfl
@[simp] theorem enterPhase_busyErr : (enterPhase p s).busyErr = s.busyErr := rfl
@[simp] theorem enterPhase_ramErr : (enterPhase p s).ramErr = s.ramErr := rfl
@[simp] theorem enterPhase_result : (enterPhase p s).result = s.result := rfl
@[simp] theorem enterPhase_phase : (enterPhase p s).phase = p := rfl
@[simp] theorem enterPhase_cursor : (enterPhase p s).cursor = s.cursor := rfl
@[simp] theorem enterPhase_carrierBase : (enterPhase p s).carrierBase = s.carrierBase := rfl
@[simp] theorem enterPhase_pixelCount : (enterPhase p s).pixelCount = s.pixelCount := rfl
@[simp] theorem enterPhase_frameBits : (enterPhase p s).frameBits = s.frameBits := rfl
@[simp] theorem enterPhase_msgLen : (enterPhase p s).msgLen = s.msgLen := rfl
@[simp] theorem enterPhase_hdrLen : (enterPhase p s).hdrLen = s.hdrLen := rfl
@[simp] theorem enterPhase_msgPtr : (enterPhase p s).msgPtr = s.msgPtr := rfl
@[simp] theorem enterPhase_framePtr : (enterPhase p s).framePtr = s.framePtr := rfl
@[simp] theorem enterPhase_op : (enterPhase p s).op = s.op := rfl
@[simp] theorem enterPhase_opIll : (enterPhase p s).opIll = s.opIll := rfl
@[simp] theorem enterPhase_shift : (enterPhase p s).shift = s.shift := rfl
@[simp] theorem enterPhase_acc : (enterPhase p s).acc = s.acc := rfl
@[simp] theorem enterPhase_msg : (enterPhase p s).msg = s.msg := rfl
@[simp] theorem enterPhase_frame : (enterPhase p s).frame = s.frame := rfl
@[simp] theorem enterPhase_carrier : (enterPhase p s).carrier = s.carrier := rfl
@[simp] theorem enterPhase_hostWrites : (enterPhase p s).hostWrites = s.hostWrites := rfl
@[simp] theorem enterPhase_hostCached : (enterPhase p s).hostCached = s.hostCached := rfl
@[simp] theorem enterPhase_ramEpoch : (enterPhase p s).ramEpoch = s.ramEpoch := rfl
@[simp] theorem enterPhase_draws : (enterPhase p s).draws = s.draws := rfl
@[simp] theorem enterPhase_rst : (enterPhase p s).rst = s.rst := rfl
@[simp] theorem enterPhase_port : (enterPhase p s).port = s.port := rfl
@[simp] theorem enterPhase_inputs : (enterPhase p s).inputs = s.inputs := rfl
@[simp] theorem enterPhase_rdata : (enterPhase p s).rdata = s.rdata := rfl
@[simp] theorem enterPhase_resp : (enterPhase p s).resp = s.resp := rfl
@[simp] theorem enterPhase_hostByte : (enterPhase p s).hostByte = s.hostByte := rfl
@[simp] theorem enterPhase_portLog : (enterPhase p s).portLog = s.portLog := rfl
end

section -- advanceCursor
variable (s : State)
@[simp] theorem advanceCursor_params : (advanceCursor s).params = s.params := rfl
@[simp] theorem advanceCursor_ie : (advanceCursor s).ie = s.ie := rfl
@[simp] theorem advanceCursor_busy : (advanceCursor s).busy = s.busy := rfl
@[simp] theorem advanceCursor_done : (advanceCursor s).done = s.done := rfl
@[simp] theorem advanceCursor_busyErr : (advanceCursor s).busyErr = s.busyErr := rfl
@[simp] theorem advanceCursor_ramErr : (advanceCursor s).ramErr = s.ramErr := rfl
@[simp] theorem advanceCursor_result : (advanceCursor s).result = s.result := rfl
@[simp] theorem advanceCursor_phase : (advanceCursor s).phase = s.phase := rfl
@[simp] theorem advanceCursor_cursor : (advanceCursor s).cursor = s.cursor + 1 := rfl
@[simp] theorem advanceCursor_carrierBase : (advanceCursor s).carrierBase = s.carrierBase := rfl
@[simp] theorem advanceCursor_pixelCount : (advanceCursor s).pixelCount = s.pixelCount := rfl
@[simp] theorem advanceCursor_frameBits : (advanceCursor s).frameBits = s.frameBits := rfl
@[simp] theorem advanceCursor_msgLen : (advanceCursor s).msgLen = s.msgLen := rfl
@[simp] theorem advanceCursor_hdrLen : (advanceCursor s).hdrLen = s.hdrLen := rfl
@[simp] theorem advanceCursor_msgPtr : (advanceCursor s).msgPtr = s.msgPtr := rfl
@[simp] theorem advanceCursor_framePtr : (advanceCursor s).framePtr = s.framePtr := rfl
@[simp] theorem advanceCursor_op : (advanceCursor s).op = s.op := rfl
@[simp] theorem advanceCursor_opIll : (advanceCursor s).opIll = s.opIll := rfl
@[simp] theorem advanceCursor_shift : (advanceCursor s).shift = s.shift := rfl
@[simp] theorem advanceCursor_acc : (advanceCursor s).acc = s.acc := rfl
@[simp] theorem advanceCursor_msg : (advanceCursor s).msg = s.msg := rfl
@[simp] theorem advanceCursor_frame : (advanceCursor s).frame = s.frame := rfl
@[simp] theorem advanceCursor_carrier : (advanceCursor s).carrier = s.carrier := rfl
@[simp] theorem advanceCursor_hostWrites : (advanceCursor s).hostWrites = s.hostWrites := rfl
@[simp] theorem advanceCursor_hostCached : (advanceCursor s).hostCached = s.hostCached := rfl
@[simp] theorem advanceCursor_ramEpoch : (advanceCursor s).ramEpoch = s.ramEpoch := rfl
@[simp] theorem advanceCursor_draws : (advanceCursor s).draws = s.draws := rfl
@[simp] theorem advanceCursor_rst : (advanceCursor s).rst = s.rst := rfl
@[simp] theorem advanceCursor_port : (advanceCursor s).port = s.port := rfl
@[simp] theorem advanceCursor_inputs : (advanceCursor s).inputs = s.inputs := rfl
@[simp] theorem advanceCursor_rdata : (advanceCursor s).rdata = s.rdata := rfl
@[simp] theorem advanceCursor_resp : (advanceCursor s).resp = s.resp := rfl
@[simp] theorem advanceCursor_hostByte : (advanceCursor s).hostByte = s.hostByte := rfl
@[simp] theorem advanceCursor_portLog : (advanceCursor s).portLog = s.portLog := rfl
end

section -- advanceMsgPtr
variable (s : State)
@[simp] theorem advanceMsgPtr_params : (advanceMsgPtr s).params = s.params := rfl
@[simp] theorem advanceMsgPtr_ie : (advanceMsgPtr s).ie = s.ie := rfl
@[simp] theorem advanceMsgPtr_busy : (advanceMsgPtr s).busy = s.busy := rfl
@[simp] theorem advanceMsgPtr_done : (advanceMsgPtr s).done = s.done := rfl
@[simp] theorem advanceMsgPtr_busyErr : (advanceMsgPtr s).busyErr = s.busyErr := rfl
@[simp] theorem advanceMsgPtr_ramErr : (advanceMsgPtr s).ramErr = s.ramErr := rfl
@[simp] theorem advanceMsgPtr_result : (advanceMsgPtr s).result = s.result := rfl
@[simp] theorem advanceMsgPtr_phase : (advanceMsgPtr s).phase = s.phase := rfl
@[simp] theorem advanceMsgPtr_cursor : (advanceMsgPtr s).cursor = s.cursor := rfl
@[simp] theorem advanceMsgPtr_carrierBase : (advanceMsgPtr s).carrierBase = s.carrierBase := rfl
@[simp] theorem advanceMsgPtr_pixelCount : (advanceMsgPtr s).pixelCount = s.pixelCount := rfl
@[simp] theorem advanceMsgPtr_frameBits : (advanceMsgPtr s).frameBits = s.frameBits := rfl
@[simp] theorem advanceMsgPtr_msgLen : (advanceMsgPtr s).msgLen = s.msgLen := rfl
@[simp] theorem advanceMsgPtr_hdrLen : (advanceMsgPtr s).hdrLen = s.hdrLen := rfl
@[simp] theorem advanceMsgPtr_msgPtr : (advanceMsgPtr s).msgPtr = s.msgPtr + 1#32 := rfl
@[simp] theorem advanceMsgPtr_framePtr : (advanceMsgPtr s).framePtr = s.framePtr := rfl
@[simp] theorem advanceMsgPtr_op : (advanceMsgPtr s).op = s.op := rfl
@[simp] theorem advanceMsgPtr_opIll : (advanceMsgPtr s).opIll = s.opIll := rfl
@[simp] theorem advanceMsgPtr_shift : (advanceMsgPtr s).shift = s.shift := rfl
@[simp] theorem advanceMsgPtr_acc : (advanceMsgPtr s).acc = s.acc := rfl
@[simp] theorem advanceMsgPtr_msg : (advanceMsgPtr s).msg = s.msg := rfl
@[simp] theorem advanceMsgPtr_frame : (advanceMsgPtr s).frame = s.frame := rfl
@[simp] theorem advanceMsgPtr_carrier : (advanceMsgPtr s).carrier = s.carrier := rfl
@[simp] theorem advanceMsgPtr_hostWrites : (advanceMsgPtr s).hostWrites = s.hostWrites := rfl
@[simp] theorem advanceMsgPtr_hostCached : (advanceMsgPtr s).hostCached = s.hostCached := rfl
@[simp] theorem advanceMsgPtr_ramEpoch : (advanceMsgPtr s).ramEpoch = s.ramEpoch := rfl
@[simp] theorem advanceMsgPtr_draws : (advanceMsgPtr s).draws = s.draws := rfl
@[simp] theorem advanceMsgPtr_rst : (advanceMsgPtr s).rst = s.rst := rfl
@[simp] theorem advanceMsgPtr_port : (advanceMsgPtr s).port = s.port := rfl
@[simp] theorem advanceMsgPtr_inputs : (advanceMsgPtr s).inputs = s.inputs := rfl
@[simp] theorem advanceMsgPtr_rdata : (advanceMsgPtr s).rdata = s.rdata := rfl
@[simp] theorem advanceMsgPtr_resp : (advanceMsgPtr s).resp = s.resp := rfl
@[simp] theorem advanceMsgPtr_hostByte : (advanceMsgPtr s).hostByte = s.hostByte := rfl
@[simp] theorem advanceMsgPtr_portLog : (advanceMsgPtr s).portLog = s.portLog := rfl
end

section -- advanceFramePtr
variable (s : State)
@[simp] theorem advanceFramePtr_params : (advanceFramePtr s).params = s.params := rfl
@[simp] theorem advanceFramePtr_ie : (advanceFramePtr s).ie = s.ie := rfl
@[simp] theorem advanceFramePtr_busy : (advanceFramePtr s).busy = s.busy := rfl
@[simp] theorem advanceFramePtr_done : (advanceFramePtr s).done = s.done := rfl
@[simp] theorem advanceFramePtr_busyErr : (advanceFramePtr s).busyErr = s.busyErr := rfl
@[simp] theorem advanceFramePtr_ramErr : (advanceFramePtr s).ramErr = s.ramErr := rfl
@[simp] theorem advanceFramePtr_result : (advanceFramePtr s).result = s.result := rfl
@[simp] theorem advanceFramePtr_phase : (advanceFramePtr s).phase = s.phase := rfl
@[simp] theorem advanceFramePtr_cursor : (advanceFramePtr s).cursor = s.cursor := rfl
@[simp] theorem advanceFramePtr_carrierBase : (advanceFramePtr s).carrierBase = s.carrierBase := rfl
@[simp] theorem advanceFramePtr_pixelCount : (advanceFramePtr s).pixelCount = s.pixelCount := rfl
@[simp] theorem advanceFramePtr_frameBits : (advanceFramePtr s).frameBits = s.frameBits := rfl
@[simp] theorem advanceFramePtr_msgLen : (advanceFramePtr s).msgLen = s.msgLen := rfl
@[simp] theorem advanceFramePtr_hdrLen : (advanceFramePtr s).hdrLen = s.hdrLen := rfl
@[simp] theorem advanceFramePtr_msgPtr : (advanceFramePtr s).msgPtr = s.msgPtr := rfl
@[simp] theorem advanceFramePtr_framePtr : (advanceFramePtr s).framePtr = s.framePtr + 1#32 := rfl
@[simp] theorem advanceFramePtr_op : (advanceFramePtr s).op = s.op := rfl
@[simp] theorem advanceFramePtr_opIll : (advanceFramePtr s).opIll = s.opIll := rfl
@[simp] theorem advanceFramePtr_shift : (advanceFramePtr s).shift = s.shift := rfl
@[simp] theorem advanceFramePtr_acc : (advanceFramePtr s).acc = s.acc := rfl
@[simp] theorem advanceFramePtr_msg : (advanceFramePtr s).msg = s.msg := rfl
@[simp] theorem advanceFramePtr_frame : (advanceFramePtr s).frame = s.frame := rfl
@[simp] theorem advanceFramePtr_carrier : (advanceFramePtr s).carrier = s.carrier := rfl
@[simp] theorem advanceFramePtr_hostWrites : (advanceFramePtr s).hostWrites = s.hostWrites := rfl
@[simp] theorem advanceFramePtr_hostCached : (advanceFramePtr s).hostCached = s.hostCached := rfl
@[simp] theorem advanceFramePtr_ramEpoch : (advanceFramePtr s).ramEpoch = s.ramEpoch := rfl
@[simp] theorem advanceFramePtr_draws : (advanceFramePtr s).draws = s.draws := rfl
@[simp] theorem advanceFramePtr_rst : (advanceFramePtr s).rst = s.rst := rfl
@[simp] theorem advanceFramePtr_port : (advanceFramePtr s).port = s.port := rfl
@[simp] theorem advanceFramePtr_inputs : (advanceFramePtr s).inputs = s.inputs := rfl
@[simp] theorem advanceFramePtr_rdata : (advanceFramePtr s).rdata = s.rdata := rfl
@[simp] theorem advanceFramePtr_resp : (advanceFramePtr s).resp = s.resp := rfl
@[simp] theorem advanceFramePtr_hostByte : (advanceFramePtr s).hostByte = s.hostByte := rfl
@[simp] theorem advanceFramePtr_portLog : (advanceFramePtr s).portLog = s.portLog := rfl
end

section -- setHdrLen
variable (l : Word) (s : State)
@[simp] theorem setHdrLen_params : (setHdrLen l s).params = s.params := rfl
@[simp] theorem setHdrLen_ie : (setHdrLen l s).ie = s.ie := rfl
@[simp] theorem setHdrLen_busy : (setHdrLen l s).busy = s.busy := rfl
@[simp] theorem setHdrLen_done : (setHdrLen l s).done = s.done := rfl
@[simp] theorem setHdrLen_busyErr : (setHdrLen l s).busyErr = s.busyErr := rfl
@[simp] theorem setHdrLen_ramErr : (setHdrLen l s).ramErr = s.ramErr := rfl
@[simp] theorem setHdrLen_result : (setHdrLen l s).result = s.result := rfl
@[simp] theorem setHdrLen_phase : (setHdrLen l s).phase = s.phase := rfl
@[simp] theorem setHdrLen_cursor : (setHdrLen l s).cursor = s.cursor := rfl
@[simp] theorem setHdrLen_carrierBase : (setHdrLen l s).carrierBase = s.carrierBase := rfl
@[simp] theorem setHdrLen_pixelCount : (setHdrLen l s).pixelCount = s.pixelCount := rfl
@[simp] theorem setHdrLen_frameBits : (setHdrLen l s).frameBits = s.frameBits := rfl
@[simp] theorem setHdrLen_msgLen : (setHdrLen l s).msgLen = s.msgLen := rfl
@[simp] theorem setHdrLen_hdrLen : (setHdrLen l s).hdrLen = l := rfl
@[simp] theorem setHdrLen_msgPtr : (setHdrLen l s).msgPtr = s.msgPtr := rfl
@[simp] theorem setHdrLen_framePtr : (setHdrLen l s).framePtr = s.framePtr := rfl
@[simp] theorem setHdrLen_op : (setHdrLen l s).op = s.op := rfl
@[simp] theorem setHdrLen_opIll : (setHdrLen l s).opIll = s.opIll := rfl
@[simp] theorem setHdrLen_shift : (setHdrLen l s).shift = s.shift := rfl
@[simp] theorem setHdrLen_acc : (setHdrLen l s).acc = s.acc := rfl
@[simp] theorem setHdrLen_msg : (setHdrLen l s).msg = s.msg := rfl
@[simp] theorem setHdrLen_frame : (setHdrLen l s).frame = s.frame := rfl
@[simp] theorem setHdrLen_carrier : (setHdrLen l s).carrier = s.carrier := rfl
@[simp] theorem setHdrLen_hostWrites : (setHdrLen l s).hostWrites = s.hostWrites := rfl
@[simp] theorem setHdrLen_hostCached : (setHdrLen l s).hostCached = s.hostCached := rfl
@[simp] theorem setHdrLen_ramEpoch : (setHdrLen l s).ramEpoch = s.ramEpoch := rfl
@[simp] theorem setHdrLen_draws : (setHdrLen l s).draws = s.draws := rfl
@[simp] theorem setHdrLen_rst : (setHdrLen l s).rst = s.rst := rfl
@[simp] theorem setHdrLen_port : (setHdrLen l s).port = s.port := rfl
@[simp] theorem setHdrLen_inputs : (setHdrLen l s).inputs = s.inputs := rfl
@[simp] theorem setHdrLen_rdata : (setHdrLen l s).rdata = s.rdata := rfl
@[simp] theorem setHdrLen_resp : (setHdrLen l s).resp = s.resp := rfl
@[simp] theorem setHdrLen_hostByte : (setHdrLen l s).hostByte = s.hostByte := rfl
@[simp] theorem setHdrLen_portLog : (setHdrLen l s).portLog = s.portLog := rfl
end

section -- setMsgLen
variable (n : Word) (s : State)
@[simp] theorem setMsgLen_params : (setMsgLen n s).params = s.params := rfl
@[simp] theorem setMsgLen_ie : (setMsgLen n s).ie = s.ie := rfl
@[simp] theorem setMsgLen_busy : (setMsgLen n s).busy = s.busy := rfl
@[simp] theorem setMsgLen_done : (setMsgLen n s).done = s.done := rfl
@[simp] theorem setMsgLen_busyErr : (setMsgLen n s).busyErr = s.busyErr := rfl
@[simp] theorem setMsgLen_ramErr : (setMsgLen n s).ramErr = s.ramErr := rfl
@[simp] theorem setMsgLen_result : (setMsgLen n s).result = s.result := rfl
@[simp] theorem setMsgLen_phase : (setMsgLen n s).phase = s.phase := rfl
@[simp] theorem setMsgLen_cursor : (setMsgLen n s).cursor = s.cursor := rfl
@[simp] theorem setMsgLen_carrierBase : (setMsgLen n s).carrierBase = s.carrierBase := rfl
@[simp] theorem setMsgLen_pixelCount : (setMsgLen n s).pixelCount = s.pixelCount := rfl
@[simp] theorem setMsgLen_frameBits : (setMsgLen n s).frameBits = s.frameBits := rfl
@[simp] theorem setMsgLen_msgLen : (setMsgLen n s).msgLen = n := rfl
@[simp] theorem setMsgLen_hdrLen : (setMsgLen n s).hdrLen = s.hdrLen := rfl
@[simp] theorem setMsgLen_msgPtr : (setMsgLen n s).msgPtr = s.msgPtr := rfl
@[simp] theorem setMsgLen_framePtr : (setMsgLen n s).framePtr = s.framePtr := rfl
@[simp] theorem setMsgLen_op : (setMsgLen n s).op = s.op := rfl
@[simp] theorem setMsgLen_opIll : (setMsgLen n s).opIll = s.opIll := rfl
@[simp] theorem setMsgLen_shift : (setMsgLen n s).shift = s.shift := rfl
@[simp] theorem setMsgLen_acc : (setMsgLen n s).acc = s.acc := rfl
@[simp] theorem setMsgLen_msg : (setMsgLen n s).msg = s.msg := rfl
@[simp] theorem setMsgLen_frame : (setMsgLen n s).frame = s.frame := rfl
@[simp] theorem setMsgLen_carrier : (setMsgLen n s).carrier = s.carrier := rfl
@[simp] theorem setMsgLen_hostWrites : (setMsgLen n s).hostWrites = s.hostWrites := rfl
@[simp] theorem setMsgLen_hostCached : (setMsgLen n s).hostCached = s.hostCached := rfl
@[simp] theorem setMsgLen_ramEpoch : (setMsgLen n s).ramEpoch = s.ramEpoch := rfl
@[simp] theorem setMsgLen_draws : (setMsgLen n s).draws = s.draws := rfl
@[simp] theorem setMsgLen_rst : (setMsgLen n s).rst = s.rst := rfl
@[simp] theorem setMsgLen_port : (setMsgLen n s).port = s.port := rfl
@[simp] theorem setMsgLen_inputs : (setMsgLen n s).inputs = s.inputs := rfl
@[simp] theorem setMsgLen_rdata : (setMsgLen n s).rdata = s.rdata := rfl
@[simp] theorem setMsgLen_resp : (setMsgLen n s).resp = s.resp := rfl
@[simp] theorem setMsgLen_hostByte : (setMsgLen n s).hostByte = s.hostByte := rfl
@[simp] theorem setMsgLen_portLog : (setMsgLen n s).portLog = s.portLog := rfl
end

section -- setRst
variable (level : Bool) (s : State)
@[simp] theorem setRst_params : (setRst level s).params = s.params := rfl
@[simp] theorem setRst_ie : (setRst level s).ie = s.ie := rfl
@[simp] theorem setRst_busy : (setRst level s).busy = s.busy := rfl
@[simp] theorem setRst_done : (setRst level s).done = s.done := rfl
@[simp] theorem setRst_busyErr : (setRst level s).busyErr = s.busyErr := rfl
@[simp] theorem setRst_ramErr : (setRst level s).ramErr = s.ramErr := rfl
@[simp] theorem setRst_result : (setRst level s).result = s.result := rfl
@[simp] theorem setRst_phase : (setRst level s).phase = s.phase := rfl
@[simp] theorem setRst_cursor : (setRst level s).cursor = s.cursor := rfl
@[simp] theorem setRst_carrierBase : (setRst level s).carrierBase = s.carrierBase := rfl
@[simp] theorem setRst_pixelCount : (setRst level s).pixelCount = s.pixelCount := rfl
@[simp] theorem setRst_frameBits : (setRst level s).frameBits = s.frameBits := rfl
@[simp] theorem setRst_msgLen : (setRst level s).msgLen = s.msgLen := rfl
@[simp] theorem setRst_hdrLen : (setRst level s).hdrLen = s.hdrLen := rfl
@[simp] theorem setRst_msgPtr : (setRst level s).msgPtr = s.msgPtr := rfl
@[simp] theorem setRst_framePtr : (setRst level s).framePtr = s.framePtr := rfl
@[simp] theorem setRst_op : (setRst level s).op = s.op := rfl
@[simp] theorem setRst_opIll : (setRst level s).opIll = s.opIll := rfl
@[simp] theorem setRst_shift : (setRst level s).shift = s.shift := rfl
@[simp] theorem setRst_acc : (setRst level s).acc = s.acc := rfl
@[simp] theorem setRst_msg : (setRst level s).msg = s.msg := rfl
@[simp] theorem setRst_frame : (setRst level s).frame = s.frame := rfl
@[simp] theorem setRst_carrier : (setRst level s).carrier = s.carrier := rfl
@[simp] theorem setRst_hostWrites : (setRst level s).hostWrites = s.hostWrites := rfl
@[simp] theorem setRst_hostCached : (setRst level s).hostCached = s.hostCached := rfl
@[simp] theorem setRst_ramEpoch : (setRst level s).ramEpoch = s.ramEpoch := rfl
@[simp] theorem setRst_draws : (setRst level s).draws = s.draws := rfl
@[simp] theorem setRst_rst : (setRst level s).rst = level := rfl
@[simp] theorem setRst_port : (setRst level s).port = s.port := rfl
@[simp] theorem setRst_inputs : (setRst level s).inputs = s.inputs := rfl
@[simp] theorem setRst_rdata : (setRst level s).rdata = s.rdata := rfl
@[simp] theorem setRst_resp : (setRst level s).resp = s.resp := rfl
@[simp] theorem setRst_hostByte : (setRst level s).hostByte = s.hostByte := rfl
@[simp] theorem setRst_portLog : (setRst level s).portLog = s.portLog := rfl
end

section -- clearShift
variable (s : State)
@[simp] theorem clearShift_params : (clearShift s).params = s.params := rfl
@[simp] theorem clearShift_ie : (clearShift s).ie = s.ie := rfl
@[simp] theorem clearShift_busy : (clearShift s).busy = s.busy := rfl
@[simp] theorem clearShift_done : (clearShift s).done = s.done := rfl
@[simp] theorem clearShift_busyErr : (clearShift s).busyErr = s.busyErr := rfl
@[simp] theorem clearShift_ramErr : (clearShift s).ramErr = s.ramErr := rfl
@[simp] theorem clearShift_result : (clearShift s).result = s.result := rfl
@[simp] theorem clearShift_phase : (clearShift s).phase = s.phase := rfl
@[simp] theorem clearShift_cursor : (clearShift s).cursor = s.cursor := rfl
@[simp] theorem clearShift_carrierBase : (clearShift s).carrierBase = s.carrierBase := rfl
@[simp] theorem clearShift_pixelCount : (clearShift s).pixelCount = s.pixelCount := rfl
@[simp] theorem clearShift_frameBits : (clearShift s).frameBits = s.frameBits := rfl
@[simp] theorem clearShift_msgLen : (clearShift s).msgLen = s.msgLen := rfl
@[simp] theorem clearShift_hdrLen : (clearShift s).hdrLen = s.hdrLen := rfl
@[simp] theorem clearShift_msgPtr : (clearShift s).msgPtr = s.msgPtr := rfl
@[simp] theorem clearShift_framePtr : (clearShift s).framePtr = s.framePtr := rfl
@[simp] theorem clearShift_op : (clearShift s).op = s.op := rfl
@[simp] theorem clearShift_opIll : (clearShift s).opIll = s.opIll := rfl
@[simp] theorem clearShift_shift : (clearShift s).shift = 0#32 := rfl
@[simp] theorem clearShift_acc : (clearShift s).acc = s.acc := rfl
@[simp] theorem clearShift_msg : (clearShift s).msg = s.msg := rfl
@[simp] theorem clearShift_frame : (clearShift s).frame = s.frame := rfl
@[simp] theorem clearShift_carrier : (clearShift s).carrier = s.carrier := rfl
@[simp] theorem clearShift_hostWrites : (clearShift s).hostWrites = s.hostWrites := rfl
@[simp] theorem clearShift_hostCached : (clearShift s).hostCached = s.hostCached := rfl
@[simp] theorem clearShift_ramEpoch : (clearShift s).ramEpoch = s.ramEpoch := rfl
@[simp] theorem clearShift_draws : (clearShift s).draws = s.draws := rfl
@[simp] theorem clearShift_rst : (clearShift s).rst = s.rst := rfl
@[simp] theorem clearShift_port : (clearShift s).port = s.port := rfl
@[simp] theorem clearShift_inputs : (clearShift s).inputs = s.inputs := rfl
@[simp] theorem clearShift_rdata : (clearShift s).rdata = s.rdata := rfl
@[simp] theorem clearShift_resp : (clearShift s).resp = s.resp := rfl
@[simp] theorem clearShift_hostByte : (clearShift s).hostByte = s.hostByte := rfl
@[simp] theorem clearShift_portLog : (clearShift s).portLog = s.portLog := rfl
end

section -- clearAcc
variable (s : State)
@[simp] theorem clearAcc_params : (clearAcc s).params = s.params := rfl
@[simp] theorem clearAcc_ie : (clearAcc s).ie = s.ie := rfl
@[simp] theorem clearAcc_busy : (clearAcc s).busy = s.busy := rfl
@[simp] theorem clearAcc_done : (clearAcc s).done = s.done := rfl
@[simp] theorem clearAcc_busyErr : (clearAcc s).busyErr = s.busyErr := rfl
@[simp] theorem clearAcc_ramErr : (clearAcc s).ramErr = s.ramErr := rfl
@[simp] theorem clearAcc_result : (clearAcc s).result = s.result := rfl
@[simp] theorem clearAcc_phase : (clearAcc s).phase = s.phase := rfl
@[simp] theorem clearAcc_cursor : (clearAcc s).cursor = s.cursor := rfl
@[simp] theorem clearAcc_carrierBase : (clearAcc s).carrierBase = s.carrierBase := rfl
@[simp] theorem clearAcc_pixelCount : (clearAcc s).pixelCount = s.pixelCount := rfl
@[simp] theorem clearAcc_frameBits : (clearAcc s).frameBits = s.frameBits := rfl
@[simp] theorem clearAcc_msgLen : (clearAcc s).msgLen = s.msgLen := rfl
@[simp] theorem clearAcc_hdrLen : (clearAcc s).hdrLen = s.hdrLen := rfl
@[simp] theorem clearAcc_msgPtr : (clearAcc s).msgPtr = s.msgPtr := rfl
@[simp] theorem clearAcc_framePtr : (clearAcc s).framePtr = s.framePtr := rfl
@[simp] theorem clearAcc_op : (clearAcc s).op = s.op := rfl
@[simp] theorem clearAcc_opIll : (clearAcc s).opIll = s.opIll := rfl
@[simp] theorem clearAcc_shift : (clearAcc s).shift = s.shift := rfl
@[simp] theorem clearAcc_acc : (clearAcc s).acc = 0#8 := rfl
@[simp] theorem clearAcc_msg : (clearAcc s).msg = s.msg := rfl
@[simp] theorem clearAcc_frame : (clearAcc s).frame = s.frame := rfl
@[simp] theorem clearAcc_carrier : (clearAcc s).carrier = s.carrier := rfl
@[simp] theorem clearAcc_hostWrites : (clearAcc s).hostWrites = s.hostWrites := rfl
@[simp] theorem clearAcc_hostCached : (clearAcc s).hostCached = s.hostCached := rfl
@[simp] theorem clearAcc_ramEpoch : (clearAcc s).ramEpoch = s.ramEpoch := rfl
@[simp] theorem clearAcc_draws : (clearAcc s).draws = s.draws := rfl
@[simp] theorem clearAcc_rst : (clearAcc s).rst = s.rst := rfl
@[simp] theorem clearAcc_port : (clearAcc s).port = s.port := rfl
@[simp] theorem clearAcc_inputs : (clearAcc s).inputs = s.inputs := rfl
@[simp] theorem clearAcc_rdata : (clearAcc s).rdata = s.rdata := rfl
@[simp] theorem clearAcc_resp : (clearAcc s).resp = s.resp := rfl
@[simp] theorem clearAcc_hostByte : (clearAcc s).hostByte = s.hostByte := rfl
@[simp] theorem clearAcc_portLog : (clearAcc s).portLog = s.portLog := rfl
end

section -- takeHeaderBit
variable (v : Bool) (s : State)
@[simp] theorem takeHeaderBit_params : (takeHeaderBit v s).params = s.params := rfl
@[simp] theorem takeHeaderBit_ie : (takeHeaderBit v s).ie = s.ie := rfl
@[simp] theorem takeHeaderBit_busy : (takeHeaderBit v s).busy = s.busy := rfl
@[simp] theorem takeHeaderBit_done : (takeHeaderBit v s).done = s.done := rfl
@[simp] theorem takeHeaderBit_busyErr : (takeHeaderBit v s).busyErr = s.busyErr := rfl
@[simp] theorem takeHeaderBit_ramErr : (takeHeaderBit v s).ramErr = s.ramErr := rfl
@[simp] theorem takeHeaderBit_result : (takeHeaderBit v s).result = s.result := rfl
@[simp] theorem takeHeaderBit_phase : (takeHeaderBit v s).phase = s.phase := rfl
@[simp] theorem takeHeaderBit_cursor : (takeHeaderBit v s).cursor = s.cursor + 1 := rfl
@[simp] theorem takeHeaderBit_carrierBase : (takeHeaderBit v s).carrierBase = s.carrierBase := rfl
@[simp] theorem takeHeaderBit_pixelCount : (takeHeaderBit v s).pixelCount = s.pixelCount := rfl
@[simp] theorem takeHeaderBit_frameBits : (takeHeaderBit v s).frameBits = s.frameBits := rfl
@[simp] theorem takeHeaderBit_msgLen : (takeHeaderBit v s).msgLen = s.msgLen := rfl
@[simp] theorem takeHeaderBit_hdrLen : (takeHeaderBit v s).hdrLen = s.hdrLen := rfl
@[simp] theorem takeHeaderBit_msgPtr : (takeHeaderBit v s).msgPtr = s.msgPtr := rfl
@[simp] theorem takeHeaderBit_framePtr : (takeHeaderBit v s).framePtr = s.framePtr := rfl
@[simp] theorem takeHeaderBit_op : (takeHeaderBit v s).op = s.op := rfl
@[simp] theorem takeHeaderBit_opIll : (takeHeaderBit v s).opIll = s.opIll := rfl
@[simp] theorem takeHeaderBit_shift : (takeHeaderBit v s).shift = shiftIn s.shift v := rfl
@[simp] theorem takeHeaderBit_acc : (takeHeaderBit v s).acc = s.acc := rfl
@[simp] theorem takeHeaderBit_msg : (takeHeaderBit v s).msg = s.msg := rfl
@[simp] theorem takeHeaderBit_frame : (takeHeaderBit v s).frame = s.frame := rfl
@[simp] theorem takeHeaderBit_carrier : (takeHeaderBit v s).carrier = s.carrier := rfl
@[simp] theorem takeHeaderBit_hostWrites : (takeHeaderBit v s).hostWrites = s.hostWrites := rfl
@[simp] theorem takeHeaderBit_hostCached : (takeHeaderBit v s).hostCached = s.hostCached := rfl
@[simp] theorem takeHeaderBit_ramEpoch : (takeHeaderBit v s).ramEpoch = s.ramEpoch := rfl
@[simp] theorem takeHeaderBit_draws : (takeHeaderBit v s).draws = s.draws := rfl
@[simp] theorem takeHeaderBit_rst : (takeHeaderBit v s).rst = s.rst := rfl
@[simp] theorem takeHeaderBit_port : (takeHeaderBit v s).port = s.port := rfl
@[simp] theorem takeHeaderBit_inputs : (takeHeaderBit v s).inputs = s.inputs := rfl
@[simp] theorem takeHeaderBit_rdata : (takeHeaderBit v s).rdata = s.rdata := rfl
@[simp] theorem takeHeaderBit_resp : (takeHeaderBit v s).resp = s.resp := rfl
@[simp] theorem takeHeaderBit_hostByte : (takeHeaderBit v s).hostByte = s.hostByte := rfl
@[simp] theorem takeHeaderBit_portLog : (takeHeaderBit v s).portLog = s.portLog := rfl
end

section -- packMessage
variable (n : Nat) (s : State)
@[simp] theorem packMessage_params : (packMessage n s).params = s.params := rfl
@[simp] theorem packMessage_ie : (packMessage n s).ie = s.ie := rfl
@[simp] theorem packMessage_busy : (packMessage n s).busy = s.busy := rfl
@[simp] theorem packMessage_done : (packMessage n s).done = s.done := rfl
@[simp] theorem packMessage_busyErr : (packMessage n s).busyErr = s.busyErr := rfl
@[simp] theorem packMessage_ramErr : (packMessage n s).ramErr = s.ramErr := rfl
@[simp] theorem packMessage_result : (packMessage n s).result = s.result := rfl
@[simp] theorem packMessage_phase : (packMessage n s).phase = s.phase := rfl
@[simp] theorem packMessage_cursor : (packMessage n s).cursor = s.cursor := rfl
@[simp] theorem packMessage_carrierBase : (packMessage n s).carrierBase = s.carrierBase := rfl
@[simp] theorem packMessage_pixelCount : (packMessage n s).pixelCount = s.pixelCount := rfl
@[simp] theorem packMessage_frameBits : (packMessage n s).frameBits = packedFrameBits n := rfl
@[simp] theorem packMessage_msgLen : (packMessage n s).msgLen = s.msgLen := rfl
@[simp] theorem packMessage_hdrLen : (packMessage n s).hdrLen = s.hdrLen := rfl
@[simp] theorem packMessage_msgPtr : (packMessage n s).msgPtr = s.msgPtr := rfl
@[simp] theorem packMessage_framePtr : (packMessage n s).framePtr = s.framePtr := rfl
@[simp] theorem packMessage_op : (packMessage n s).op = s.op := rfl
@[simp] theorem packMessage_opIll : (packMessage n s).opIll = s.opIll := rfl
@[simp] theorem packMessage_shift : (packMessage n s).shift = s.shift := rfl
@[simp] theorem packMessage_acc : (packMessage n s).acc = s.acc := rfl
@[simp] theorem packMessage_msg : (packMessage n s).msg = s.msg := rfl
@[simp] theorem packMessage_frame : (packMessage n s).frame = packedFrame s n := rfl
@[simp] theorem packMessage_carrier : (packMessage n s).carrier = s.carrier := rfl
@[simp] theorem packMessage_hostWrites : (packMessage n s).hostWrites = s.hostWrites := rfl
@[simp] theorem packMessage_hostCached : (packMessage n s).hostCached = s.hostCached := rfl
@[simp] theorem packMessage_ramEpoch : (packMessage n s).ramEpoch = s.ramEpoch := rfl
@[simp] theorem packMessage_draws : (packMessage n s).draws = s.draws := rfl
@[simp] theorem packMessage_rst : (packMessage n s).rst = s.rst := rfl
@[simp] theorem packMessage_port : (packMessage n s).port = s.port := rfl
@[simp] theorem packMessage_inputs : (packMessage n s).inputs = s.inputs := rfl
@[simp] theorem packMessage_rdata : (packMessage n s).rdata = s.rdata := rfl
@[simp] theorem packMessage_resp : (packMessage n s).resp = s.resp := rfl
@[simp] theorem packMessage_hostByte : (packMessage n s).hostByte = s.hostByte := rfl
@[simp] theorem packMessage_portLog : (packMessage n s).portLog = s.portLog := rfl
end

section -- unpackedMessage
variable (source : State) (n : Nat) (s : State)
@[simp] theorem unpackedMessage_params : (unpackedMessage source n s).params = s.params := rfl
@[simp] theorem unpackedMessage_ie : (unpackedMessage source n s).ie = s.ie := rfl
@[simp] theorem unpackedMessage_busy : (unpackedMessage source n s).busy = s.busy := rfl
@[simp] theorem unpackedMessage_done : (unpackedMessage source n s).done = s.done := rfl
@[simp] theorem unpackedMessage_busyErr : (unpackedMessage source n s).busyErr = s.busyErr := rfl
@[simp] theorem unpackedMessage_ramErr : (unpackedMessage source n s).ramErr = s.ramErr := rfl
@[simp] theorem unpackedMessage_result : (unpackedMessage source n s).result = s.result := rfl
@[simp] theorem unpackedMessage_phase : (unpackedMessage source n s).phase = s.phase := rfl
@[simp] theorem unpackedMessage_cursor : (unpackedMessage source n s).cursor = s.cursor := rfl
@[simp] theorem unpackedMessage_carrierBase : (unpackedMessage source n s).carrierBase = s.carrierBase := rfl
@[simp] theorem unpackedMessage_pixelCount : (unpackedMessage source n s).pixelCount = s.pixelCount := rfl
@[simp] theorem unpackedMessage_frameBits : (unpackedMessage source n s).frameBits = s.frameBits := rfl
@[simp] theorem unpackedMessage_msgLen : (unpackedMessage source n s).msgLen = BitVec.ofNat 32 n := rfl
@[simp] theorem unpackedMessage_hdrLen : (unpackedMessage source n s).hdrLen = s.hdrLen := rfl
@[simp] theorem unpackedMessage_msgPtr : (unpackedMessage source n s).msgPtr = s.msgPtr := rfl
@[simp] theorem unpackedMessage_framePtr : (unpackedMessage source n s).framePtr = s.framePtr := rfl
@[simp] theorem unpackedMessage_op : (unpackedMessage source n s).op = s.op := rfl
@[simp] theorem unpackedMessage_opIll : (unpackedMessage source n s).opIll = s.opIll := rfl
@[simp] theorem unpackedMessage_shift : (unpackedMessage source n s).shift = s.shift := rfl
@[simp] theorem unpackedMessage_acc : (unpackedMessage source n s).acc = s.acc := rfl
@[simp] theorem unpackedMessage_msg : (unpackedMessage source n s).msg = Memory.fill s.msg 0 (fun j => readFrame source (4 + j)) n := rfl
@[simp] theorem unpackedMessage_frame : (unpackedMessage source n s).frame = s.frame := rfl
@[simp] theorem unpackedMessage_carrier : (unpackedMessage source n s).carrier = s.carrier := rfl
@[simp] theorem unpackedMessage_hostWrites : (unpackedMessage source n s).hostWrites = s.hostWrites := rfl
@[simp] theorem unpackedMessage_hostCached : (unpackedMessage source n s).hostCached = s.hostCached := rfl
@[simp] theorem unpackedMessage_ramEpoch : (unpackedMessage source n s).ramEpoch = s.ramEpoch := rfl
@[simp] theorem unpackedMessage_draws : (unpackedMessage source n s).draws = s.draws := rfl
@[simp] theorem unpackedMessage_rst : (unpackedMessage source n s).rst = s.rst := rfl
@[simp] theorem unpackedMessage_port : (unpackedMessage source n s).port = s.port := rfl
@[simp] theorem unpackedMessage_inputs : (unpackedMessage source n s).inputs = s.inputs := rfl
@[simp] theorem unpackedMessage_rdata : (unpackedMessage source n s).rdata = s.rdata := rfl
@[simp] theorem unpackedMessage_resp : (unpackedMessage source n s).resp = s.resp := rfl
@[simp] theorem unpackedMessage_hostByte : (unpackedMessage source n s).hostByte = s.hostByte := rfl
@[simp] theorem unpackedMessage_portLog : (unpackedMessage source n s).portLog = s.portLog := rfl
end

section -- setBusyErr
variable (s : State)
@[simp] theorem setBusyErr_params : (setBusyErr s).params = s.params := rfl
@[simp] theorem setBusyErr_ie : (setBusyErr s).ie = s.ie := rfl
@[simp] theorem setBusyErr_busy : (setBusyErr s).busy = s.busy := rfl
@[simp] theorem setBusyErr_done : (setBusyErr s).done = s.done := rfl
@[simp] theorem setBusyErr_busyErr : (setBusyErr s).busyErr = true := rfl
@[simp] theorem setBusyErr_ramErr : (setBusyErr s).ramErr = s.ramErr := rfl
@[simp] theorem setBusyErr_result : (setBusyErr s).result = s.result := rfl
@[simp] theorem setBusyErr_phase : (setBusyErr s).phase = s.phase := rfl
@[simp] theorem setBusyErr_cursor : (setBusyErr s).cursor = s.cursor := rfl
@[simp] theorem setBusyErr_carrierBase : (setBusyErr s).carrierBase = s.carrierBase := rfl
@[simp] theorem setBusyErr_pixelCount : (setBusyErr s).pixelCount = s.pixelCount := rfl
@[simp] theorem setBusyErr_frameBits : (setBusyErr s).frameBits = s.frameBits := rfl
@[simp] theorem setBusyErr_msgLen : (setBusyErr s).msgLen = s.msgLen := rfl
@[simp] theorem setBusyErr_hdrLen : (setBusyErr s).hdrLen = s.hdrLen := rfl
@[simp] theorem setBusyErr_msgPtr : (setBusyErr s).msgPtr = s.msgPtr := rfl
@[simp] theorem setBusyErr_framePtr : (setBusyErr s).framePtr = s.framePtr := rfl
@[simp] theorem setBusyErr_op : (setBusyErr s).op = s.op := rfl
@[simp] theorem setBusyErr_opIll : (setBusyErr s).opIll = s.opIll := rfl
@[simp] theorem setBusyErr_shift : (setBusyErr s).shift = s.shift := rfl
@[simp] theorem setBusyErr_acc : (setBusyErr s).acc = s.acc := rfl
@[simp] theorem setBusyErr_msg : (setBusyErr s).msg = s.msg := rfl
@[simp] theorem setBusyErr_frame : (setBusyErr s).frame = s.frame := rfl
@[simp] theorem setBusyErr_carrier : (setBusyErr s).carrier = s.carrier := rfl
@[simp] theorem setBusyErr_hostWrites : (setBusyErr s).hostWrites = s.hostWrites := rfl
@[simp] theorem setBusyErr_hostCached : (setBusyErr s).hostCached = s.hostCached := rfl
@[simp] theorem setBusyErr_ramEpoch : (setBusyErr s).ramEpoch = s.ramEpoch := rfl
@[simp] theorem setBusyErr_draws : (setBusyErr s).draws = s.draws := rfl
@[simp] theorem setBusyErr_rst : (setBusyErr s).rst = s.rst := rfl
@[simp] theorem setBusyErr_port : (setBusyErr s).port = s.port := rfl
@[simp] theorem setBusyErr_inputs : (setBusyErr s).inputs = s.inputs := rfl
@[simp] theorem setBusyErr_rdata : (setBusyErr s).rdata = s.rdata := rfl
@[simp] theorem setBusyErr_resp : (setBusyErr s).resp = s.resp := rfl
@[simp] theorem setBusyErr_hostByte : (setBusyErr s).hostByte = s.hostByte := rfl
@[simp] theorem setBusyErr_portLog : (setBusyErr s).portLog = s.portLog := rfl
end

section -- setRamErr
variable (s : State)
@[simp] theorem setRamErr_params : (setRamErr s).params = s.params := rfl
@[simp] theorem setRamErr_ie : (setRamErr s).ie = s.ie := rfl
@[simp] theorem setRamErr_busy : (setRamErr s).busy = s.busy := rfl
@[simp] theorem setRamErr_done : (setRamErr s).done = s.done := rfl
@[simp] theorem setRamErr_busyErr : (setRamErr s).busyErr = s.busyErr := rfl
@[simp] theorem setRamErr_ramErr : (setRamErr s).ramErr = true := rfl
@[simp] theorem setRamErr_result : (setRamErr s).result = s.result := rfl
@[simp] theorem setRamErr_phase : (setRamErr s).phase = s.phase := rfl
@[simp] theorem setRamErr_cursor : (setRamErr s).cursor = s.cursor := rfl
@[simp] theorem setRamErr_carrierBase : (setRamErr s).carrierBase = s.carrierBase := rfl
@[simp] theorem setRamErr_pixelCount : (setRamErr s).pixelCount = s.pixelCount := rfl
@[simp] theorem setRamErr_frameBits : (setRamErr s).frameBits = s.frameBits := rfl
@[simp] theorem setRamErr_msgLen : (setRamErr s).msgLen = s.msgLen := rfl
@[simp] theorem setRamErr_hdrLen : (setRamErr s).hdrLen = s.hdrLen := rfl
@[simp] theorem setRamErr_msgPtr : (setRamErr s).msgPtr = s.msgPtr := rfl
@[simp] theorem setRamErr_framePtr : (setRamErr s).framePtr = s.framePtr := rfl
@[simp] theorem setRamErr_op : (setRamErr s).op = s.op := rfl
@[simp] theorem setRamErr_opIll : (setRamErr s).opIll = s.opIll := rfl
@[simp] theorem setRamErr_shift : (setRamErr s).shift = s.shift := rfl
@[simp] theorem setRamErr_acc : (setRamErr s).acc = s.acc := rfl
@[simp] theorem setRamErr_msg : (setRamErr s).msg = s.msg := rfl
@[simp] theorem setRamErr_frame : (setRamErr s).frame = s.frame := rfl
@[simp] theorem setRamErr_carrier : (setRamErr s).carrier = s.carrier := rfl
@[simp] theorem setRamErr_hostWrites : (setRamErr s).hostWrites = s.hostWrites := rfl
@[simp] theorem setRamErr_hostCached : (setRamErr s).hostCached = s.hostCached := rfl
@[simp] theorem setRamErr_ramEpoch : (setRamErr s).ramEpoch = s.ramEpoch := rfl
@[simp] theorem setRamErr_draws : (setRamErr s).draws = s.draws := rfl
@[simp] theorem setRamErr_rst : (setRamErr s).rst = s.rst := rfl
@[simp] theorem setRamErr_port : (setRamErr s).port = s.port := rfl
@[simp] theorem setRamErr_inputs : (setRamErr s).inputs = s.inputs := rfl
@[simp] theorem setRamErr_rdata : (setRamErr s).rdata = s.rdata := rfl
@[simp] theorem setRamErr_resp : (setRamErr s).resp = s.resp := rfl
@[simp] theorem setRamErr_hostByte : (setRamErr s).hostByte = s.hostByte := rfl
@[simp] theorem setRamErr_portLog : (setRamErr s).portLog = s.portLog := rfl
end

section -- writeStatus
variable (w : Word) (s : State)
@[simp] theorem writeStatus_params : (writeStatus w s).params = s.params := rfl
@[simp] theorem writeStatus_ie : (writeStatus w s).ie = s.ie := rfl
@[simp] theorem writeStatus_busy : (writeStatus w s).busy = s.busy := rfl
@[simp] theorem writeStatus_done : (writeStatus w s).done = (s.done && !w.getLsbD 1) := rfl
@[simp] theorem writeStatus_busyErr : (writeStatus w s).busyErr = (s.busyErr && !w.getLsbD 2) := rfl
@[simp] theorem writeStatus_ramErr : (writeStatus w s).ramErr = (s.ramErr && !w.getLsbD 3) := rfl
@[simp] theorem writeStatus_result : (writeStatus w s).result = s.result := rfl
@[simp] theorem writeStatus_phase : (writeStatus w s).phase = s.phase := rfl
@[simp] theorem writeStatus_cursor : (writeStatus w s).cursor = s.cursor := rfl
@[simp] theorem writeStatus_carrierBase : (writeStatus w s).carrierBase = s.carrierBase := rfl
@[simp] theorem writeStatus_pixelCount : (writeStatus w s).pixelCount = s.pixelCount := rfl
@[simp] theorem writeStatus_frameBits : (writeStatus w s).frameBits = s.frameBits := rfl
@[simp] theorem writeStatus_msgLen : (writeStatus w s).msgLen = s.msgLen := rfl
@[simp] theorem writeStatus_hdrLen : (writeStatus w s).hdrLen = s.hdrLen := rfl
@[simp] theorem writeStatus_msgPtr : (writeStatus w s).msgPtr = s.msgPtr := rfl
@[simp] theorem writeStatus_framePtr : (writeStatus w s).framePtr = s.framePtr := rfl
@[simp] theorem writeStatus_op : (writeStatus w s).op = s.op := rfl
@[simp] theorem writeStatus_opIll : (writeStatus w s).opIll = s.opIll := rfl
@[simp] theorem writeStatus_shift : (writeStatus w s).shift = s.shift := rfl
@[simp] theorem writeStatus_acc : (writeStatus w s).acc = s.acc := rfl
@[simp] theorem writeStatus_msg : (writeStatus w s).msg = s.msg := rfl
@[simp] theorem writeStatus_frame : (writeStatus w s).frame = s.frame := rfl
@[simp] theorem writeStatus_carrier : (writeStatus w s).carrier = s.carrier := rfl
@[simp] theorem writeStatus_hostWrites : (writeStatus w s).hostWrites = s.hostWrites := rfl
@[simp] theorem writeStatus_hostCached : (writeStatus w s).hostCached = s.hostCached := rfl
@[simp] theorem writeStatus_ramEpoch : (writeStatus w s).ramEpoch = s.ramEpoch := rfl
@[simp] theorem writeStatus_draws : (writeStatus w s).draws = s.draws := rfl
@[simp] theorem writeStatus_rst : (writeStatus w s).rst = s.rst := rfl
@[simp] theorem writeStatus_port : (writeStatus w s).port = s.port := rfl
@[simp] theorem writeStatus_inputs : (writeStatus w s).inputs = s.inputs := rfl
@[simp] theorem writeStatus_rdata : (writeStatus w s).rdata = s.rdata := rfl
@[simp] theorem writeStatus_resp : (writeStatus w s).resp = s.resp := rfl
@[simp] theorem writeStatus_hostByte : (writeStatus w s).hostByte = s.hostByte := rfl
@[simp] theorem writeStatus_portLog : (writeStatus w s).portLog = s.portLog := rfl
end

section -- answerRead
variable (v : Word) (s : State)
@[simp] theorem answerRead_params : (answerRead v s).params = s.params := rfl
@[simp] theorem answerRead_ie : (answerRead v s).ie = s.ie := rfl
@[simp] theorem answerRead_busy : (answerRead v s).busy = s.busy := rfl
@[simp] theorem answerRead_done : (answerRead v s).done = s.done := rfl
@[simp] theorem answerRead_busyErr : (answerRead v s).busyErr = s.busyErr := rfl
@[simp] theorem answerRead_ramErr : (answerRead v s).ramErr = s.ramErr := rfl
@[simp] theorem answerRead_result : (answerRead v s).result = s.result := rfl
@[simp] theorem answerRead_phase : (answerRead v s).phase = s.phase := rfl
@[simp] theorem answerRead_cursor : (answerRead v s).cursor = s.cursor := rfl
@[simp] theorem answerRead_carrierBase : (answerRead v s).carrierBase = s.carrierBase := rfl
@[simp] theorem answerRead_pixelCount : (answerRead v s).pixelCount = s.pixelCount := rfl
@[simp] theorem answerRead_frameBits : (answerRead v s).frameBits = s.frameBits := rfl
@[simp] theorem answerRead_msgLen : (answerRead v s).msgLen = s.msgLen := rfl
@[simp] theorem answerRead_hdrLen : (answerRead v s).hdrLen = s.hdrLen := rfl
@[simp] theorem answerRead_msgPtr : (answerRead v s).msgPtr = s.msgPtr := rfl
@[simp] theorem answerRead_framePtr : (answerRead v s).framePtr = s.framePtr := rfl
@[simp] theorem answerRead_op : (answerRead v s).op = s.op := rfl
@[simp] theorem answerRead_opIll : (answerRead v s).opIll = s.opIll := rfl
@[simp] theorem answerRead_shift : (answerRead v s).shift = s.shift := rfl
@[simp] theorem answerRead_acc : (answerRead v s).acc = s.acc := rfl
@[simp] theorem answerRead_msg : (answerRead v s).msg = s.msg := rfl
@[simp] theorem answerRead_frame : (answerRead v s).frame = s.frame := rfl
@[simp] theorem answerRead_carrier : (answerRead v s).carrier = s.carrier := rfl
@[simp] theorem answerRead_hostWrites : (answerRead v s).hostWrites = s.hostWrites := rfl
@[simp] theorem answerRead_hostCached : (answerRead v s).hostCached = s.hostCached := rfl
@[simp] theorem answerRead_ramEpoch : (answerRead v s).ramEpoch = s.ramEpoch := rfl
@[simp] theorem answerRead_draws : (answerRead v s).draws = s.draws := rfl
@[simp] theorem answerRead_rst : (answerRead v s).rst = s.rst := rfl
@[simp] theorem answerRead_port : (answerRead v s).port = s.port := rfl
@[simp] theorem answerRead_inputs : (answerRead v s).inputs = s.inputs := rfl
@[simp] theorem answerRead_rdata : (answerRead v s).rdata = v := rfl
@[simp] theorem answerRead_resp : (answerRead v s).resp = .okay := rfl
@[simp] theorem answerRead_hostByte : (answerRead v s).hostByte = s.hostByte := rfl
@[simp] theorem answerRead_portLog : (answerRead v s).portLog = s.portLog := rfl
end

section -- answerWrite
variable (s : State)
@[simp] theorem answerWrite_params : (answerWrite s).params = s.params := rfl
@[simp] theorem answerWrite_ie : (answerWrite s).ie = s.ie := rfl
@[simp] theorem answerWrite_busy : (answerWrite s).busy = s.busy := rfl
@[simp] theorem answerWrite_done : (answerWrite s).done = s.done := rfl
@[simp] theorem answerWrite_busyErr : (answerWrite s).busyErr = s.busyErr := rfl
@[simp] theorem answerWrite_ramErr : (answerWrite s).ramErr = s.ramErr := rfl
@[simp] theorem answerWrite_result : (answerWrite s).result = s.result := rfl
@[simp] theorem answerWrite_phase : (answerWrite s).phase = s.phase := rfl
@[simp] theorem answerWrite_cursor : (answerWrite s).cursor = s.cursor := rfl
@[simp] theorem answerWrite_carrierBase : (answerWrite s).carrierBase = s.carrierBase := rfl
@[simp] theorem answerWrite_pixelCount : (answerWrite s).pixelCount = s.pixelCount := rfl
@[simp] theorem answerWrite_frameBits : (answerWrite s).frameBits = s.frameBits := rfl
@[simp] theorem answerWrite_msgLen : (answerWrite s).msgLen = s.msgLen := rfl
@[simp] theorem answerWrite_hdrLen : (answerWrite s).hdrLen = s.hdrLen := rfl
@[simp] theorem answerWrite_msgPtr : (answerWrite s).msgPtr = s.msgPtr := rfl
@[simp] theorem answerWrite_framePtr : (answerWrite s).framePtr = s.framePtr := rfl
@[simp] theorem answerWrite_op : (answerWrite s).op = s.op := rfl
@[simp] theorem answerWrite_opIll : (answerWrite s).opIll = s.opIll := rfl
@[simp] theorem answerWrite_shift : (answerWrite s).shift = s.shift := rfl
@[simp] theorem answerWrite_acc : (answerWrite s).acc = s.acc := rfl
@[simp] theorem answerWrite_msg : (answerWrite s).msg = s.msg := rfl
@[simp] theorem answerWrite_frame : (answerWrite s).frame = s.frame := rfl
@[simp] theorem answerWrite_carrier : (answerWrite s).carrier = s.carrier := rfl
@[simp] theorem answerWrite_hostWrites : (answerWrite s).hostWrites = s.hostWrites := rfl
@[simp] theorem answerWrite_hostCached : (answerWrite s).hostCached = s.hostCached := rfl
@[simp] theorem answerWrite_ramEpoch : (answerWrite s).ramEpoch = s.ramEpoch := rfl
@[simp] theorem answerWrite_draws : (answerWrite s).draws = s.draws := rfl
@[simp] theorem answerWrite_rst : (answerWrite s).rst = s.rst := rfl
@[simp] theorem answerWrite_port : (answerWrite s).port = s.port := rfl
@[simp] theorem answerWrite_inputs : (answerWrite s).inputs = s.inputs := rfl
@[simp] theorem answerWrite_rdata : (answerWrite s).rdata = s.rdata := rfl
@[simp] theorem answerWrite_resp : (answerWrite s).resp = .okay := rfl
@[simp] theorem answerWrite_hostByte : (answerWrite s).hostByte = s.hostByte := rfl
@[simp] theorem answerWrite_portLog : (answerWrite s).portLog = s.portLog := rfl
end

section -- errorRead
variable (s : State)
@[simp] theorem errorRead_params : (errorRead s).params = s.params := rfl
@[simp] theorem errorRead_ie : (errorRead s).ie = s.ie := rfl
@[simp] theorem errorRead_busy : (errorRead s).busy = s.busy := rfl
@[simp] theorem errorRead_done : (errorRead s).done = s.done := rfl
@[simp] theorem errorRead_busyErr : (errorRead s).busyErr = s.busyErr := rfl
@[simp] theorem errorRead_ramErr : (errorRead s).ramErr = s.ramErr := rfl
@[simp] theorem errorRead_result : (errorRead s).result = s.result := rfl
@[simp] theorem errorRead_phase : (errorRead s).phase = s.phase := rfl
@[simp] theorem errorRead_cursor : (errorRead s).cursor = s.cursor := rfl
@[simp] theorem errorRead_carrierBase : (errorRead s).carrierBase = s.carrierBase := rfl
@[simp] theorem errorRead_pixelCount : (errorRead s).pixelCount = s.pixelCount := rfl
@[simp] theorem errorRead_frameBits : (errorRead s).frameBits = s.frameBits := rfl
@[simp] theorem errorRead_msgLen : (errorRead s).msgLen = s.msgLen := rfl
@[simp] theorem errorRead_hdrLen : (errorRead s).hdrLen = s.hdrLen := rfl
@[simp] theorem errorRead_msgPtr : (errorRead s).msgPtr = s.msgPtr := rfl
@[simp] theorem errorRead_framePtr : (errorRead s).framePtr = s.framePtr := rfl
@[simp] theorem errorRead_op : (errorRead s).op = s.op := rfl
@[simp] theorem errorRead_opIll : (errorRead s).opIll = s.opIll := rfl
@[simp] theorem errorRead_shift : (errorRead s).shift = s.shift := rfl
@[simp] theorem errorRead_acc : (errorRead s).acc = s.acc := rfl
@[simp] theorem errorRead_msg : (errorRead s).msg = s.msg := rfl
@[simp] theorem errorRead_frame : (errorRead s).frame = s.frame := rfl
@[simp] theorem errorRead_carrier : (errorRead s).carrier = s.carrier := rfl
@[simp] theorem errorRead_hostWrites : (errorRead s).hostWrites = s.hostWrites := rfl
@[simp] theorem errorRead_hostCached : (errorRead s).hostCached = s.hostCached := rfl
@[simp] theorem errorRead_ramEpoch : (errorRead s).ramEpoch = s.ramEpoch := rfl
@[simp] theorem errorRead_draws : (errorRead s).draws = s.draws := rfl
@[simp] theorem errorRead_rst : (errorRead s).rst = s.rst := rfl
@[simp] theorem errorRead_port : (errorRead s).port = s.port := rfl
@[simp] theorem errorRead_inputs : (errorRead s).inputs = s.inputs := rfl
@[simp] theorem errorRead_rdata : (errorRead s).rdata = 0#32 := rfl
@[simp] theorem errorRead_resp : (errorRead s).resp = .slverr := rfl
@[simp] theorem errorRead_hostByte : (errorRead s).hostByte = s.hostByte := rfl
@[simp] theorem errorRead_portLog : (errorRead s).portLog = s.portLog := rfl
end

section -- errorWrite
variable (s : State)
@[simp] theorem errorWrite_params : (errorWrite s).params = s.params := rfl
@[simp] theorem errorWrite_ie : (errorWrite s).ie = s.ie := rfl
@[simp] theorem errorWrite_busy : (errorWrite s).busy = s.busy := rfl
@[simp] theorem errorWrite_done : (errorWrite s).done = s.done := rfl
@[simp] theorem errorWrite_busyErr : (errorWrite s).busyErr = s.busyErr := rfl
@[simp] theorem errorWrite_ramErr : (errorWrite s).ramErr = s.ramErr := rfl
@[simp] theorem errorWrite_result : (errorWrite s).result = s.result := rfl
@[simp] theorem errorWrite_phase : (errorWrite s).phase = s.phase := rfl
@[simp] theorem errorWrite_cursor : (errorWrite s).cursor = s.cursor := rfl
@[simp] theorem errorWrite_carrierBase : (errorWrite s).carrierBase = s.carrierBase := rfl
@[simp] theorem errorWrite_pixelCount : (errorWrite s).pixelCount = s.pixelCount := rfl
@[simp] theorem errorWrite_frameBits : (errorWrite s).frameBits = s.frameBits := rfl
@[simp] theorem errorWrite_msgLen : (errorWrite s).msgLen = s.msgLen := rfl
@[simp] theorem errorWrite_hdrLen : (errorWrite s).hdrLen = s.hdrLen := rfl
@[simp] theorem errorWrite_msgPtr : (errorWrite s).msgPtr = s.msgPtr := rfl
@[simp] theorem errorWrite_framePtr : (errorWrite s).framePtr = s.framePtr := rfl
@[simp] theorem errorWrite_op : (errorWrite s).op = s.op := rfl
@[simp] theorem errorWrite_opIll : (errorWrite s).opIll = s.opIll := rfl
@[simp] theorem errorWrite_shift : (errorWrite s).shift = s.shift := rfl
@[simp] theorem errorWrite_acc : (errorWrite s).acc = s.acc := rfl
@[simp] theorem errorWrite_msg : (errorWrite s).msg = s.msg := rfl
@[simp] theorem errorWrite_frame : (errorWrite s).frame = s.frame := rfl
@[simp] theorem errorWrite_carrier : (errorWrite s).carrier = s.carrier := rfl
@[simp] theorem errorWrite_hostWrites : (errorWrite s).hostWrites = s.hostWrites := rfl
@[simp] theorem errorWrite_hostCached : (errorWrite s).hostCached = s.hostCached := rfl
@[simp] theorem errorWrite_ramEpoch : (errorWrite s).ramEpoch = s.ramEpoch := rfl
@[simp] theorem errorWrite_draws : (errorWrite s).draws = s.draws := rfl
@[simp] theorem errorWrite_rst : (errorWrite s).rst = s.rst := rfl
@[simp] theorem errorWrite_port : (errorWrite s).port = s.port := rfl
@[simp] theorem errorWrite_inputs : (errorWrite s).inputs = s.inputs := rfl
@[simp] theorem errorWrite_rdata : (errorWrite s).rdata = s.rdata := rfl
@[simp] theorem errorWrite_resp : (errorWrite s).resp = .slverr := rfl
@[simp] theorem errorWrite_hostByte : (errorWrite s).hostByte = s.hostByte := rfl
@[simp] theorem errorWrite_portLog : (errorWrite s).portLog = s.portLog := rfl
end

section -- readPayloadDone
variable (k : Nat) (v : Bool) (s : State)
@[simp] theorem readPayloadDone_params : (readPayloadDone s k v).params = s.params := rfl
@[simp] theorem readPayloadDone_ie : (readPayloadDone s k v).ie = s.ie := rfl
@[simp] theorem readPayloadDone_busy : (readPayloadDone s k v).busy = s.busy := rfl
@[simp] theorem readPayloadDone_done : (readPayloadDone s k v).done = s.done := rfl
@[simp] theorem readPayloadDone_busyErr : (readPayloadDone s k v).busyErr = s.busyErr := rfl
@[simp] theorem readPayloadDone_ramErr : (readPayloadDone s k v).ramErr = s.ramErr := rfl
@[simp] theorem readPayloadDone_result : (readPayloadDone s k v).result = s.result := rfl
@[simp] theorem readPayloadDone_phase : (readPayloadDone s k v).phase = if k + 1 = s.shift.toNat then .decode else s.phase := rfl
@[simp] theorem readPayloadDone_cursor : (readPayloadDone s k v).cursor = s.cursor + 1 := rfl
@[simp] theorem readPayloadDone_carrierBase : (readPayloadDone s k v).carrierBase = s.carrierBase := rfl
@[simp] theorem readPayloadDone_pixelCount : (readPayloadDone s k v).pixelCount = s.pixelCount := rfl
@[simp] theorem readPayloadDone_frameBits : (readPayloadDone s k v).frameBits = s.frameBits := rfl
@[simp] theorem readPayloadDone_msgLen : (readPayloadDone s k v).msgLen = s.msgLen := rfl
@[simp] theorem readPayloadDone_hdrLen : (readPayloadDone s k v).hdrLen = s.hdrLen := rfl
@[simp] theorem readPayloadDone_msgPtr : (readPayloadDone s k v).msgPtr = s.msgPtr := rfl
@[simp] theorem readPayloadDone_framePtr : (readPayloadDone s k v).framePtr = s.framePtr := rfl
@[simp] theorem readPayloadDone_op : (readPayloadDone s k v).op = s.op := rfl
@[simp] theorem readPayloadDone_opIll : (readPayloadDone s k v).opIll = s.opIll := rfl
@[simp] theorem readPayloadDone_shift : (readPayloadDone s k v).shift = s.shift := rfl
@[simp] theorem readPayloadDone_acc : (readPayloadDone s k v).acc = if (k + 1) % 8 = 0 then 0#8 else shiftInByte s.acc v := rfl
@[simp] theorem readPayloadDone_msg : (readPayloadDone s k v).msg = if (k + 1) % 8 = 0 then Memory.set s.msg ((k + 1) / 8 - 1) (shiftInByte s.acc v) else s.msg := rfl
@[simp] theorem readPayloadDone_frame : (readPayloadDone s k v).frame = s.frame := rfl
@[simp] theorem readPayloadDone_carrier : (readPayloadDone s k v).carrier = s.carrier := rfl
@[simp] theorem readPayloadDone_hostWrites : (readPayloadDone s k v).hostWrites = s.hostWrites := rfl
@[simp] theorem readPayloadDone_hostCached : (readPayloadDone s k v).hostCached = s.hostCached := rfl
@[simp] theorem readPayloadDone_ramEpoch : (readPayloadDone s k v).ramEpoch = s.ramEpoch := rfl
@[simp] theorem readPayloadDone_draws : (readPayloadDone s k v).draws = s.draws := rfl
@[simp] theorem readPayloadDone_rst : (readPayloadDone s k v).rst = s.rst := rfl
@[simp] theorem readPayloadDone_port : (readPayloadDone s k v).port = s.port := rfl
@[simp] theorem readPayloadDone_inputs : (readPayloadDone s k v).inputs = s.inputs := rfl
@[simp] theorem readPayloadDone_rdata : (readPayloadDone s k v).rdata = s.rdata := rfl
@[simp] theorem readPayloadDone_resp : (readPayloadDone s k v).resp = s.resp := rfl
@[simp] theorem readPayloadDone_hostByte : (readPayloadDone s k v).hostByte = s.hostByte := rfl
@[simp] theorem readPayloadDone_portLog : (readPayloadDone s k v).portLog = s.portLog := rfl
end

section -- resetBlock
variable (s : State)
@[simp] theorem resetBlock_params : (resetBlock s).params = s.params := rfl
@[simp] theorem resetBlock_ie : (resetBlock s).ie = false := rfl
@[simp] theorem resetBlock_busy : (resetBlock s).busy = false := rfl
@[simp] theorem resetBlock_done : (resetBlock s).done = false := rfl
@[simp] theorem resetBlock_busyErr : (resetBlock s).busyErr = false := rfl
@[simp] theorem resetBlock_ramErr : (resetBlock s).ramErr = false := rfl
@[simp] theorem resetBlock_result : (resetBlock s).result = .ok := rfl
@[simp] theorem resetBlock_phase : (resetBlock s).phase = .idle := rfl
@[simp] theorem resetBlock_cursor : (resetBlock s).cursor = 0 := rfl
@[simp] theorem resetBlock_carrierBase : (resetBlock s).carrierBase = 0#32 := rfl
@[simp] theorem resetBlock_pixelCount : (resetBlock s).pixelCount = 0#32 := rfl
@[simp] theorem resetBlock_frameBits : (resetBlock s).frameBits = 0#32 := rfl
@[simp] theorem resetBlock_msgLen : (resetBlock s).msgLen = 0#32 := rfl
@[simp] theorem resetBlock_hdrLen : (resetBlock s).hdrLen = 0#32 := rfl
@[simp] theorem resetBlock_msgPtr : (resetBlock s).msgPtr = 0#32 := rfl
@[simp] theorem resetBlock_framePtr : (resetBlock s).framePtr = 0#32 := rfl
@[simp] theorem resetBlock_op : (resetBlock s).op = 0#4 := rfl
@[simp] theorem resetBlock_opIll : (resetBlock s).opIll = false := rfl
@[simp] theorem resetBlock_shift : (resetBlock s).shift = 0#32 := rfl
@[simp] theorem resetBlock_acc : (resetBlock s).acc = 0#8 := rfl
@[simp] theorem resetBlock_msg : (resetBlock s).msg = [] := rfl
@[simp] theorem resetBlock_frame : (resetBlock s).frame = [] := rfl
@[simp] theorem resetBlock_carrier : (resetBlock s).carrier = s.carrier := rfl
@[simp] theorem resetBlock_hostWrites : (resetBlock s).hostWrites = s.hostWrites := rfl
@[simp] theorem resetBlock_hostCached : (resetBlock s).hostCached = s.hostCached := rfl
@[simp] theorem resetBlock_ramEpoch : (resetBlock s).ramEpoch = s.ramEpoch + 1 := rfl
@[simp] theorem resetBlock_draws : (resetBlock s).draws = s.draws := rfl
@[simp] theorem resetBlock_rst : (resetBlock s).rst = s.rst := rfl
@[simp] theorem resetBlock_port : (resetBlock s).port = s.port := rfl
@[simp] theorem resetBlock_inputs : (resetBlock s).inputs = s.inputs := rfl
@[simp] theorem resetBlock_rdata : (resetBlock s).rdata = s.rdata := rfl
@[simp] theorem resetBlock_resp : (resetBlock s).resp = s.resp := rfl
@[simp] theorem resetBlock_hostByte : (resetBlock s).hostByte = s.hostByte := rfl
@[simp] theorem resetBlock_portLog : (resetBlock s).portLog = s.portLog := rfl
end

end Sys2Proof.Machine
end

