-- ==== Sys2Proof/Laws/Memory.lean ====
section
/-!
SUPPORT. The laws of the sparse memories: a read after a write gives the value written, a write leaves every other address alone, and every
memory operation keeps the canonical form and the size bound.
-/

namespace Sys2Proof.Machine

/-- A read of the address just written gives the value written. -/
@[simp] theorem Memory.get?_set_self (m : List Host.Cell) (a : Nat) (v : Byte) : Memory.get? (Memory.set m a v) a = some v := by
  induction m with
  | nil => simp [Memory.set, Memory.get?]
  | cons c m ih =>
    simp only [Memory.set]
    split
    · simp [Memory.get?]
    · split
      · simp [Memory.get?]
      · next h => simpa [Memory.get?, Ne.symm h] using ih

/-- A write leaves every other address alone. -/
theorem Memory.get?_set_of_ne (m : List Host.Cell) {a b : Nat} (v : Byte) (h : b ≠ a) :
    Memory.get? (Memory.set m a v) b = Memory.get? m b := by
  induction m with
  | nil => simp [Memory.set, Memory.get?, Ne.symm h]
  | cons c m ih =>
    simp only [Memory.set]
    split
    · simp [Memory.get?, Ne.symm h]
    · split
      · next hc => subst hc; simp [Memory.get?, Ne.symm h]
      · simp [Memory.get?, ih]

/-- A written address is the one set or one that was listed before. -/
theorem Memory.mem_set {m : List Host.Cell} {a : Nat} {v : Byte} {c : Host.Cell} (h : c ∈ Memory.set m a v) :
    c.1 = a ∨ c ∈ m := by
  induction m with
  | nil => simp only [Memory.set, List.mem_singleton] at h; exact .inl (by rw [h])
  | cons d m ih =>
    simp only [Memory.set] at h
    split at h
    · rcases List.mem_cons.1 h with rfl | h
      · exact .inl rfl
      · exact .inr h
    · split at h
      · rcases List.mem_cons.1 h with rfl | h
        · exact .inl rfl
        · exact .inr (List.mem_cons_of_mem _ h)
      · rcases List.mem_cons.1 h with rfl | h
        · exact .inr (List.mem_cons_self)
        · exact (ih h).imp_right (List.mem_cons_of_mem _)

/-- A write keeps the canonical form. -/
theorem Memory.set_wf {m : List Host.Cell} (h : Memory.wf m) (a : Nat) (v : Byte) : Memory.wf (Memory.set m a v) := by
  induction m with
  | nil => simp [Memory.set, Memory.wf]
  | cons c m ih =>
    obtain ⟨hc, hm⟩ := List.pairwise_cons.1 h
    simp only [Memory.set]
    split
    · next hlt =>
      refine List.pairwise_cons.2 ⟨fun d hd => ?_, h⟩
      rcases List.mem_cons.1 hd with rfl | hd
      · exact hlt
      · exact Nat.lt_trans hlt (hc d hd)
    · next hge =>
      split
      · next heq => exact List.pairwise_cons.2 ⟨fun d hd => heq ▸ hc d hd, hm⟩
      · next hne =>
        refine List.pairwise_cons.2 ⟨fun d hd => ?_, ih hm⟩
        rcases Memory.mem_set hd with hd | hd
        · omega
        · exact hc d hd

/-- A write below the bound keeps every listed address below it. -/
theorem Memory.set_below {m : List Host.Cell} {n a : Nat} (h : Memory.below m n) (ha : a < n) (v : Byte) :
    Memory.below (Memory.set m a v) n := fun c hc => by
  rcases Memory.mem_set hc with hc | hc
  · omega
  · exact h c hc

/-- A block write keeps the canonical form. -/
theorem Memory.fill_wf {m : List Host.Cell} (h : Memory.wf m) (base : Nat) (f : Nat → Byte) (n : Nat) :
    Memory.wf (Memory.fill m base f n) := by
  induction n with
  | zero => exact h
  | succ n ih => exact Memory.set_wf ih _ _

/-- A block write that ends within the bound keeps every listed address below it. -/
theorem Memory.fill_below {m : List Host.Cell} {bound base n : Nat} (h : Memory.below m bound) (hn : base + n ≤ bound) (f : Nat → Byte) :
    Memory.below (Memory.fill m base f n) bound := by
  induction n with
  | zero => exact h
  | succ n ih => exact Memory.set_below (ih (by omega)) (by omega) _

/-- A block write gives each address of the block its byte. -/
theorem Memory.get?_fill (m : List Host.Cell) (base : Nat) (f : Nat → Byte) {n i : Nat} (h : i < n) :
    Memory.get? (Memory.fill m base f n) (base + i) = some (f i) := by
  induction n with
  | zero => omega
  | succ n ih =>
    rw [Memory.fill]
    by_cases hi : i = n
    · subst hi; exact Memory.get?_set_self _ _ _
    · rw [Memory.get?_set_of_ne _ _ (by omega)]
      exact ih (by omega)

/-- A block write leaves every address outside the block alone. -/
theorem Memory.get?_fill_outside (m : List Host.Cell) (base : Nat) (f : Nat → Byte) {n a : Nat} (h : a < base ∨ base + n ≤ a) :
    Memory.get? (Memory.fill m base f n) a = Memory.get? m a := by
  induction n with
  | zero => rfl
  | succ n ih =>
    rw [Memory.fill, Memory.get?_set_of_ne _ _ (by omega)]
    exact ih (by omega)

/-- An erased address is listed no more. -/
@[simp] theorem Memory.get?_erase_self (m : List Host.Cell) (a : Nat) : Memory.get? (Memory.erase m a) a = none := by
  induction m with
  | nil => rfl
  | cons c m ih =>
    simp only [Memory.erase]
    split
    · exact ih
    · next h => simpa [Memory.get?, h] using ih

/-- Erasing one address leaves every other alone. -/
theorem Memory.get?_erase_of_ne (m : List Host.Cell) {a b : Nat} (h : b ≠ a) :
    Memory.get? (Memory.erase m a) b = Memory.get? m b := by
  induction m with
  | nil => rfl
  | cons c m ih =>
    simp only [Memory.erase]
    split
    · next hc => simpa [Memory.get?, hc, Ne.symm h] using ih
    · simp [Memory.get?, ih]

/-- An entry that erasing leaves was there before. -/
theorem Memory.mem_erase {m : List Host.Cell} {a : Nat} {c : Host.Cell} (h : c ∈ Memory.erase m a) : c ∈ m := by
  induction m with
  | nil => exact h
  | cons d m ih =>
    simp only [Memory.erase] at h
    split at h
    · exact List.mem_cons_of_mem _ (ih h)
    · rcases List.mem_cons.1 h with rfl | h
      · exact List.mem_cons_self
      · exact List.mem_cons_of_mem _ (ih h)

/-- Erasing keeps the canonical form. -/
theorem Memory.erase_wf {m : List Host.Cell} (h : Memory.wf m) (a : Nat) : Memory.wf (Memory.erase m a) := by
  induction m with
  | nil => exact h
  | cons c m ih =>
    obtain ⟨hc, hm⟩ := List.pairwise_cons.1 h
    simp only [Memory.erase]
    split
    · exact ih hm
    · exact List.pairwise_cons.2 ⟨fun d hd => hc d (Memory.mem_erase hd), ih hm⟩

/-- Erasing keeps every listed address below the bound. -/
theorem Memory.erase_below {m : List Host.Cell} {n : Nat} (h : Memory.below m n) (a : Nat) : Memory.below (Memory.erase m a) n :=
  fun c hc => h c (Memory.mem_erase hc)

/-- msg[i] after msg[i] <- v. -/
@[simp] theorem readMsg_writeMsg_self (s : State) (i : Nat) (v : Byte) : readMsg (writeMsg i v s) i = v := by
  simp [readMsg]

/-- msg[j] after msg[i] <- v, for another j. -/
theorem readMsg_writeMsg_of_ne (s : State) {i j : Nat} (v : Byte) (h : j ≠ i) : readMsg (writeMsg i v s) j = readMsg s j := by
  simp [readMsg, Memory.get?_set_of_ne _ _ h]

/-- frame[i] after frame[i] <- v. -/
@[simp] theorem readFrame_writeFrame_self (s : State) (i : Nat) (v : Byte) : readFrame (writeFrame i v s) i = v := by
  simp [readFrame]

/-- frame[j] after frame[i] <- v, for another j. -/
theorem readFrame_writeFrame_of_ne (s : State) {i j : Nat} (v : Byte) (h : j ≠ i) :
    readFrame (writeFrame i v s) j = readFrame s j := by
  simp [readFrame, Memory.get?_set_of_ne _ _ h]

/-- The carrier byte at `a` after a write there. -/
@[simp] theorem readCarrier_writeCarrier_self (s : State) (a : Nat) (v : Byte) : readCarrier (writeCarrier a v s) a = v := by
  simp [readCarrier]

/-- The carrier byte at `b` after a write at another address. -/
theorem readCarrier_writeCarrier_of_ne (s : State) {a b : Nat} (v : Byte) (h : b ≠ a) :
    readCarrier (writeCarrier a v s) b = readCarrier s b := by
  simp [readCarrier, Memory.get?_set_of_ne _ _ h]

/-- The byte of a write whose outcome is open holds its new or its old value. -/
theorem readCarrier_writeCarrierDrawn_self (s : State) (a : Nat) (v : Byte) :
    readCarrier (writeCarrierDrawn a v s) a = v ∨ readCarrier (writeCarrierDrawn a v s) a = readCarrier s a := by
  cases h : Config.writeLands s.draws <;> simp [readCarrier, h]

/-- A write whose outcome is open leaves every other carrier byte alone. -/
theorem readCarrier_writeCarrierDrawn_of_ne (s : State) {a b : Nat} (v : Byte) (h : b ≠ a) :
    readCarrier (writeCarrierDrawn a v s) b = readCarrier s b := by
  simp [readCarrier, Memory.get?_set_of_ne _ _ h]

/-- The memories of the state after reset are canonical. -/
theorem reset_memories_wf :
    Memory.wf State.reset.msg ∧ Memory.wf State.reset.frame ∧ Memory.wf State.reset.carrier ∧
      Memory.wf State.reset.hostWrites ∧ Memory.wf State.reset.hostCached :=
  ⟨.nil, .nil, .nil, .nil, .nil⟩

end Sys2Proof.Machine
end

