-- ==== Sys2Proof/Laws/Ops.lean ====
section
/-!
SUPPORT. One lemma per shared operation that says what it can do, and one per agent that says what a step can be; provers cite these and
do not unfold the operations.
-/

namespace Sys2Proof.Machine

/-- Inside `whenRunning` the step runs where BUSY = 1 and RST is low. -/
theorem whenRunning_of_running {s : State} {k : Host.Outcome State Fault Refusal} (hb : s.busy = true) (hr : s.rst = false) :
    whenRunning s k = k := by
  simp [whenRunning, hb, hr]

/-- If a guarded engine step answers a next state, the engine was running and the step itself answered it. -/
theorem whenRunning_next {s t : State} {k : Host.Outcome State Fault Refusal} (h : whenRunning s k = .next t) :
    s.busy = true ∧ s.rst = false ∧ k = .next t := by
  unfold whenRunning at h
  split at h
  · next hg => exact ⟨hg.1, hg.2, h⟩
  · cases h

/-- START answers RANGE where a check fails and the continuation where none does. -/
theorem startChecked_next {checks : List Bool} {c s t : State} (h : startChecked checks c s = .next t) :
    (true ∈ checks ∧ t = finish .range s) ∨ (true ∉ checks ∧ t = c) := by
  unfold startChecked at h
  split at h
  · next hc =>
    obtain ⟨b, hb, hi⟩ := List.any_eq_true.1 hc
    simp only [id] at hi
    subst hi
    exact .inl ⟨hb, (Host.Outcome.next.inj h).symm⟩
  · next hc =>
    refine .inr ⟨fun hm => hc (List.any_eq_true.2 ⟨true, hm, rfl⟩), (Host.Outcome.next.inj h).symm⟩

/-- START always answers a next state. -/
theorem startChecked_answers (checks : List Bool) (c s : State) : ∃ t, startChecked checks c s = .next t := by
  unfold startChecked
  split
  · exact ⟨_, rfl⟩
  · exact ⟨_, rfl⟩

/-- The latched command is always one of the commands. -/
theorem latched_isCommand {s : State} {i : Instr} (h : latched s = some i) : i.isCommand = true := by
  unfold latched decodeLatched instrOfOpcode at h
  repeat' (split at h)
  all_goals first | (simp only [Except.toOption, Option.some.injEq] at h; subst h; rfl) | simp [Except.toOption] at h

/-- What the engine's step is: the latched command's, BAD_CMD for an illegal word, or nothing while none is enabled. -/
theorem engineStep_cases (s : State) :
    (s.busy = true ∧ s.rst = false ∧ ∃ i, latched s = some i ∧ i.isCommand = true ∧ engineStep s = exec i s) ∨
    (s.busy = true ∧ s.rst = false ∧ latched s = none ∧ engineStep s = execIllegal s) ∨
    (¬(s.busy = true ∧ s.rst = false) ∧ engineStep s = .next s) := by
  by_cases hg : s.busy = true ∧ s.rst = false
  · cases hl : latched s with
    | some i => exact .inl ⟨hg.1, hg.2, i, rfl, latched_isCommand hl, by simp [engineStep, hg, hl]⟩
    | none => exact .inr (.inl ⟨hg.1, hg.2, rfl, by simp [engineStep, hg, hl]⟩)
  · exact .inr (.inr ⟨hg, by simp [engineStep, hg]⟩)

/-- A HOST transaction within the window is RD or WR at its offset; outside the window nothing happens. -/
theorem hostTransaction_cases (address : Nat) (dir : Dir) (size : Nat) (wdata : Word) (s : State) :
    (∃ offset, windowOffset s.params address = some offset ∧
      ((dir = .read ∧ hostTransaction address dir size wdata s = execRd offset size s) ∨
       (dir = .write ∧ hostTransaction address dir size wdata s = execWr offset size wdata s))) ∨
    (windowOffset s.params address = none ∧ hostTransaction address dir size wdata s = .next s) := by
  unfold hostTransaction
  cases hw : windowOffset s.params address with
  | some offset =>
    refine .inl ⟨offset, rfl, ?_⟩
    cases dir with
    | read => exact .inl ⟨rfl, rfl⟩
    | write => exact .inr ⟨rfl, rfl⟩
  | none => exact .inr ⟨rfl, rfl⟩

/-- What an RD that answers a next state did. -/
theorem execRd_next {offset : BitVec 8} {size : Nat} {s t : State} (h : execRd offset size s = .next t) :
    s.rst = false ∧ (((Instr.rd offset size).wf = true ∧ t = readReg (regAt offset) s) ∨
      ((Instr.rd offset size).wf = false ∧ t = errorRead s)) := by
  unfold execRd at h
  split at h
  · cases h
  · next hr =>
    refine ⟨by simpa using hr, ?_⟩
    split at h
    · next hw => exact .inl ⟨hw, (Host.Outcome.next.inj h).symm⟩
    · next hw => exact .inr ⟨Bool.of_not_eq_true hw, (Host.Outcome.next.inj h).symm⟩

/-- What a WR that answers a next state did. -/
theorem execWr_next {offset : BitVec 8} {size : Nat} {w : Word} {s t : State} (h : execWr offset size w s = .next t) :
    s.rst = false ∧ (((Instr.wr offset size w).wf = true ∧ t = writeReg (regAt offset) w s) ∨
      ((Instr.wr offset size w).wf = false ∧ t = errorWrite s)) := by
  unfold execWr at h
  split at h
  · cases h
  · next hr =>
    refine ⟨by simpa using hr, ?_⟩
    split at h
    · next hw => exact .inl ⟨hw, (Host.Outcome.next.inj h).symm⟩
    · next hw => exact .inr ⟨Bool.of_not_eq_true hw, (Host.Outcome.next.inj h).symm⟩

/-- What a register write is: dropped with BUSYERR, or stored; OKAY in both cases. -/
theorem writeReg_cases (r : Reg) (w : Word) (s : State) :
    (writeDropped r s = true ∧ writeReg r w s = answerWrite (setBusyErr s)) ∨
    (writeDropped r s = false ∧ writeReg r w s = answerWrite (storeReg r w s)) := by
  cases h : writeDropped r s
  · exact .inr ⟨rfl, by simp [writeReg, h]⟩
  · exact .inl ⟨rfl, by simp [writeReg, h]⟩

/-- A read of MSG_DATA: locked out, in range, or out of range. -/
theorem readMsgPort_cases (s : State) :
    (s.busy = true ∧ readMsgPort s = answerRead 0#32 (setBusyErr s)) ∨
    (s.busy = false ∧ s.msgPtr.toNat < s.params.msgCap ∧
      readMsgPort s = answerRead ((readMsg s s.msgPtr.toNat).setWidth 32) (advanceMsgPtr s)) ∨
    (s.busy = false ∧ s.params.msgCap ≤ s.msgPtr.toNat ∧
      readMsgPort s = answerRead 0#32 (setRamErr (advanceMsgPtr s))) := by
  cases hb : s.busy
  · by_cases hp : s.msgPtr.toNat < s.params.msgCap
    · exact .inr (.inl ⟨rfl, hp, by simp [readMsgPort, hb, hp]⟩)
    · exact .inr (.inr ⟨rfl, by omega, by simp [readMsgPort, hb, hp]⟩)
  · exact .inl ⟨rfl, by simp [readMsgPort, hb]⟩

/-- A read of FRAME_DATA: locked out, in range, or out of range. -/
theorem readFramePort_cases (s : State) :
    (s.busy = true ∧ readFramePort s = answerRead 0#32 (setBusyErr s)) ∨
    (s.busy = false ∧ s.framePtr.toNat < s.params.frameCap ∧
      readFramePort s = answerRead ((readFrame s s.framePtr.toNat).setWidth 32) (advanceFramePtr s)) ∨
    (s.busy = false ∧ s.params.frameCap ≤ s.framePtr.toNat ∧
      readFramePort s = answerRead 0#32 (setRamErr (advanceFramePtr s))) := by
  cases hb : s.busy
  · by_cases hp : s.framePtr.toNat < s.params.frameCap
    · exact .inr (.inl ⟨rfl, hp, by simp [readFramePort, hb, hp]⟩)
    · exact .inr (.inr ⟨rfl, by omega, by simp [readFramePort, hb, hp]⟩)
  · exact .inl ⟨rfl, by simp [readFramePort, hb]⟩

/-- A register read other than a data port's only answers. -/
theorem readReg_of_not_port {r : Reg} (s : State) (hm : r ≠ .msgData) (hf : r ≠ .frameData) :
    readReg r s = answerRead (regValue s r) s := by
  cases r <;> first | rfl | exact absurd rfl hm | exact absurd rfl hf

/-- A completed WRITE step as one record: what it changes, and nothing else (spec/43_embedder.md R173). -/
theorem writeBitDone_eq (a : Nat) (v : Byte) (s : State) :
    writeBitDone a v s =
      if s.cursor + 1 = s.frameBits.toNat then
        { s with
          carrier := Memory.set s.carrier a v, cursor := s.cursor + 1, result := .ok, done := true, busy := false, phase := .idle }
      else { s with carrier := Memory.set s.carrier a v, cursor := s.cursor + 1, phase := writePhase (s.cursor + 1) } := rfl

/-- The two accesses of a WRITE step in the log, as one record. -/
theorem logAccess_logAccess (e e' : Access) (s : State) :
    logAccess e' (logAccess e s) = { s with portLog := s.portLog ++ [e, e'] } := by
  simp [logAccess]

/-- What a WRITE step that answers a next state did, by the port's response. -/
theorem writeBitStep_next {s t : State} (h : writeBitStep s = .next t) :
    s.cursor / 8 < s.params.frameCap ∧ byteAddr s s.cursor < s.params.carrierSize ∧
      ((s.port = .readError ∧ t = finish .busError (logAccess (.read (byteAddr s s.cursor)) s)) ∨
       (s.port = .writeError ∧ t = finish .busError (writeCarrierDrawn (byteAddr s s.cursor) (embeddedByte s s.cursor)
          (logAccess (.write (byteAddr s s.cursor) (embeddedByte s s.cursor)) (logAccess (.read (byteAddr s s.cursor)) s)))) ∨
       (s.port = .okay ∧ t = writeBitDone (byteAddr s s.cursor) (embeddedByte s s.cursor)
          (logAccess (.write (byteAddr s s.cursor) (embeddedByte s s.cursor)) (logAccess (.read (byteAddr s s.cursor)) s)))) := by
  simp only [writeBitStep, ge_iff_le] at h
  split at h
  · cases h
  · split at h
    · cases h
    · refine ⟨by omega, by omega, ?_⟩
      cases hp : s.port <;> rw [hp] at h <;> simp only [Host.Outcome.next.injEq] at h
      · exact .inr (.inr ⟨rfl, h.symm⟩)
      · exact .inl ⟨rfl, h.symm⟩
      · exact .inr (.inl ⟨rfl, h.symm⟩)

/-- The step function: the oldest event, or the engine's step. -/
theorem step_eq (s : State) :
    (s.inputs = [] ∧ step s = engineStep { s with portLog := [] }) ∨
    (∃ e rest, s.inputs = e :: rest ∧ step s = handle e { s with inputs := rest, portLog := [] }) := by
  cases h : s.inputs with
  | nil => exact .inl ⟨rfl, by simp [step, stepBody, h]⟩
  | cons e rest => exact .inr ⟨e, rest, rfl, by simp [step, stepBody, h]⟩

/-- What a register write can never change, whichever register it names. -/
theorem storeReg_frame (r : Reg) (w : Word) (s : State) :
    (storeReg r w s).params = s.params ∧ (storeReg r w s).hdrLen = s.hdrLen ∧ (storeReg r w s).shift = s.shift ∧
      (storeReg r w s).acc = s.acc ∧ (storeReg r w s).carrier = s.carrier ∧
      (storeReg r w s).hostWrites = s.hostWrites ∧ (storeReg r w s).hostCached = s.hostCached ∧ (storeReg r w s).ramEpoch = s.ramEpoch ∧
      (storeReg r w s).draws = s.draws ∧ (storeReg r w s).rst = s.rst ∧ (storeReg r w s).port = s.port ∧
      (storeReg r w s).inputs = s.inputs ∧ (storeReg r w s).rdata = s.rdata ∧ (storeReg r w s).resp = s.resp ∧
      (storeReg r w s).hostByte = s.hostByte ∧ (storeReg r w s).portLog = s.portLog := by
  cases r
  case msgData => simp only [storeReg, writeMsgPort]; split <;> simp
  case frameData => simp only [storeReg, writeFramePort]; split <;> simp
  all_goals simp [storeReg]

/-- A register read changes at most the error flags, the two pointers and the answer. -/
theorem readReg_frame (r : Reg) (s : State) :
    readReg r s = { s with
      busyErr := (readReg r s).busyErr, ramErr := (readReg r s).ramErr, msgPtr := (readReg r s).msgPtr
      framePtr := (readReg r s).framePtr, rdata := (readReg r s).rdata, resp := .okay } := by
  cases r
  case msgData => obtain ⟨_, h⟩ | ⟨_, _, h⟩ | ⟨_, _, h⟩ := readMsgPort_cases s <;> simp only [readReg, h] <;> rfl
  case frameData => obtain ⟨_, h⟩ | ⟨_, _, h⟩ | ⟨_, _, h⟩ := readFramePort_cases s <;> simp only [readReg, h] <;> rfl
  all_goals rfl

/-- Asserting RST leaves every carrier byte alone but that of a write in flight, which holds its new or its old value. -/
theorem assertReset_carrier (s : State) (a : Nat) :
    readCarrier (assertReset s) a = readCarrier s a ∨
      (writeInFlight s = true ∧ a = byteAddr s s.cursor ∧ readCarrier (assertReset s) a = embeddedByte s s.cursor) := by
  by_cases h : writeInFlight s = true
  · have e : readCarrier (assertReset s) a =
        readCarrier (writeCarrierDrawn (byteAddr s s.cursor) (embeddedByte s s.cursor) s) a := by
      simp [assertReset, h, readCarrier]
    rw [e]
    by_cases ha : a = byteAddr s s.cursor
    · subst ha
      exact (readCarrier_writeCarrierDrawn_self s _ _).symm.imp id fun hn => ⟨h, rfl, hn⟩
    · exact .inl (readCarrier_writeCarrierDrawn_of_ne s _ ha)
  · exact .inl (by simp [assertReset, h, readCarrier])

/-- BE32 as the sum of spec/00_scope.md R17. -/
theorem be32_toNat (b0 b1 b2 b3 : Byte) :
    (be32 b0 b1 b2 b3).toNat = b0.toNat * 2 ^ 24 + b1.toNat * 2 ^ 16 + b2.toNat * 2 ^ 8 + b3.toNat := by
  simp only [be32, BitVec.toNat_append]
  rw [← Nat.shiftLeft_add_eq_or_of_lt b3.isLt, ← Nat.shiftLeft_add_eq_or_of_lt b2.isLt,
    ← Nat.shiftLeft_add_eq_or_of_lt b1.isLt]
  simp only [Nat.shiftLeft_eq]
  omega

/-- What PACK writes to FRAME_BITS where it fits the register (spec/41_framer.md R142). -/
theorem packedFrameBits_toNat {n : Nat} (h : 32 + 8 * n < 2 ^ 32) : (packedFrameBits n).toNat = 32 + 8 * n := by
  rw [packedFrameBits, if_pos h, BitVec.toNat_ofNat, Nat.mod_eq_of_lt h]

/-- In a legal instance every message's frame fits FRAME_BITS (spec/00_scope.md R9). -/
theorem frameBits_fit_of_legal {p : Params} (h : p.legal) {n : Nat} (hn : n ≤ p.msgCap) : 32 + 8 * n < 2 ^ 32 := by
  have := h.2
  omega

/-- On a coherent platform every path sees the carrier (spec/20_memory.md R96). -/
theorem seenVia_of_coherent {s : State} (h : s.params.coherent = true) (via : Via) (a : Nat) : seenVia via s a = readCarrier s a := by
  simp [seenVia, h]

/-- Everything a direct read that is answered can do (spec/45_host_access.md R230). -/
theorem hostCarrierRead_next {a : Nat} {via : Via} {s t : State} (h : hostCarrierRead a via s = .next t) :
    a < s.params.carrierSize ∧ readRaces s a = false ∧
      t = { s with
        hostByte := seenVia via s a, hostCached := if via = .maintained then Memory.erase s.hostCached a else s.hostCached } := by
  simp only [hostCarrierRead] at h
  split at h
  · cases h
  · split at h
    · cases h
    · next ha hr =>
      refine ⟨by omega, by simpa using hr, ?_⟩
      cases h
      cases via <;> rfl

/-- Everything a direct write that is answered can do (spec/45_host_access.md R230). -/
theorem hostCarrierWrite_next {a : Nat} {v : Byte} {via : Via} {s t : State} (h : hostCarrierWrite a v via s = .next t) :
    a < s.params.carrierSize ∧ writeRaces s a = false ∧
      (((s.params.coherent = true ∨ via = .port) ∧ t = writeCarrier a v s) ∨
       (s.params.coherent = false ∧ via = .cached ∧ t = holdHostWrite a v s) ∨
       (s.params.coherent = false ∧ via = .maintained ∧ t = writeThrough a v s)) := by
  simp only [hostCarrierWrite] at h
  split at h
  · cases h
  · split at h
    · cases h
    · next ha hr =>
      refine ⟨by omega, by simpa using hr, ?_⟩
      cases hc : s.params.coherent <;> cases via <;> simp_all

/-- Everything a move of the host's copy can do (spec/20_memory.md R96). -/
theorem hostCacheMove_next {a : Nat} {move : CacheMove} {s t : State} (h : hostCacheMove a move s = .next t) :
    a < s.params.carrierSize ∧
      (t = s ∨
       (s.params.coherent = false ∧
         ((move = .fill ∧ t = fillCopy a s) ∨ (move = .discard ∧ t = discardCopy a s) ∨
          (move = .writeBack ∧ writeRaces s a = false ∧ ∃ v, Memory.get? s.hostWrites a = some v ∧ t = writeThrough a v s)))) := by
  simp only [hostCacheMove] at h
  split at h
  · cases h
  · refine ⟨by omega, ?_⟩
    split at h
    · cases h; exact .inl rfl
    · next hc =>
      have hc : s.params.coherent = false := by simpa using hc
      split at h
      · cases h; exact .inr ⟨hc, .inl ⟨rfl, rfl⟩⟩
      · cases h; exact .inr ⟨hc, .inr (.inl ⟨rfl, rfl⟩)⟩
      · cases h; exact .inl rfl
      · next v hv =>
        split at h
        · cases h
        · next hr => cases h; exact .inr ⟨hc, .inr (.inr ⟨rfl, by simpa using hr, v, hv, rfl⟩)⟩

/-- A level of RST that it already has is no edge (notes/assumptions/12.md). -/
@[simp] theorem changeRst_self (s : State) : changeRst s.rst s = s := by simp [changeRst]

/-- Everything a level of RST can do: nothing, an assertion, or a deassertion (spec/70_reset_and_hazards.md R270). -/
theorem changeRst_cases (level : Bool) (s : State) :
    (level = s.rst ∧ changeRst level s = s) ∨ (level = true ∧ s.rst = false ∧ changeRst level s = assertReset s) ∨
      (level = false ∧ s.rst = true ∧ changeRst level s = deassertReset s) := by
  cases level <;> cases h : s.rst <;> simp [changeRst, h]

/-- Everything the PACK step can do (spec/41_framer.md R142). -/
theorem packStep_next {s t : State} (h : packStep s = .next t) :
    s.msgLen.toNat ≤ s.params.msgCap ∧ t = finish .ok (packMessage s.msgLen.toNat s) := by
  simp only [packStep] at h
  split at h
  · cases h
  · next hn => exact ⟨by omega, by cases h; rfl⟩

/-- Everything the UNPACK step can do (spec/41_framer.md R147). -/
theorem unpackStep_next {s t : State} (h : unpackStep s = .next t) :
    (s.frameBits.toNat < 32 ∧ t = finish .short s) ∨
    (32 ≤ s.frameBits.toNat ∧ s.frameBits.toNat < 32 + (frameHeader s).toNat ∧ t = finish .short (setHdrLen (frameHeader s) s)) ∨
    (32 + (frameHeader s).toNat ≤ s.frameBits.toNat ∧ (frameHeader s).toNat / 8 ≤ s.params.msgCap ∧
      t = finish .ok (unpackedMessage s ((frameHeader s).toNat / 8) (setHdrLen (frameHeader s) s))) := by
  simp only [unpackStep] at h
  split at h
  · next hb => cases h; exact .inl ⟨hb, rfl⟩
  · next hb =>
    split at h
    · next hl => cases h; exact .inr (.inl ⟨by omega, hl, rfl⟩)
    · split at h
      · cases h
      · next hl hn => cases h; exact .inr (.inr ⟨by omega, by omega, rfl⟩)

end Sys2Proof.Machine
end

