-- ==== Sys2Proof/Laws/PerInstr.lean ====
section
/-!
SUPPORT. What holds of every instruction as syntax, one lemma per constructor: the encoding has the instruction's format, decoding it gives
the instruction back, and a command's CMD word is not illegal.
-/

namespace Sys2Proof.Laws.EncodingForm

/-- The encoding of an instruction is a CMD word exactly for a command (spec/30_encoding.md R100), the decoder reads the instruction back
from it, and a command's word does not latch OPILL (spec/40_command.md R121). -/
def Statement (i : Instr) : Prop :=
  decode (encode i) = .ok i ∧
    match encode i with
    | .cmd w => i.isCommand = true ∧ cmdIllegal w = false
    | .host _ => i.isCommand = false

theorem nop : Statement .nop := ⟨rfl, rfl, rfl⟩
theorem pack : Statement .pack := ⟨rfl, rfl, rfl⟩
theorem unpack : Statement .unpack := ⟨rfl, rfl, rfl⟩
theorem check : Statement .check := ⟨rfl, rfl, rfl⟩
theorem embed : Statement .embed := ⟨rfl, rfl, rfl⟩
theorem extract : Statement .extract := ⟨rfl, rfl, rfl⟩
theorem rd (offset : BitVec 8) (size : Nat) : Statement (.rd offset size) := ⟨rfl, rfl⟩
theorem wr (offset : BitVec 8) (size : Nat) (wdata : Word) : Statement (.wr offset size wdata) := ⟨rfl, rfl⟩

end Sys2Proof.Laws.EncodingForm
end

