-- ==== Sys2Proof/Tests/Slice0.lean ====
section
/-!
SUPPORT. Tests of the model's own work. The expected values are those of spec/95_test_vectors.md, each cited, or are written out from the
encoding tables. The witnesses after them show, for each statement that has hypotheses, a concrete state that meets them.
-/

namespace Sys2Proof.Tests

open Sys2Proof.Machine

/-! ### Well-formedness: an ill-formed term for each check -/

/-- V-HST-2: a byte access. -/
theorem test_wf_refuses_a_byte_access : (Instr.wr 0x30#8 1 0x55#32).wf = false := by decide
/-- V-HST-3: a misaligned word. -/
theorem test_wf_refuses_a_misaligned_word : (Instr.rd 0x2E#8 4).wf = false := by decide
theorem test_wf_accepts_an_aligned_word : (Instr.rd 0x2C#8 4).wf = true ∧ (Instr.wr 0xFC#8 4 0#32).wf = true := by decide

/-! ### Decoding: words written out from spec/30_encoding.md R102 and R103 -/

theorem test_decode_nop : decodeTableWord 32 0b00000000000000000000000000000000 = some .nop := by decide
theorem test_decode_pack : decodeTableWord 32 0b00000000000000000000000000000001 = some .pack := by decide
theorem test_decode_unpack : decodeTableWord 32 0b00000000000000000000000000000010 = some .unpack := by decide
theorem test_decode_check : decodeTableWord 32 0b00000000000000000000000000000011 = some .check := by decide
theorem test_decode_embed : decodeTableWord 32 0b00000000000000000000000000000100 = some .embed := by decide
theorem test_decode_extract : decodeTableWord 32 0b00000000000000000000000000000101 = some .extract := by decide
/-- V-CMD-2, V-CMD-3: reserved opcodes. -/
theorem test_decode_reserved_opcode :
    (decodeCmd 0x00000007#32).toOption = none ∧ (decodeCmd 0x0000000F#32).toOption = none := by decide
/-- V-CMD-4, V-CMD-5: a reserved bit set. -/
theorem test_decode_reserved_bits :
    (decodeCmd 0x00000014#32).toOption = none ∧ (decodeCmd 0x80000001#32).toOption = none := by decide
/-- Program P1 row 4: DIR = 1, OFFSET = 0x24, WDATA = 2, SIZE = 4, in the layout of notes/assumptions/7.md. -/
theorem test_decode_wr : decodeTableWord 56 0x00000002042401 = some (.wr 0x24#8 4 2#32) := by decide
/-- Program P2 row 8: DIR = 0, OFFSET = 0x24. -/
theorem test_decode_rd : decodeTableWord 56 0x00000000042400 = some (.rd 0x24#8 4) := by decide
theorem test_decode_window : windowOffset { Params.reference with hostBase := 0x4000 } 0x40FC = some 0xFC#8 ∧
    windowOffset { Params.reference with hostBase := 0x4000 } 0x4100 = none := by decide

/-! ### Addresses, bits and flags -/

/-- CARRIER_BASE = 0x1000 and PIXEL_COUNT = 20, the setting of spec/95_test_vectors.md section 2.1. -/
def twenty : State := { State.reset with carrierBase := 0x1000#32, pixelCount := 20#32 }

/-- V-ADR rows 2, 3, 31, 32, 33 and 59. -/
theorem test_byte_addresses :
    byteAddr twenty 2 = 0x1002 ∧ byteAddr twenty 3 = 0x1004 ∧ byteAddr twenty 31 = 0x1029 ∧ byteAddr twenty 32 = 0x102A ∧
      byteAddr twenty 33 = 0x102C ∧ byteAddr twenty 59 = 0x104E := by decide
/-- V-LSB-1 to V-LSB-6. -/
theorem test_lsb_replacement :
    replaceLsb 0xFF#8 false = 0xFE#8 ∧ replaceLsb 0x00#8 true = 0x01#8 ∧ replaceLsb 0x7E#8 true = 0x7F#8 ∧
      replaceLsb 0x81#8 true = 0x81#8 ∧ replaceLsb 0x80#8 false = 0x80#8 ∧ replaceLsb 0x5A#8 true = 0x5B#8 := by decide
/-- The frame of "Hi", F_Hi. -/
def hiFrame : List Host.Cell := [(0, 0x00#8), (1, 0x00#8), (2, 0x00#8), (3, 0x10#8), (4, 0x48#8), (5, 0x69#8)]
/-- F_Hi's 1-bits are at bit addresses 27, 33, 36, 41, 42, 44 and 47. -/
theorem test_frame_bits :
    (List.range 48).filter (fbit { State.reset with frame := hiFrame }) = [27, 33, 36, 41, 42, 44, 47] := by decide
/-- V-CMD-6: STATUS after an accepted EMBED reads 0xF1; V-CMD-7: 0x06 with BUSYERR. -/
theorem test_status_words :
    statusWord (accept 4#32 State.reset) = 0xF1#32 ∧
      statusWord { finish .ok State.reset with busyErr := true } = 0x06#32 := by decide

/-! ### One step of each instruction -/

/-- What a test reads off an answer that is a next state. -/
def look {α : Type} (f : State → α) : Answer → Option α
  | .next t => some (f t)
  | .fault _ => none
  | .refused _ => none

/-- A running command: its opcode and the phase it is in. -/
def running (op : BitVec 4) (phase : Phase) (s : State) : State :=
  { s with op := op, busy := true, result := .pending, phase := phase }

/-- V-CMD-1. -/
theorem test_nop : look statusWord (exec .nop (running 0x0#4 .start State.reset)) = some 0x02#32 := by decide
/-- V-CMD-4: BAD_CMD, STATUS 0x72. -/
theorem test_illegal_word : look statusWord (step (accept 0x00000014#32 State.reset)) = some 0x72#32 := by decide
/-- V-PACK-1. -/
def packHi : State := running 0x1#4 .pack { State.reset with msg := [(0, 0x48#8), (1, 0x69#8)], msgLen := 2#32 }
theorem test_pack_hi :
    look (fun t => (t.frame, t.frameBits, statusWord t)) (exec .pack packHi) = some (hiFrame, 48#32, 0x02#32) := by decide
/-- V-PACK-5. -/
theorem test_pack_range :
    look (fun t => (statusWord t, t.frameBits)) (exec .pack (running 0x1#4 .start { State.reset with msgLen := 4097#32 })) =
      some (0x52#32, 0#32) := by decide
/-- The start state of V-UNP. -/
def unpackStart (bits : Word) (frame : List Host.Cell) : State :=
  running 0x2#4 .unpack { State.reset with frameBits := bits, frame := frame, msgLen := 0x77#32, hdrLen := 0x55#32 }
/-- V-UNP-2: L = 12 drops four trailing bits. -/
theorem test_unpack_partial_group :
    look (fun t => (t.msg, t.msgLen, t.hdrLen, statusWord t))
      (exec .unpack (unpackStart 44#32 [(0, 0#8), (1, 0#8), (2, 0#8), (3, 0x0C#8), (4, 0x48#8), (5, 0x60#8)])) =
      some ([(0, 0x48#8)], 1#32, 12#32, 0x02#32) := by decide
/-- V-UNP-6: no wrap in 32 + L. -/
theorem test_unpack_no_wrap :
    look (fun t => (t.msgLen, t.hdrLen, statusWord t))
      (exec .unpack (unpackStart 32#32 [(0, 0xFF#8), (1, 0xFF#8), (2, 0xFF#8), (3, 0xFF#8)])) =
      some (0x77#32, 0xFFFFFFFF#32, 0x32#32) := by decide
/-- V-CHK-3: the boundary is inclusive. -/
theorem test_check_boundary :
    look statusWord (exec .check (running 0x3#4 .capCheck { State.reset with pixelCount := 16#32, frameBits := 48#32 })) =
      some 0x02#32 := by decide
/-- V-CHK-4. -/
theorem test_check_capacity :
    look statusWord (exec .check (running 0x3#4 .capCheck { State.reset with pixelCount := 15#32, frameBits := 48#32 })) =
      some 0x12#32 := by decide
/-- EMBED at bit 36 of V-EMB-2: the byte at offset 48 is 0xFF. -/
def embedding36 : State :=
  running 0x4#4 .writePayload { twenty with cursor := 36, frameBits := 48#32, frame := hiFrame, carrier := [(0x1030, 0xFE#8)] }
/-- V-EMB-1 and V-EMB-2, bit 36: LSB 1 at offset 48, the high bits kept, both accesses issued. -/
theorem test_embed_write_step :
    look (fun t => (t.carrier, t.cursor, t.phase, t.portLog)) (exec .embed embedding36) =
      some ([(0x1030, 0xFF#8)], 37, .writePayload, [.read 0x1030, .write 0x1030 0xFF#8]) := by decide
/-- V-EMB-12: a read error at bit 36. -/
theorem test_embed_read_error :
    look (fun t => (t.carrier, t.cursor, statusWord t)) (exec .embed { embedding36 with port := .readError }) =
      some ([(0x1030, 0xFE#8)], 36, 0x62#32) := by decide
/-- V-EXT-8 and V-EXT-9: L = capacity − 32 is valid, L = capacity − 31 is not. -/
theorem test_extract_validate :
    look (fun t => t.phase) (exec .extract (running 0x5#4 .validateLength { twenty with shift := 28#32, cursor := 32 })) =
        some .readPayload ∧
      look statusWord (exec .extract (running 0x5#4 .validateLength { twenty with shift := 29#32, cursor := 32 })) =
        some 0x22#32 := by decide
/-- V-EXT-1, the last payload bit: payload byte 1 becomes 0x69 and DECODE follows. -/
theorem test_extract_last_bit :
    look (fun t => (t.msg, t.acc, t.cursor, t.phase))
      (exec .extract (running 0x5#4 .readPayload
        { twenty with shift := 16#32, hdrLen := 16#32, acc := 0x34#8, cursor := 47, carrier := [(0x103E, 0x01#8)] })) =
      some ([(1, 0x69#8)], 0#8, 48, .decode) := by decide
/-- V-HST-1: only IE is writable. -/
theorem test_wr_ctrl : look (regValue · .ctrl) (exec (.wr 0x04#8 4 0xFFFFFFFF#32) State.reset) = some 1#32 := by decide
/-- V-HST-4: a data port write out of range. -/
theorem test_wr_msg_data_out_of_range :
    look (fun t => (t.msgPtr, t.msg, statusWord t)) (exec (.wr 0x30#8 4 0x55#32) { State.reset with msgPtr := 0x1000#32 }) =
      some (0x1001#32, [], 0x08#32) := by decide
/-- V-RST-1 and V-RST-2. -/
theorem test_rd_id_and_params :
    look (·.rdata) (exec (.rd 0x00#8 4) State.reset) = some 0x4C534231#32 ∧
      look (·.rdata) (exec (.rd 0x3C#8 4) State.reset) = some 0x00001000#32 ∧
      look (·.rdata) (exec (.rd 0x40#8 4) State.reset) = some 0x00010000#32 := by decide
/-- V-HST-5: the pointer wraps. -/
theorem test_rd_msg_data_wraps :
    look (fun t => (t.rdata, t.msgPtr, t.ramErr)) (exec (.rd 0x30#8 4) { State.reset with msgPtr := 0xFFFFFFFF#32 }) =
      some (0#32, 0#32, true) := by decide
/-- V-HST-9: ADDR_W = 16. -/
theorem test_carrier_base_width :
    look (regValue · .carrierBase)
      (exec (.wr 0x18#8 4 0x12345678#32) { State.reset with params := { Params.reference with addrW := 16 } }) =
      some 0x00005678#32 := by decide

/-! ### Placing an instruction -/

theorem test_place_nop : look statusWord (step (State.reset.withFetchWord 32 0)) = some 0x02#32 := by decide
theorem test_place_pack : look (·.phase) (step (State.reset.withFetchWord 32 1)) = some .pack := by decide
theorem test_place_extract : look statusWord (step (State.reset.withFetchWord 32 5)) = some 0x22#32 := by decide
theorem test_place_rd_id : look (·.rdata) (step (State.reset.withFetchWord 56 0x00000000040000)) = some 0x4C534231#32 := by decide

/-! ### Witnesses -/

/-- A state in which EMBED is about to write bit 36 meets the invariant. -/
theorem embedding36_inv : Inv embedding36 where
  params_wf := by decide
  busy_not_done := by decide
  busy_iff_pending := by decide
  idle_iff_phase := by decide
  reset_idle := by decide
  base_bits := by decide
  cursor_bound := by decide
  msg_wf := by decide
  frame_wf := by decide
  carrier_wf := by decide
  host_copies_wf := by decide
  running := fun _ => by show Embedding embedding36 ∧ 32 ≤ embedding36.cursor; decide

/-- A finished command's state with IE = 1, DONE = 1 and both error flags set, and the event `e` next. -/
def alerted (e : Input) : State :=
  { State.reset with ie := true, done := true, busyErr := true, ramErr := true, inputs := [e] }

/-- A carrier at address 0 whose bits from bit address 0 on are `bits`. -/
def carrierOf (bits : List Bool) : List Host.Cell :=
  bits.zipIdx.map fun p => (4 * (p.2 / 3) + p.2 % 3, bitByte p.1)

/-- The bits of a 32-bit header. -/
def headerBits (l : Nat) : List Bool := (List.range 32).map fun i => l.testBit (31 - i)

/-- EXTRACT just accepted, on a carrier of `pixels` pixels that holds the header `l`. -/
def extracting (pixels : Word) (l : Nat) : State :=
  running 0x5#4 .start { State.reset with pixelCount := pixels, carrier := carrierOf (headerBits l) }

/-- UNPACK just accepted, on a frame of 40 bits. -/
def unpacking40 (frame : List Host.Cell) : State := running 0x2#4 .start { State.reset with frame := frame, frameBits := 40#32 }

/-- EMBED just accepted: F_Hi into 20 pixels. -/
def embeddingHi : State := running 0x4#4 .start { twenty with frameBits := 48#32, frame := hiFrame }

theorem witness_TableWordsRoundTrip : (Instr.wr 0xFC#8 4 0xFFFFFFFF#32).wf = true ∧ (Instr.rd 0x00#8 4).wf = true := by decide
theorem witness_IdleCmdWriteIsAccepted : State.reset.rst = false ∧ State.reset.busy = false := by decide
theorem witness_BusyCmdWriteIsDropped : embedding36.rst = false ∧ embedding36.busy = true := by decide
theorem witness_StepRunsTheLatchedCommand :
    (embedding36.inputs = [] ∧ Engaged embedding36 ∧ latched embedding36 = some .embed) ∧
      (Engaged (accept 6#32 State.reset) ∧ latched (accept 6#32 State.reset) = none) ∧
      (alerted .engine).inputs = .engine :: [] ∧ ¬ Engaged (alerted .engine) := by decide
theorem witness_StepRunsTheHostTransaction :
    (alerted (.bus 0xFC .read 4 0#32)).inputs =
        .bus ((alerted (.bus 0xFC .read 4 0#32)).params.hostBase + (0xFC#8).toNat) .read 4 0#32 :: [] ∧
      (alerted (.bus 0x08 .write 4 0#32)).inputs =
        .bus ((alerted (.bus 0x08 .write 4 0#32)).params.hostBase + (0x08#8).toNat) .write 4 0#32 :: [] ∧
      (alerted (.bus 256 .write 4 0#32)).params.hostBase + 256 ≤ 256 := by decide
theorem witness_PlacedInstructionRunsNext : (Instr.embed).wf = true ∧ (Instr.wr 0x08#8 4 6#32).wf = true := by decide
/-- Each operand at the top of its legal range, and the two capacities next to 32. -/
def atTheLimits : State :=
  running 0x4#4 .start { State.reset with
    msgLen := 4096#32, frameBits := 32800#32, pixelCount := 65536#32, carrierBase := 0xFFFC0000#32 }
theorem witness_StartContinuations :
    Engaged atTheLimits ∧ atTheLimits.phase = .start ∧ MsgLenLegal atTheLimits ∧ FrameBitsLegal atTheLimits ∧
      PixelCountLegal atTheLimits ∧ RegionLegal atTheLimits ∧ 32 ≤ 3 * atTheLimits.pixelCount.toNat ∧
      32 ≤ 3 * (extracting 11#32 0).pixelCount.toNat ∧ 3 * (extracting 10#32 0).pixelCount.toNat < 32 ∧
      PixelCountLegal (extracting 10#32 0) ∧ RegionLegal (extracting 10#32 0) ∧ (extracting 10#32 0).phase = .start := by decide
/-- Each operand one past its legal range. -/
def pastTheLimits : State :=
  running 0x4#4 .start { State.reset with
    msgLen := 4097#32, frameBits := 32801#32, pixelCount := 65537#32, carrierBase := 0xFFFBFFFD#32 }
theorem witness_RangeFailuresAtStart :
    Engaged pastTheLimits ∧ pastTheLimits.phase = .start ∧ pastTheLimits.cursor = 0 ∧
      pastTheLimits.params.msgCap < pastTheLimits.msgLen.toNat ∧
      8 * (pastTheLimits.params.msgCap + 4) < pastTheLimits.frameBits.toNat ∧
      pastTheLimits.params.maxPixels < pastTheLimits.pixelCount.toNat ∧
      2 ^ pastTheLimits.params.addrW <
        pastTheLimits.carrierBase.toNat % 2 ^ pastTheLimits.params.addrW + 4 * pastTheLimits.pixelCount.toNat := by decide
theorem witness_NopFinishesOk :
    Engaged (running 0x0#4 .start State.reset) ∧ (running 0x0#4 .start State.reset).phase = .start ∧
      (running 0x0#4 .start State.reset).cursor = 0 ∧ (running 0x0#4 .start State.reset).busyErr = false ∧
      (running 0x0#4 .start State.reset).ramErr = false := by decide
theorem witness_IllegalWordFinishesBadCmd :
    6 ≤ (6#32 : Word).toNat ∧ 6 ≤ (0x10#32 : Word).toNat ∧ State.reset.rst = false ∧ State.reset.inputs = [] ∧
      State.reset.busyErr = false ∧ State.reset.ramErr = false := by decide
theorem witness_FinishRaisesDone :
    Instr.nop.isCommand = true ∧ look (·.busy) (exec .nop (running 0x0#4 .start State.reset)) = some false := by decide
theorem witness_PackBuildsTheFrame :
    packHi.params.wf ∧ packHi.params.legal ∧ Engaged packHi ∧ packHi.phase = .pack ∧ MsgLenLegal packHi ∧
      MsgLenLegal { packHi with msgLen := 4096#32 } ∧ MsgLenLegal { packHi with msgLen := 0#32 } := by decide
/-- R147's three outcomes, at their boundaries: FRAME_BITS = 31; 32 with L = 1; 48 with L = 16. -/
theorem witness_UnpackRecoversTheMessage :
    (unpackStart 31#32 hiFrame).params.wf ∧ Engaged (unpackStart 31#32 hiFrame) ∧ (unpackStart 31#32 hiFrame).phase = .unpack ∧
      FrameBitsLegal (unpackStart 31#32 hiFrame) ∧ (unpackStart 31#32 hiFrame).frameBits.toNat < 32 ∧
      (unpackStart 47#32 hiFrame).frameBits.toNat < 32 + (frameHeader (unpackStart 47#32 hiFrame)).toNat ∧
      32 + (frameHeader (unpackStart 48#32 hiFrame)).toNat ≤ (unpackStart 48#32 hiFrame).frameBits.toNat := by decide
theorem witness_FramingRoundTrip :
    State.reset.params.wf ∧ State.reset.params.legal ∧ Quiet { State.reset with msgLen := 4096#32 } ∧
      MsgLenLegal { State.reset with msgLen := 4096#32 } ∧ 32 + 8 * (4096#32 : Word).toNat < 2 ^ 32 := by decide
/-- R8 and R9 part at MSG_CAP = 2^29 − 4 and at no smaller value. -/
theorem witness_LegalInstancesHoldEveryFrame :
    Params.reference.legal ∧ ({ Params.reference with msgCap := 2 ^ 29 - 4 } : Params).wf ∧
      ¬ ({ Params.reference with msgCap := 2 ^ 29 - 4 } : Params).legal ∧
      ({ Params.reference with msgCap := 2 ^ 29 - 5 } : Params).legal ∧ 44 ≤ 8 * Params.reference.frameCap ∧ 32 + 12 ≤ 44 := by decide
/-- The PACK that R8 allows and R9 does not: FRAME_BITS is the free value, and nothing else is. -/
theorem test_pack_overflow (s : State) : (packMessage (2 ^ 29 - 4) s).frameBits = Config.frameBitsOverflow (2 ^ 29 - 4) := by
  simp [packedFrameBits]
theorem witness_CheckComparesWithCapacity :
    Engaged (running 0x3#4 .capCheck { State.reset with pixelCount := 16#32, frameBits := 48#32 }) ∧
      (48#32 : Word).toNat ≤ 3 * (16#32 : Word).toNat ∧ 3 * (15#32 : Word).toNat < (48#32 : Word).toNat := by decide
theorem witness_EmbedRefusesWhatDoesNotFit :
    Engaged (running 0x4#4 .capCheck twenty) ∧ (running 0x4#4 .capCheck twenty).phase = .capCheck ∧
      (running 0x4#4 .capCheck twenty).frameBits.toNat = 0 ∧ 3 * (20#32 : Word).toNat < (61#32 : Word).toNat ∧
      0 < (60#32 : Word).toNat ∧ (60#32 : Word).toNat ≤ 3 * (20#32 : Word).toNat := by decide
theorem witness_WriteStepEmbedsOneBit :
    Engaged embedding36 ∧ embedding36.phase = .writePayload ∧ Embedding embedding36 ∧ embedding36.port = .okay ∧
      Embedding { embedding36 with port := .readError } ∧ Embedding { embedding36 with port := .writeError } ∧
      Embedding { embedding36 with cursor := 47 } := by decide
theorem witness_EmbedBusErrorIsPrecise :
    Accepted .embed embeddingHi ∧ PixelCountLegal embeddingHi ∧ FrameBitsLegal embeddingHi ∧ RegionLegal embeddingHi ∧
      embeddingHi.frameBits.toNat ≤ cap embeddingHi ∧ 47 < embeddingHi.frameBits.toNat ∧ PortReply.readError ≠ .okay ∧
      PortReply.writeError ≠ .okay := by decide
theorem witness_EmbedWritesTheWholeFrame :
    Accepted .embed embeddingHi ∧ PixelCountLegal embeddingHi ∧ FrameBitsLegal embeddingHi ∧ RegionLegal embeddingHi ∧
      embeddingHi.frameBits.toNat ≤ cap embeddingHi ∧ Accepted .embed { embeddingHi with frameBits := 0#32 } ∧
      ({ embeddingHi with frameBits := 60#32 } : State).frameBits.toNat = cap embeddingHi := by decide
theorem witness_BitAddressesAreABijection : 59 < cap twenty ∧ 19 < twenty.pixelCount.toNat ∧ 2 < 3 := by decide
theorem witness_EngineAccessesOnlyTheCursorSlot :
    Inv embedding36 ∧ look (·.portLog.length) (step embedding36) = some 2 := ⟨embedding36_inv, by decide⟩
/-- EXTRACT about to read header bit 31 or payload bit 15 of V-EXT-1. -/
def readingHeader : State := running 0x5#4 .readHeader { twenty with cursor := 31 }
def readingPayload : State := running 0x5#4 .readPayload { twenty with cursor := 47, shift := 16#32, hdrLen := 16#32 }
theorem witness_ReadHeaderStepShiftsOneBit :
    Engaged readingHeader ∧ readingHeader.phase = .readHeader ∧ Extracting readingHeader ∧ readingHeader.cursor < 32 ∧
      readingHeader.port ≠ .readError ∧ ({ readingHeader with port := .readError } : State).port = .readError ∧
      Extracting { readingHeader with port := .readError } := by decide
theorem witness_ValidateLengthStepDecides :
    Engaged (running 0x5#4 .validateLength twenty) ∧ (running 0x5#4 .validateLength twenty).phase = .validateLength ∧
      (running 0x5#4 .validateLength twenty).shift.toNat = 0 ∧ 3 * twenty.pixelCount.toNat < 32 + 29 ∧
      32 + 28 ≤ 3 * twenty.pixelCount.toNat ∧ 28 / 8 ≤ twenty.params.msgCap ∧
      ({ twenty with params := { twenty.params with msgCap := 1 } } : State).params.msgCap < 16 / 8 := by decide
theorem witness_ReadPayloadStepTakesOneBit :
    Engaged readingPayload ∧ readingPayload.phase = .readPayload ∧ Extracting readingPayload ∧ HeaderAccepted readingPayload ∧
      32 ≤ readingPayload.cursor ∧ readingPayload.cursor < 32 + readingPayload.shift.toNat ∧ readingPayload.port ≠ .readError ∧
      Extracting { readingPayload with port := .readError } ∧ HeaderAccepted { readingPayload with port := .readError } := by decide
theorem witness_DecodeStepSetsTheLength :
    Engaged (running 0x5#4 .decode twenty) ∧ (running 0x5#4 .decode twenty).phase = .decode := by decide
/-- The header of a small carrier, as the sum of R199. -/
theorem header_of_extracting : carrierHeader (extracting 20#32 8) = 8 ∧ carrierHeader (extracting 20#32 28) = 28 ∧
    carrierHeader (extracting 20#32 29) = 29 ∧ carrierHeader (extracting 20#32 0) = 0 := by decide +kernel
theorem witness_ExtractRecoversThePayload :
    Accepted .extract (extracting 20#32 28) ∧ PixelCountLegal (extracting 20#32 28) ∧ RegionLegal (extracting 20#32 28) ∧
      0 < carrierHeader (extracting 20#32 28) ∧ 32 + carrierHeader (extracting 20#32 28) ≤ cap (extracting 20#32 28) ∧
      carrierHeader (extracting 20#32 28) / 8 ≤ (extracting 20#32 28).params.msgCap := by
  rw [header_of_extracting.2.1]; decide
theorem witness_RejectedHeaderLeavesTheOutputs :
    Accepted .extract (extracting 20#32 29) ∧ PixelCountLegal (extracting 20#32 29) ∧ RegionLegal (extracting 20#32 29) ∧
      32 ≤ cap (extracting 20#32 29) ∧ cap (extracting 20#32 29) < 32 + carrierHeader (extracting 20#32 29) ∧
      carrierHeader (extracting 20#32 0) = 0 := by
  rw [header_of_extracting.2.2.1, header_of_extracting.2.2.2]; decide
theorem witness_RejectedHeaderLeavesTheOutputs_oversize :
    let s : State := { extracting 20#32 28 with params := { Params.reference with msgCap := 1 } }
    Accepted .extract s ∧ PixelCountLegal s ∧ RegionLegal s ∧ 32 ≤ cap s ∧ s.params.msgCap < carrierHeader s / 8 := by
  intro s
  have h : carrierHeader s = 28 := header_of_extracting.2.1
  rw [h]; decide
theorem witness_ExtractBusErrorIsPrecise :
    Accepted .extract (extracting 20#32 28) ∧ PixelCountLegal (extracting 20#32 28) ∧ RegionLegal (extracting 20#32 28) ∧
      32 ≤ cap (extracting 20#32 28) ∧ 31 < 32 ∧ 59 < 32 + carrierHeader (extracting 20#32 28) ∧
      32 + carrierHeader (extracting 20#32 28) ≤ cap (extracting 20#32 28) ∧
      carrierHeader (extracting 20#32 28) / 8 ≤ (extracting 20#32 28).params.msgCap := by
  rw [header_of_extracting.2.1]; decide
theorem witness_ExtractLeavesTheCarrierAlone : look (·.cursor) (exec .extract readingHeader) = some 32 := by decide
/-- A 40-bit carrier and the same 40 bits as a frame: L = 8 and the byte 0x48. -/
def carrier40 : State :=
  running 0x5#4 .start { State.reset with
    pixelCount := 20#32, carrier := carrierOf (headerBits 8 ++ [false, true, false, false, true, false, false, false]) }
def frame40 : State := unpacking40 [(0, 0#8), (1, 0#8), (2, 0#8), (3, 8#8), (4, 0x48#8)]
theorem header_of_carrier40 : carrierHeader carrier40 = 8 := by decide +kernel
theorem witness_ExtractEqualsUnpack :
    carrier40.params.wf ∧ carrier40.params = frame40.params ∧ Accepted .extract carrier40 ∧ PixelCountLegal carrier40 ∧
      RegionLegal carrier40 ∧ 0 < carrierHeader carrier40 ∧ 32 + carrierHeader carrier40 ≤ cap carrier40 ∧
      carrierHeader carrier40 / 8 ≤ carrier40.params.msgCap ∧ Accepted .unpack frame40 ∧ FrameBitsLegal frame40 ∧
      frame40.frameBits.toNat = 32 + carrierHeader carrier40 ∧
      ∀ i, i < 32 + carrierHeader carrier40 → fbit frame40 i = carrierBit carrier40 i := by
  rw [header_of_carrier40]; decide +kernel
theorem witness_ComposedRoundTrip :
    let s : State := { twenty with msgLen := 3#32 }
    let e : State := { twenty with msgLen := 0#32 }
    (s.params.wf ∧ Quiet s ∧ MsgLenLegal s ∧ PixelCountLegal s ∧ RegionLegal s ∧ 32 + 8 * s.msgLen.toNat ≤ cap s ∧ 0 < s.msgLen.toNat) ∧
      e.msgLen.toNat = 0 ∧ 32 + 8 * e.msgLen.toNat ≤ cap e := by decide
theorem witness_IllFormedAccessGetsTheErrorResponse :
    State.reset.rst = false ∧ (1 ≠ 4 ∨ (0x30#8).toNat % 4 ≠ 0) ∧ (4 ≠ 4 ∨ (0x2E#8).toNat % 4 ≠ 0) ∧
      (4 = 4 ∧ (0x30#8).toNat % 4 = 0) := by decide
theorem witness_PlainReadsHaveNoSideEffect :
    State.reset.rst = false ∧ (0xFC#8).toNat % 4 = 0 ∧ (0xFC#8 : BitVec 8) ≠ 0x30#8 ∧ (0xFC#8 : BitVec 8) ≠ 0x38#8 := by decide
theorem witness_RegistersReadTheirValues : State.reset.rst = false := by decide
theorem witness_StatusWordOverACommandsLife :
    embedding36.busyErr = false ∧ embedding36.ramErr = false ∧ Inv embedding36 ∧ embedding36.busy = true :=
  ⟨by decide, by decide, embedding36_inv, by decide⟩
theorem witness_StatusWriteClearsFlags : embedding36.rst = false ∧ Inv embedding36 ∧ embedding36.busy = true :=
  ⟨by decide, embedding36_inv, by decide⟩
theorem witness_CtrlWriteSetsTheInterruptEnable : embedding36.rst = false := by decide
theorem witness_LockedRegisterWritesStore : State.reset.rst = false ∧ State.reset.busy = false := by decide
theorem witness_BusyLockDropsAccesses : embedding36.rst = false ∧ embedding36.busy = true := by decide
/-- Both data ports at the last byte in range and at the first out of range. -/
theorem witness_DataPortsMoveOneByte :
    let s : State := { State.reset with msgPtr := 4095#32, framePtr := 4100#32 }
    let t : State := { State.reset with msgPtr := 4096#32, framePtr := 4099#32 }
    s.rst = false ∧ s.busy = false ∧ s.msgPtr.toNat < s.params.msgCap ∧ ¬ s.framePtr.toNat < s.params.msgCap + 4 ∧
      ¬ t.msgPtr.toNat < t.params.msgCap ∧ t.framePtr.toNat < t.params.msgCap + 4 := by decide
theorem witness_ReservedAndReadOnlyOffsets :
    State.reset.rst = false ∧ (0x44#8).toNat % 4 = 0 ∧ 0x44 ≤ (0x44#8).toNat ∧ (0x40#8).toNat % 4 = 0 ∧
      (0x40#8 : BitVec 8) ∈ [0x00#8, 0x10#8, 0x14#8, 0x28#8, 0x3C#8, 0x40#8] := by decide
/-- A STATUS write that clears everything, and a reset, from a state with IRQ and both error flags set. -/
def clearing : State := alerted (.bus 0x0C .write 4 0x0000000E#32)
theorem clearing_writes : HostWrites clearing 0x0C#8 0x0000000E#32 := ⟨0x0C, [], rfl, by decide⟩
theorem witness_OnlyHostAndResetDropIrq :
    (clearing.busy = true → clearing.done = false) ∧ irq clearing = true ∧ look irq (step clearing) = some false ∧
      HostWrites clearing 0x0C#8 0x0000000E#32 ∧ (0x0000000E#32 : Word).getLsbD 1 = true :=
  ⟨by decide, by decide, by decide, clearing_writes, by decide⟩
theorem witness_OnlyHostAndResetDropIrq_others :
    look irq (step (alerted (.bus 0x08 .write 4 0#32))) = some false ∧ look irq (step (alerted (.bus 0x04 .write 4 0#32))) = some false ∧
      look irq (step (alerted (.reset true))) = some false ∧ look irq (step (alerted .engine)) = some true := by decide
theorem witness_ErrorFlagsAreSticky :
    clearing.busyErr = true ∧ clearing.ramErr = true ∧ look (fun t => (t.busyErr, t.ramErr)) (step clearing) = some (false, false) ∧
      look (fun t => (t.busyErr, t.ramErr)) (step (alerted (.bus 0x08 .write 4 0#32))) = some (true, true) := by decide
theorem witness_CursorCountsChannelBits :
    look (fun t => (t.cursor, t.portLog.length)) (step embedding36) = some (37, 2) ∧
      look (fun t => (t.cursor, t.portLog.length)) (step readingHeader) = some (32, 1) ∧
      look (fun t => (t.cursor, t.portLog.length)) (step { embedding36 with port := .writeError }) = some (36, 2) ∧
      look (·.cursor) (step { embedding36 with inputs := [.reset true] }) = some 0 ∧
      look (·.cursor) (step { embedding36 with inputs := [.reset false] }) = some 36 ∧
      look (·.cursor) (step { State.reset with cursor := 48, inputs := [.bus 0x08 .write 4 0#32] }) = some 0 := by decide
theorem witness_ResetGivesTheResetValues :
    ({ alerted (.reset false) with rst := true } : State).inputs = .reset false :: [] ∧
      (alerted (.reset false)).inputs = .reset (alerted (.reset false)).rst :: [] := by decide
theorem witness_ResetAbandonsTheCommand :
    ({ embedding36 with inputs := [.reset true] } : State).inputs = .reset true :: [] ∧ embedding36.rst = false ∧
      writeInFlight { embedding36 with inputs := [] } = true := by decide
theorem witness_HostTransactionsInResetAreStuck : ({ State.reset with rst := true } : State).rst = true := by decide
/-- EMBED runs on an incoherent platform that holds a host write of the region's last byte. -/
def heldInRegion : State :=
  { embedding36 with params := { Params.reference with coherent := false }, hostWrites := [(0x104F, 0x22#8)] }
theorem witness_CarrierRaceFaults_writeBack :
    heldInRegion.busy = true ∧ carrierBaseAddr heldInRegion ≤ 0x104F ∧
      0x104F < carrierBaseAddr heldInRegion + 4 * heldInRegion.pixelCount.toNat ∧ 0x104F < 2 ^ heldInRegion.params.addrW ∧
      ({ heldInRegion with inputs := [.hostCache 0x104F .writeBack] } : State).inputs = .hostCache 0x104F .writeBack :: [] ∧
      heldInRegion.params.coherent = false ∧ Memory.get? heldInRegion.hostWrites 0x104F ≠ none := by decide
theorem witness_CarrierRaceFaults :
    embedding36.busy = true ∧ carrierBaseAddr embedding36 ≤ 0x104F ∧
      0x104F < carrierBaseAddr embedding36 + 4 * embedding36.pixelCount.toNat ∧ 0x104F < 2 ^ embedding36.params.addrW ∧
      latched embedding36 ≠ some .extract ∧ latched readingHeader = some .extract ∧ readingHeader.busy = true ∧
      carrierBaseAddr readingHeader ≤ 0x1000 ∧ 0x1000 < carrierBaseAddr readingHeader + 4 * readingHeader.pixelCount.toNat ∧
      readingHeader.params.coherent = true := by decide
/-- R92: the hazard does not depend on the command; R284: a read during EXTRACT is allowed. -/
theorem test_race_by_command :
    step { running 0x1#4 .pack twenty with inputs := [.carrierRead 0x1000 .cached] } = .fault .carrierRace ∧
      step { running 0x5#4 .readHeader twenty with inputs := [.carrierWrite 0x104F 0#8 .maintained] } = .fault .carrierRace ∧
      look (·.cursor) (step { running 0x5#4 .readHeader twenty with inputs := [.carrierRead 0x1000 .port] }) = some 0 :=
  ⟨rfl, rfl, by decide⟩
/-- An incoherent platform: the carrier port does not have the host's write of byte 5, and the host's copy of byte 6 is stale. -/
def incoherent (events : List Input) : State :=
  { State.reset with
    params := { Params.reference with coherent := false }, carrier := [(5, 0x11#8), (6, 0x44#8)]
    hostWrites := [(5, 0x22#8)], hostCached := [(6, 0x33#8)], inputs := events }
theorem witness_HostCarrierAccessIsOrdinaryMemory :
    State.reset.busy = false ∧ 0xFFFFFFFF < 2 ^ State.reset.params.addrW ∧ State.reset.params.coherent = true ∧
      (incoherent []).busy = false ∧ (incoherent []).params.coherent = false ∧ Memory.get? (incoherent []).hostWrites 5 = some 0x22#8 ∧
      Memory.get? (incoherent []).hostWrites 6 = none ∧ CopyFresh (incoherent []) 5 ∧ ¬ CopyFresh (incoherent []) 6 :=
  ⟨by decide, by decide, by decide, by decide, by decide, by decide, by decide, .inr (by simp [incoherent, Memory.get?]),
    by simp [CopyFresh, incoherent, Memory.get?, readCarrier]⟩
/-- R92, R96 on an incoherent platform: the host reads its own write and its stale copy, discards that one, and writes its own back. -/
theorem test_incoherent :
    look (·.hostByte) (step (incoherent [.carrierRead 5 .cached])) = some 0x22#8 ∧
      look (·.hostByte) (step (incoherent [.carrierRead 6 .cached])) = some 0x33#8 ∧
      look (·.hostByte) (step (incoherent [.carrierRead 6 .maintained])) = some 0x44#8 ∧
      look (·.carrier) (step (incoherent [.hostCache 5 .writeBack])) = some [(5, 0x22#8), (6, 0x44#8)] ∧
      look (·.carrier) (step (incoherent [.carrierWrite 5 0x55#8 .cached])) = some [(5, 0x11#8), (6, 0x44#8)] := by decide
theorem witness_EveryStepKeepsTheInvariant : Inv embedding36 ∧ look (·.cursor) (step embedding36) = some 37 :=
  ⟨embedding36_inv, by decide⟩
theorem witness_RunningCommandsNeverGetStuck : Inv embedding36 ∧ Engaged embedding36 ∧ latched embedding36 = some .embed :=
  ⟨embedding36_inv, by decide, by decide⟩
theorem witness_CommandsFinishWithinTheStepBound :
    Engaged embeddingHi ∧ embeddingHi.phase = .start ∧ embeddingHi.cursor = 0 ∧ embeddingHi.inputs = [] ∧ stepBound embeddingHi = 50 := by
  decide
/-- Every other command meets the premises too, each with its own bound. -/
theorem witness_CommandsFinishWithinTheStepBound_others :
    (∀ p ∈ [(0x0#32, 1), (0x1#32, 2), (0x2#32, 2), (0x3#32, 2), (0x6#32, 1)],
      Engaged (accept p.1 State.reset) ∧ (accept p.1 State.reset).phase = .start ∧ (accept p.1 State.reset).cursor = 0 ∧
        (accept p.1 State.reset).inputs = [] ∧ stepBound (accept p.1 State.reset) = p.2) ∧
      Engaged (extracting 20#32 28) ∧ (extracting 20#32 28).phase = .start ∧ stepBound (extracting 20#32 28) = 63 := by
  refine ⟨by decide, by decide, by decide, ?_⟩
  have h : latched (extracting 20#32 28) = some .extract := by decide
  have hv : headerValid (extracting 20#32 28) 28 = true := by decide
  simp only [stepBound, h, header_of_extracting.2.1, hv, if_true]
theorem witness_HostAccessesCannotDisturbACommand :
    embedding36.busy = true ∧ look (·.busyErr) (exec (.wr 0x1C#8 4 6#32) embedding36) = some true ∧
      look (·.busyErr) (exec (.rd 0x30#8 4) embedding36) = some true ∧
      engineView embedding36 = engineView { embedding36 with ie := true } := by decide
theorem witness_InstructionsChangeOnlyTheirOutputs :
    look (·.busy) (exec .check (running 0x3#4 .capCheck State.reset)) = some false ∧
      look (·.frameBits) (exec .pack packHi) = some 48#32 ∧ look (·.msgLen) (exec .unpack (unpackStart 48#32 hiFrame)) = some 2#32 ∧
      look (·.cursor) (exec .embed embedding36) = some 37 ∧ look (·.cursor) (exec .extract readingPayload) = some 48 ∧
      look (·.resp) (exec (.rd 0x0C#8 4) State.reset) = some .okay ∧
      look (·.msgPtr) (exec (.wr 0x30#8 4 1#32) State.reset) = some 1#32 := by decide

end Sys2Proof.Tests
end

section
/-!
PROOF. The shape of the invariant. `Inv` is the conjunction of what the stored values meet whatever the engine does (`Storage`) with one of
two conditions of control: no command runs (`Resting`), or one does and its phase's condition holds (`UnderWay`). `inv_iff` says so, and
the proofs that a step keeps `Inv` take it apart and put it together by these three conditions.
-/

namespace Sys2Proof.Machine

/-! ### The memories -/

/-- A sparse memory of `n` bytes: canonical, and no byte at or beyond `n` listed. -/
abbrev Memory.Fits (m : List Host.Cell) (n : Nat) : Prop := Memory.wf m ∧ Memory.below m n

theorem Memory.fits_nil (n : Nat) : Memory.Fits [] n := ⟨.nil, by simp [Memory.below]⟩

theorem Memory.set_fits {m : List Host.Cell} {n a : Nat} (h : Memory.Fits m n) (ha : a < n) (v : Byte) :
    Memory.Fits (Memory.set m a v) n :=
  ⟨Memory.set_wf h.1 a v, Memory.set_below h.2 ha v⟩

theorem Memory.erase_fits {m : List Host.Cell} {n : Nat} (h : Memory.Fits m n) (a : Nat) : Memory.Fits (Memory.erase m a) n :=
  ⟨Memory.erase_wf h.1 a, Memory.erase_below h.2 a⟩

theorem Memory.fill_fits {m : List Host.Cell} {bound base n : Nat} (h : Memory.Fits m bound) (hn : base + n ≤ bound) (f : Nat → Byte) :
    Memory.Fits (Memory.fill m base f n) bound :=
  ⟨Memory.fill_wf h.1 base f n, Memory.fill_below h.2 hn f⟩

/-! ### The parameters -/

theorem carrierSize_pos (p : Params) : 0 < p.carrierSize := Nat.two_pow_pos _

/-! ### The invariant, taken apart -/

/-- What the stored values meet, whether a command runs or not. -/
structure Storage (s : State) : Prop where
  params_wf : s.params.wf
  base_bits : s.carrierBase.toNat < s.params.carrierSize
  cursor_bound : s.cursor ≤ 3 * s.params.maxPixels
  msg_wf : Memory.Fits s.msg s.params.msgCap
  frame_wf : Memory.Fits s.frame s.params.frameCap
  carrier_wf : Memory.Fits s.carrier s.params.carrierSize
  host_copies_wf : Memory.Fits s.hostWrites s.params.carrierSize ∧ Memory.Fits s.hostCached s.params.carrierSize

/-- No command runs (spec/10_state.md R39, R40), and RST holds IRQ low (spec/70_reset_and_hazards.md R270). -/
structure Resting (s : State) : Prop where
  not_busy : s.busy = false
  not_pending : s.result ≠ .pending
  idle : s.phase = .idle
  reset_quiet : s.rst = true → irq s = false

/-- A command runs (spec/10_state.md R36, R39), and its phase's condition holds. -/
structure UnderWay (s : State) : Prop where
  engaged : Engaged s
  not_done : s.done = false
  pending : s.result = .pending
  running : Running s

/-- A command that runs is in some phase other than IDLE. -/
theorem Running.phase_ne_idle {s : State} (h : Running s) : s.phase ≠ .idle := by
  intro hp
  simp only [Running, hp] at h

theorem Inv.storage {s : State} (h : Inv s) : Storage s := { h with host_copies_wf := ⟨h.host_copies_wf.1, h.host_copies_wf.2⟩ }

theorem Inv.resting {s : State} (h : Inv s) (hb : s.busy = false) : Resting s where
  not_busy := hb
  not_pending hp := by simp [h.busy_iff_pending.2 hp] at hb
  idle := h.idle_iff_phase.1 hb
  reset_quiet hr := (h.reset_idle hr).2

theorem Inv.underWay {s : State} (h : Inv s) (hb : s.busy = true) : UnderWay s where
  engaged := ⟨hb, Bool.eq_false_iff.2 fun hr => by simp [(h.reset_idle hr).1] at hb⟩
  not_done := h.busy_not_done hb
  pending := h.busy_iff_pending.1 hb
  running := h.running hb

theorem Storage.inv_of_resting {s : State} (hs : Storage s) (h : Resting s) : Inv s :=
  { hs with
    busy_not_done := by simp [h.not_busy]
    busy_iff_pending := by simp [h.not_busy, h.not_pending]
    idle_iff_phase := by simp [h.not_busy, h.idle]
    reset_idle := fun hr => ⟨h.not_busy, h.reset_quiet hr⟩
    running := by simp [h.not_busy] }

theorem Storage.inv_of_underWay {s : State} (hs : Storage s) (h : UnderWay s) : Inv s :=
  { hs with
    busy_not_done := fun _ => h.not_done
    busy_iff_pending := by simp [h.engaged.1, h.pending]
    idle_iff_phase := by simp [h.engaged.1, h.running.phase_ne_idle]
    reset_idle := by simp [h.engaged.2]
    running := fun _ => h.running }

/-- The invariant is the storage condition with one of the two control conditions. -/
theorem inv_iff {s : State} : Inv s ↔ Storage s ∧ (Resting s ∨ UnderWay s) := by
  constructor
  · intro h
    cases hb : s.busy with
    | false => exact ⟨h.storage, .inl (h.resting hb)⟩
    | true => exact ⟨h.storage, .inr (h.underWay hb)⟩
  · rintro ⟨hs, hr | hu⟩
    · exact hs.inv_of_resting hr
    · exact hs.inv_of_underWay hu

/-- The fields that the invariant does not read may change freely: the error flags, the pointers, the answers to the outside, the draws, the
port's response, the schedule and the log. -/
theorem Inv.of_unread {s : State} (h : Inv s) {busyErr ramErr : Bool} {msgPtr framePtr rdata : Word} {resp : BusResponse} {hostByte : Byte}
    {draws : Nat} {port : PortReply} {inputs : List Input} {portLog : List Access} :
    Inv { s with
      busyErr := busyErr, ramErr := ramErr, msgPtr := msgPtr, framePtr := framePtr, rdata := rdata, resp := resp
      hostByte := hostByte, draws := draws, port := port, inputs := inputs, portLog := portLog } :=
  { h with }

/-- A running command's condition reads no memory, so the memories may change within their sizes. -/
theorem Inv.of_memories {s : State} (h : Inv s) {msg frame carrier hostWrites hostCached : List Host.Cell}
    (hm : Memory.Fits msg s.params.msgCap) (hf : Memory.Fits frame s.params.frameCap)
    (hc : Memory.Fits carrier s.params.carrierSize) (hw : Memory.Fits hostWrites s.params.carrierSize)
    (hd : Memory.Fits hostCached s.params.carrierSize) :
    Inv { s with msg := msg, frame := frame, carrier := carrier, hostWrites := hostWrites, hostCached := hostCached } :=
  { h with msg_wf := hm, frame_wf := hf, carrier_wf := hc, host_copies_wf := ⟨hw, hd⟩ }

/-- finish leaves the block resting, with DONE raised. -/
theorem Storage.inv_finish {s : State} {code : Result} (hs : Storage s) (hr : s.rst = false) (hc : code ≠ .pending) :
    Inv (finish code s) :=
  Storage.inv_of_resting { hs with } { not_busy := rfl, not_pending := hc, idle := rfl, reset_quiet := by simp [hr] }

/-- Acceptance leaves the command under way in START. -/
theorem Storage.inv_accept {s : State} (hs : Storage s) (hr : s.rst = false) (w : Word) : Inv (accept w s) :=
  Storage.inv_of_underWay { hs with cursor_bound := Nat.zero_le _ }
    { engaged := ⟨rfl, hr⟩, not_done := rfl, pending := rfl, running := rfl }

/-- An edge of RST leaves the block resting, with its memories of the carrier side as they were. -/
theorem Storage.inv_setRst_resetBlock {s : State} (hs : Storage s) (level : Bool) : Inv (setRst level (resetBlock s)) :=
  Storage.inv_of_resting
    { params_wf := hs.params_wf
      base_bits := carrierSize_pos s.params
      cursor_bound := Nat.zero_le _
      msg_wf := Memory.fits_nil _
      frame_wf := Memory.fits_nil _
      carrier_wf := hs.carrier_wf
      host_copies_wf := hs.host_copies_wf }
    { not_busy := rfl, not_pending := by simp, idle := rfl, reset_quiet := fun _ => rfl }

/-- The state after reset meets the invariant in every case R8 admits. -/
theorem inv_resetWith {p : Params} (hp : p.wf) : Inv (State.resetWith p) :=
  Storage.inv_of_resting
    { params_wf := hp
      base_bits := carrierSize_pos p
      cursor_bound := Nat.zero_le _
      msg_wf := Memory.fits_nil _
      frame_wf := Memory.fits_nil _
      carrier_wf := Memory.fits_nil _
      host_copies_wf := ⟨Memory.fits_nil _, Memory.fits_nil _⟩ }
    { not_busy := rfl, not_pending := by simp [State.resetWith], idle := rfl, reset_quiet := fun _ => rfl }

/-- Settles O55: the parameters of the reset state are R8's reference values, which R8 admits. -/
theorem resetStateMeetsTheInvariant : Obligations.ResetStateMeetsTheInvariant :=
  inv_resetWith (p := Params.reference) (by decide)

end Sys2Proof.Machine
end

section
/-!
PROOF. The engine. `Running` and `exec` by phase, one equation each; then, phase by phase, a running command's step answers a next state
and that state meets the invariant. Progress and preservation come out of the same lemma, `engineStep_answers`.
-/

namespace Sys2Proof.Machine

/-! ### A running command's condition, by phase -/

section
variable {s : State}

theorem running_of_start (hp : s.phase = .start) : Running s ↔ s.cursor = 0 := by simp only [Running, hp]

theorem running_of_pack (hp : s.phase = .pack) : Running s ↔ latched s = some .pack ∧ s.cursor = 0 ∧ MsgLenLegal s := by
  simp only [Running, hp]

theorem running_of_unpack (hp : s.phase = .unpack) : Running s ↔ latched s = some .unpack ∧ s.cursor = 0 ∧ FrameBitsLegal s := by
  simp only [Running, hp]

theorem running_of_capCheck (hp : s.phase = .capCheck) :
    Running s ↔ s.cursor = 0 ∧ PixelCountLegal s ∧ FrameBitsLegal s ∧
      (latched s = some .check ∨ (latched s = some .embed ∧ RegionLegal s)) := by
  simp only [Running, hp]

theorem running_of_writeHeader (hp : s.phase = .writeHeader) : Running s ↔ Embedding s ∧ s.cursor < 32 := by
  simp only [Running, hp]

theorem running_of_writePayload (hp : s.phase = .writePayload) : Running s ↔ Embedding s ∧ 32 ≤ s.cursor := by
  simp only [Running, hp]

theorem running_of_readHeader (hp : s.phase = .readHeader) : Running s ↔ Extracting s ∧ s.cursor < 32 := by
  simp only [Running, hp]

theorem running_of_validateLength (hp : s.phase = .validateLength) : Running s ↔ Extracting s ∧ s.cursor = 32 := by
  simp only [Running, hp]

theorem running_of_readPayload (hp : s.phase = .readPayload) :
    Running s ↔ Extracting s ∧ HeaderAccepted s ∧ 32 ≤ s.cursor ∧ s.cursor < 32 + s.shift.toNat := by
  simp only [Running, hp]

theorem running_of_decode (hp : s.phase = .decode) :
    Running s ↔ Extracting s ∧ HeaderAccepted s ∧ s.cursor = 32 + s.shift.toNat := by
  simp only [Running, hp]

end

/-! ### The engine's step, by command and phase -/

section
variable {s : State} (he : Engaged s)
include he

theorem exec_nop_of_start (hp : s.phase = .start) : exec .nop s = .next (finish .ok s) := by
  simp only [exec, execNop, whenRunning_of_running he.1 he.2, hp]

theorem execIllegal_of_start (hp : s.phase = .start) : execIllegal s = .next (finish .badCmd s) := by
  simp only [execIllegal, whenRunning_of_running he.1 he.2, hp]

theorem exec_pack_of_start (hp : s.phase = .start) :
    exec .pack s = startChecked [msgLenOut s] (enterPhase .pack s) s := by
  simp only [exec, execPack, whenRunning_of_running he.1 he.2, hp]

theorem exec_pack_of_pack (hp : s.phase = .pack) : exec .pack s = packStep s := by
  simp only [exec, execPack, whenRunning_of_running he.1 he.2, hp]

theorem exec_unpack_of_start (hp : s.phase = .start) :
    exec .unpack s = startChecked [frameBitsOut s] (enterPhase .unpack s) s := by
  simp only [exec, execUnpack, whenRunning_of_running he.1 he.2, hp]

theorem exec_unpack_of_unpack (hp : s.phase = .unpack) : exec .unpack s = unpackStep s := by
  simp only [exec, execUnpack, whenRunning_of_running he.1 he.2, hp]

theorem exec_check_of_start (hp : s.phase = .start) :
    exec .check s = startChecked [pixelCountOut s, frameBitsOut s] (enterPhase .capCheck s) s := by
  simp only [exec, execCheck, whenRunning_of_running he.1 he.2, hp]

theorem exec_check_of_capCheck (hp : s.phase = .capCheck) :
    exec .check s = .next (finish (if frameFits s then .ok else .capacity) s) := by
  simp only [exec, execCheck, whenRunning_of_running he.1 he.2, hp]

theorem exec_embed_of_start (hp : s.phase = .start) :
    exec .embed s = startChecked [pixelCountOut s, frameBitsOut s, regionOut s] (enterPhase .capCheck s) s := by
  simp only [exec, execEmbed, whenRunning_of_running he.1 he.2, hp]

theorem exec_embed_of_capCheck (hp : s.phase = .capCheck) : exec .embed s = embedCapCheckStep s := by
  simp only [exec, execEmbed, whenRunning_of_running he.1 he.2, hp]

theorem exec_embed_of_writeHeader (hp : s.phase = .writeHeader) : exec .embed s = writeBitStep s := by
  simp only [exec, execEmbed, whenRunning_of_running he.1 he.2, hp]

theorem exec_embed_of_writePayload (hp : s.phase = .writePayload) : exec .embed s = writeBitStep s := by
  simp only [exec, execEmbed, whenRunning_of_running he.1 he.2, hp]

theorem exec_extract_of_start (hp : s.phase = .start) :
    exec .extract s = startChecked [pixelCountOut s, regionOut s] (extractContinuation s) s := by
  simp only [exec, execExtract, whenRunning_of_running he.1 he.2, hp]

theorem exec_extract_of_readHeader (hp : s.phase = .readHeader) : exec .extract s = readHeaderStep s := by
  simp only [exec, execExtract, whenRunning_of_running he.1 he.2, hp]

theorem exec_extract_of_validateLength (hp : s.phase = .validateLength) : exec .extract s = validateLengthStep s := by
  simp only [exec, execExtract, whenRunning_of_running he.1 he.2, hp]

theorem exec_extract_of_readPayload (hp : s.phase = .readPayload) : exec .extract s = readPayloadStep s := by
  simp only [exec, execExtract, whenRunning_of_running he.1 he.2, hp]

theorem exec_extract_of_decode (hp : s.phase = .decode) : exec .extract s = decodeStep s := by
  simp only [exec, execExtract, whenRunning_of_running he.1 he.2, hp]

end

/-! ### Steps that answer -/

/-- The answer is a next state that meets the invariant. -/
def AnswersInv (a : Answer) : Prop := ∃ t, a = .next t ∧ Inv t

theorem answersInv_next {t : State} (h : Inv t) : AnswersInv (.next t) := ⟨t, rfl, h⟩

theorem AnswersInv.inv_of_eq {a : Answer} {t : State} (h : AnswersInv a) (ht : a = .next t) : Inv t := by
  obtain ⟨t', ht', hinv⟩ := h
  exact Host.Outcome.next.inj (ht'.symm.trans ht) ▸ hinv

/-- START answers; it keeps the invariant where the continuation of a START whose checks all pass does. -/
theorem startChecked_answers_inv {s c : State} {checks : List Bool} (hs : Storage s) (hu : UnderWay s) (hc : true ∉ checks → Inv c) :
    AnswersInv (startChecked checks c s) := by
  obtain ⟨t, ht⟩ := startChecked_answers checks c s
  obtain ⟨-, rfl⟩ | ⟨hpass, rfl⟩ := startChecked_next ht
  · exact ⟨_, ht, hs.inv_finish hu.engaged.2 (by simp)⟩
  · exact ⟨_, ht, hc hpass⟩

/-! ### START -/

section
variable {s : State}

@[simp] theorem msgLenOut_eq_false : msgLenOut s = false ↔ MsgLenLegal s := by simp [msgLenOut]
@[simp] theorem pixelCountOut_eq_false : pixelCountOut s = false ↔ PixelCountLegal s := by simp [pixelCountOut]
@[simp] theorem frameBitsOut_eq_false : frameBitsOut s = false ↔ FrameBitsLegal s := by simp [frameBitsOut]
@[simp] theorem regionOut_eq_false : regionOut s = false ↔ RegionLegal s := by simp [regionOut]

end

/-- EXTRACT's START continuation keeps the invariant where its range checks pass (spec/44_extractor.md R191). -/
theorem extractContinuation_inv {s : State} (hs : Storage s) (hu : UnderWay s) (hp : s.phase = .start) (hl : latched s = some .extract)
    (hpix : PixelCountLegal s) (hreg : RegionLegal s) : Inv (extractContinuation s) := by
  have hcur : s.cursor = 0 := (running_of_start hp).1 hu.running
  unfold extractContinuation
  split
  · exact hs.inv_finish hu.engaged.2 (by simp)
  · next hcap =>
    refine Storage.inv_of_underWay { hs with } { hu with running := (running_of_readHeader rfl).2 ?_ }
    exact ⟨⟨hl, Nat.not_lt.1 hcap, hpix, hreg⟩, by simp [hcur]⟩

/-- START of every command answers and keeps the invariant: the checks leave what the next phase asks for (spec/40_command.md R125). -/
theorem exec_answers_of_start {s : State} (hs : Storage s) (hu : UnderWay s) (hp : s.phase = .start) {i : Instr}
    (hl : latched s = some i) : AnswersInv (exec i s) := by
  have he : Engaged s := hu.engaged
  have hcur : s.cursor = 0 := (running_of_start hp).1 hu.running
  cases i with
  | nop =>
    rw [exec_nop_of_start he hp]
    exact answersInv_next (hs.inv_finish he.2 (by simp))
  | pack =>
    rw [exec_pack_of_start he hp]
    refine startChecked_answers_inv hs hu fun hpass => Storage.inv_of_underWay { hs with } { hu with running := ?_ }
    exact (running_of_pack rfl).2 ⟨hl, hcur, by simpa using hpass⟩
  | unpack =>
    rw [exec_unpack_of_start he hp]
    refine startChecked_answers_inv hs hu fun hpass => Storage.inv_of_underWay { hs with } { hu with running := ?_ }
    exact (running_of_unpack rfl).2 ⟨hl, hcur, by simpa using hpass⟩
  | check =>
    rw [exec_check_of_start he hp]
    refine startChecked_answers_inv hs hu fun hpass => Storage.inv_of_underWay { hs with } { hu with running := ?_ }
    obtain ⟨hpix, hbits⟩ : PixelCountLegal s ∧ FrameBitsLegal s := by simpa using hpass
    exact (running_of_capCheck rfl).2 ⟨hcur, hpix, hbits, .inl hl⟩
  | embed =>
    rw [exec_embed_of_start he hp]
    refine startChecked_answers_inv hs hu fun hpass => Storage.inv_of_underWay { hs with } { hu with running := ?_ }
    obtain ⟨hpix, hbits, hreg⟩ : PixelCountLegal s ∧ FrameBitsLegal s ∧ RegionLegal s := by simpa using hpass
    exact (running_of_capCheck rfl).2 ⟨hcur, hpix, hbits, .inr ⟨hl, hreg⟩⟩
  | extract =>
    rw [exec_extract_of_start he hp]
    refine startChecked_answers_inv hs hu fun hpass => ?_
    obtain ⟨hpix, hreg⟩ : PixelCountLegal s ∧ RegionLegal s := by simpa using hpass
    exact extractContinuation_inv hs hu hp hl hpix hreg
  | rd offset size => exact absurd (latched_isCommand hl) (by simp [Instr.isCommand])
  | wr offset size wdata => exact absurd (latched_isCommand hl) (by simp [Instr.isCommand])

/-! ### PACK and UNPACK -/

/-- The PACK step of a message that fits MSG RAM builds the frame and finishes OK. -/
theorem packStep_of_legal {s : State} (hn : MsgLenLegal s) : packStep s = .next (finish .ok (packMessage s.msgLen.toNat s)) := by
  simp [packStep, Nat.not_lt.2 hn]

theorem packStep_answers_inv {s : State} (hs : Storage s) (hu : UnderWay s) (hn : MsgLenLegal s) : AnswersInv (packStep s) := by
  rw [packStep_of_legal hn]
  have hframe : Memory.Fits (packedFrame s s.msgLen.toNat) s.params.frameCap :=
    Memory.fill_fits (Memory.fill_fits hs.frame_wf (by simp [Params.frameCap]) _) (by simp only [Params.frameCap]; omega) _
  exact answersInv_next (Storage.inv_finish { hs with frame_wf := hframe } hu.engaged.2 (by simp))

/-- UNPACK's step has no stop where the frame fits FRAME RAM: L div 8 is then at most MSG_CAP (spec/00_scope.md R9). -/
theorem unpackStep_answers {s : State} (hbits : FrameBitsLegal s) : ∃ t, unpackStep s = .next t := by
  have hcap : s.params.frameCap = s.params.msgCap + 4 := rfl
  simp only [unpackStep]
  split
  · exact ⟨_, rfl⟩
  · split
    · exact ⟨_, rfl⟩
    · rw [if_neg (by omega)]
      exact ⟨_, rfl⟩

theorem unpackStep_answers_inv {s : State} (hs : Storage s) (hu : UnderWay s) (hbits : FrameBitsLegal s) :
    AnswersInv (unpackStep s) := by
  obtain ⟨t, ht⟩ := unpackStep_answers hbits
  refine ⟨t, ht, ?_⟩
  obtain ⟨-, rfl⟩ | ⟨-, -, rfl⟩ | ⟨-, hn, rfl⟩ := unpackStep_next ht
  · exact hs.inv_finish hu.engaged.2 (by simp)
  · exact Storage.inv_finish { hs with } hu.engaged.2 (by simp)
  · have hmsg := Memory.fill_fits hs.msg_wf (base := 0) (by simpa using hn) fun j => readFrame s (4 + j)
    exact Storage.inv_finish { hs with msg_wf := hmsg } hu.engaged.2 (by simp)

/-! ### Channel bytes -/

/-- A channel bit below the capacity lies in the carrier region (spec/20_memory.md R75). -/
theorem byteAddr_lt_regionEnd {s : State} {b : Nat} (hb : b < cap s) : byteAddr s b < regionEnd s := by
  simp only [cap] at hb
  simp only [byteAddr, channelAddr, bitAddr, regionEnd]
  omega

theorem byteAddr_lt_carrierSize {s : State} (hreg : RegionLegal s) {b : Nat} (hb : b < cap s) : byteAddr s b < s.params.carrierSize :=
  Nat.lt_of_lt_of_le (byteAddr_lt_regionEnd hb) hreg

/-- A position within the capacity of a legal PIXEL_COUNT meets CURSOR's bound (spec/10_state.md R60). -/
theorem le_cursor_bound {s : State} (hpix : PixelCountLegal s) {b : Nat} (hb : b ≤ cap s) : b ≤ 3 * s.params.maxPixels := by
  simp only [cap] at hb
  omega

/-! ### EMBED -/

theorem embedCapCheckStep_answers_inv {s : State} (hs : Storage s) (hu : UnderWay s) (hl : latched s = some .embed) (hcur : s.cursor = 0)
    (hpix : PixelCountLegal s) (hbits : FrameBitsLegal s) (hreg : RegionLegal s) : AnswersInv (embedCapCheckStep s) := by
  unfold embedCapCheckStep
  split
  · exact answersInv_next (hs.inv_finish hu.engaged.2 (by simp))
  · next hfit =>
    split
    · exact answersInv_next (hs.inv_finish hu.engaged.2 (by simp))
    · next hne =>
      refine answersInv_next (Storage.inv_of_underWay { hs with } { hu with running := (running_of_writeHeader rfl).2 ?_ })
      exact ⟨⟨hl, by simp only [enterPhase_cursor, enterPhase_frameBits]; omega, Nat.not_lt.1 hfit, hpix, hbits, hreg⟩, by simp [hcur]⟩

/-- EMBED's condition in a WRITE phase, whichever of the two the position selects. -/
theorem running_of_writePhase {s : State} (hp : s.phase = writePhase s.cursor) (h : Embedding s) : Running s := by
  unfold writePhase at hp
  split at hp
  · next hlt => exact (running_of_writeHeader hp).2 ⟨h, hlt⟩
  · next hge => exact (running_of_writePayload hp).2 ⟨h, Nat.not_lt.1 hge⟩

/-- A completed WRITE step to a byte that exists keeps the invariant (spec/43_embedder.md R173). -/
theorem writeBitDone_inv {s : State} (hs : Storage s) (hu : UnderWay s) (hemb : Embedding s) {a : Nat} (ha : a < s.params.carrierSize)
    (v : Byte) : Inv (writeBitDone a v s) := by
  obtain ⟨hl, hlt, hfit, hpix, hbits, hreg⟩ := hemb
  have hs' : Storage (advanceCursor (writeCarrier a v s)) :=
    { hs with
      carrier_wf := Memory.set_fits hs.carrier_wf ha v
      cursor_bound := le_cursor_bound hpix (Nat.le_trans hlt hfit) }
  simp only [writeBitDone]
  split
  · exact hs'.inv_finish hu.engaged.2 (by simp)
  · next hmore =>
    refine Storage.inv_of_underWay { hs' with } { hu with running := running_of_writePhase rfl ?_ }
    exact ⟨hl, Nat.lt_of_le_of_ne hlt hmore, hfit, hpix, hbits, hreg⟩

/-- A WRITE step whose frame byte and carrier byte exist answers. -/
theorem writeBitStep_answers {s : State} (hf : s.cursor / 8 < s.params.frameCap) (ha : byteAddr s s.cursor < s.params.carrierSize) :
    ∃ t, writeBitStep s = .next t := by
  simp only [writeBitStep, if_neg (Nat.not_le.2 hf), if_neg (Nat.not_le.2 ha)]
  cases s.port <;> exact ⟨_, rfl⟩

theorem writeBitStep_answers_inv {s : State} (hs : Storage s) (hu : UnderWay s) (hemb : Embedding s) : AnswersInv (writeBitStep s) := by
  have ⟨_, hlt, hfit, _, hbits, hreg⟩ := hemb
  have ha : byteAddr s s.cursor < s.params.carrierSize := byteAddr_lt_carrierSize hreg (Nat.lt_of_lt_of_le hlt hfit)
  obtain ⟨t, ht⟩ := writeBitStep_answers (by omega) ha
  refine ⟨t, ht, ?_⟩
  obtain ⟨-, -, ⟨-, rfl⟩ | ⟨-, rfl⟩ | ⟨-, rfl⟩⟩ := writeBitStep_next ht
  · exact Storage.inv_finish { hs with } hu.engaged.2 (by simp)
  · exact Storage.inv_finish { hs with carrier_wf := Memory.set_fits hs.carrier_wf ha _ } hu.engaged.2 (by simp)
  · exact writeBitDone_inv (s := logAccess _ (logAccess _ s)) { hs with } { hu with } hemb ha _

/-! ### EXTRACT -/

/-- Where the payload bit at CURSOR completes a byte, MSG RAM has that byte (spec/44_extractor.md R195). -/
def PayloadByteFits (s : State) : Prop := (s.cursor - 32 + 1) % 8 = 0 → (s.cursor - 32 + 1) / 8 - 1 < s.params.msgCap

theorem PayloadByteFits.not_outside {s : State} (h : PayloadByteFits s) :
    ¬((s.cursor - 32 + 1) % 8 = 0 ∧ (s.cursor - 32 + 1) / 8 - 1 ≥ s.params.msgCap) :=
  fun ⟨hbyte, hge⟩ => Nat.not_lt.2 hge (h hbyte)

section
variable {s : State} (ha : byteAddr s s.cursor < s.params.carrierSize)
include ha

theorem readHeaderStep_of_readError (hport : s.port = .readError) :
    readHeaderStep s = .next (finish .busError (logAccess (.read (byteAddr s s.cursor)) s)) := by
  simp [readHeaderStep, Nat.not_le.2 ha, hport]

theorem readHeaderStep_of_answered (hport : s.port ≠ .readError) :
    readHeaderStep s = .next
      (let s' := takeHeaderBit (carrierBit s s.cursor) (logAccess (.read (byteAddr s s.cursor)) s)
       if s.cursor + 1 = 32 then enterPhase .validateLength s' else s') := by
  cases hp : s.port <;> simp [readHeaderStep, Nat.not_le.2 ha, hp] at hport ⊢

theorem readPayloadStep_of_readError (hr : PayloadByteFits s) (hport : s.port = .readError) :
    readPayloadStep s = .next (finish .busError (logAccess (.read (byteAddr s s.cursor)) s)) := by
  simp only [readPayloadStep, if_neg (Nat.not_le.2 ha), if_neg hr.not_outside, hport]

theorem readPayloadStep_of_answered (hr : PayloadByteFits s) (hport : s.port ≠ .readError) :
    readPayloadStep s =
      .next (readPayloadDone (logAccess (.read (byteAddr s s.cursor)) s) (s.cursor - 32) (carrierBit s s.cursor)) := by
  simp only [readPayloadStep, if_neg (Nat.not_le.2 ha), if_neg hr.not_outside]

end

theorem readHeaderStep_answers_inv {s : State} (hs : Storage s) (hu : UnderWay s) (hp : s.phase = .readHeader) :
    AnswersInv (readHeaderStep s) := by
  obtain ⟨hext, hcur⟩ := (running_of_readHeader hp).1 hu.running
  have ⟨_, hcap, hpix, hreg⟩ := hext
  have ha : byteAddr s s.cursor < s.params.carrierSize := byteAddr_lt_carrierSize hreg (Nat.lt_of_lt_of_le hcur hcap)
  by_cases hport : s.port = .readError
  · rw [readHeaderStep_of_readError ha hport]
    exact answersInv_next (Storage.inv_finish { hs with } hu.engaged.2 (by simp))
  · rw [readHeaderStep_of_answered ha hport]
    have hs' : Storage (takeHeaderBit (carrierBit s s.cursor) (logAccess (.read (byteAddr s s.cursor)) s)) :=
      { hs with cursor_bound := le_cursor_bound hpix (Nat.le_trans hcur hcap) }
    refine answersInv_next ?_
    dsimp only
    split
    · next hlast =>
      exact Storage.inv_of_underWay { hs' with } { hu with running := (running_of_validateLength rfl).2 ⟨hext, hlast⟩ }
    · next hmore =>
      refine hs'.inv_of_underWay { hu with running := (running_of_readHeader ?_).2 ⟨hext, lt_of_le_of_ne hcur hmore⟩ }
      exact hp

theorem validateLengthStep_answers_inv {s : State} (hs : Storage s) (hu : UnderWay s) (hext : Extracting s) (hcur : s.cursor = 32) :
    AnswersInv (validateLengthStep s) := by
  simp only [validateLengthStep]
  split
  · exact answersInv_next (Storage.inv_finish { hs with } hu.engaged.2 (by simp))
  · next hvalid =>
    obtain ⟨hpos, hfit⟩ : 0 < s.shift.toNat ∧ 32 + s.shift.toNat ≤ cap s := of_decide_eq_true (Bool.of_not_eq_false hvalid)
    split
    · exact answersInv_next (Storage.inv_finish { hs with } hu.engaged.2 (by simp))
    · next hsize =>
      refine answersInv_next (Storage.inv_of_underWay { hs with } { hu with running := (running_of_readPayload rfl).2 ?_ })
      exact ⟨hext, ⟨rfl, hpos, hfit, Nat.not_lt.1 hsize⟩, Nat.le_of_eq hcur.symm, by simp [hcur, hpos]⟩

/-- The state after a payload bit has been read keeps the invariant (spec/44_extractor.md R195). -/
theorem readPayloadDone_inv {s : State} (hs : Storage s) (hu : UnderWay s) (hp : s.phase = .readPayload)
    (hr : PayloadByteFits s) (v : Bool) : Inv (readPayloadDone s (s.cursor - 32) v) := by
  obtain ⟨hext, hacc, hlo, hhi⟩ := (running_of_readPayload hp).1 hu.running
  have ⟨_, _, hpix, _⟩ := hext
  have ⟨_, _, hfit, _⟩ := hacc
  have hmsg : Memory.Fits (readPayloadDone s (s.cursor - 32) v).msg s.params.msgCap := by
    rw [readPayloadDone_msg]
    split
    · next hbyte => exact Memory.set_fits hs.msg_wf (hr hbyte) _
    · exact hs.msg_wf
  have hs' : Storage (readPayloadDone s (s.cursor - 32) v) :=
    { hs with msg_wf := hmsg, cursor_bound := le_cursor_bound hpix (Nat.le_trans hhi hfit) }
  have hphase := readPayloadDone_phase (s.cursor - 32) v s
  refine hs'.inv_of_underWay { hu with running := ?_ }
  split at hphase
  · next hlast => exact (running_of_decode hphase).2 ⟨hext, hacc, by simp only [readPayloadDone_cursor, readPayloadDone_shift]; omega⟩
  · next hmore =>
    refine (running_of_readPayload (hphase.trans hp)).2 ⟨hext, hacc, ?_⟩
    simp only [readPayloadDone_cursor, readPayloadDone_shift]
    omega

theorem readPayloadStep_answers_inv {s : State} (hs : Storage s) (hu : UnderWay s) (hp : s.phase = .readPayload) :
    AnswersInv (readPayloadStep s) := by
  obtain ⟨⟨_, _, _, hreg⟩, ⟨_, _, hfit, hsize⟩, hlo, hhi⟩ := (running_of_readPayload hp).1 hu.running
  have ha : byteAddr s s.cursor < s.params.carrierSize := byteAddr_lt_carrierSize hreg (Nat.lt_of_lt_of_le hhi hfit)
  have hr : PayloadByteFits s := by simp only [PayloadByteFits]; omega
  by_cases hport : s.port = .readError
  · rw [readPayloadStep_of_readError ha hr hport]
    exact answersInv_next (Storage.inv_finish { hs with } hu.engaged.2 (by simp))
  · rw [readPayloadStep_of_answered ha hr hport]
    exact answersInv_next (readPayloadDone_inv (s := logAccess _ s) { hs with } { hu with } hp hr _)

theorem decodeStep_answers_inv {s : State} (hs : Storage s) (hu : UnderWay s) : AnswersInv (decodeStep s) :=
  answersInv_next (Storage.inv_finish { hs with } hu.engaged.2 (by simp))

/-! ### Every command, in every phase -/

/-- The latched command's step answers and keeps the invariant: the phase's condition names the command, and its step lemma applies. -/
theorem exec_answers_of_latched {s : State} (hs : Storage s) (hu : UnderWay s) {i : Instr} (hl : latched s = some i) :
    AnswersInv (exec i s) := by
  have he : Engaged s := hu.engaged
  cases hp : s.phase with
  | idle => exact absurd hp hu.running.phase_ne_idle
  | start => exact exec_answers_of_start hs hu hp hl
  | pack =>
    obtain ⟨hl', -, hn⟩ := (running_of_pack hp).1 hu.running
    obtain rfl : Instr.pack = i := Option.some.inj (hl'.symm.trans hl)
    rw [exec_pack_of_pack he hp]
    exact packStep_answers_inv hs hu hn
  | unpack =>
    obtain ⟨hl', -, hbits⟩ := (running_of_unpack hp).1 hu.running
    obtain rfl : Instr.unpack = i := Option.some.inj (hl'.symm.trans hl)
    rw [exec_unpack_of_unpack he hp]
    exact unpackStep_answers_inv hs hu hbits
  | capCheck =>
    obtain ⟨hcur, hpix, hbits, hl' | ⟨hl', hreg⟩⟩ := (running_of_capCheck hp).1 hu.running
    · obtain rfl : Instr.check = i := Option.some.inj (hl'.symm.trans hl)
      rw [exec_check_of_capCheck he hp]
      exact answersInv_next (hs.inv_finish he.2 (by split <;> simp))
    · obtain rfl : Instr.embed = i := Option.some.inj (hl'.symm.trans hl)
      rw [exec_embed_of_capCheck he hp]
      exact embedCapCheckStep_answers_inv hs hu hl hcur hpix hbits hreg
  | writeHeader =>
    obtain ⟨hemb, -⟩ := (running_of_writeHeader hp).1 hu.running
    obtain rfl : Instr.embed = i := Option.some.inj (hemb.1.symm.trans hl)
    rw [exec_embed_of_writeHeader he hp]
    exact writeBitStep_answers_inv hs hu hemb
  | writePayload =>
    obtain ⟨hemb, -⟩ := (running_of_writePayload hp).1 hu.running
    obtain rfl : Instr.embed = i := Option.some.inj (hemb.1.symm.trans hl)
    rw [exec_embed_of_writePayload he hp]
    exact writeBitStep_answers_inv hs hu hemb
  | readHeader =>
    obtain ⟨hext, hcur⟩ := (running_of_readHeader hp).1 hu.running
    obtain rfl : Instr.extract = i := Option.some.inj (hext.1.symm.trans hl)
    rw [exec_extract_of_readHeader he hp]
    exact readHeaderStep_answers_inv hs hu hp
  | validateLength =>
    obtain ⟨hext, hcur⟩ := (running_of_validateLength hp).1 hu.running
    obtain rfl : Instr.extract = i := Option.some.inj (hext.1.symm.trans hl)
    rw [exec_extract_of_validateLength he hp]
    exact validateLengthStep_answers_inv hs hu hext hcur
  | readPayload =>
    obtain ⟨hext, -⟩ := (running_of_readPayload hp).1 hu.running
    obtain rfl : Instr.extract = i := Option.some.inj (hext.1.symm.trans hl)
    rw [exec_extract_of_readPayload he hp]
    exact readPayloadStep_answers_inv hs hu hp
  | decode =>
    obtain ⟨hext, -⟩ := (running_of_decode hp).1 hu.running
    obtain rfl : Instr.extract = i := Option.some.inj (hext.1.symm.trans hl)
    rw [exec_extract_of_decode he hp]
    exact decodeStep_answers_inv hs hu

/-- The only phase in which no command is latched is START: an illegal word never leaves it. -/
theorem Running.start_of_illegal {s : State} (h : Running s) (hl : latched s = none) : s.phase = .start := by
  unfold Running at h
  split at h <;> simp_all

/-- The engine's step always answers and keeps the invariant. -/
theorem engineStep_answers {s : State} (h : Inv s) : AnswersInv (engineStep s) := by
  obtain ⟨hb, -, i, hl, -, heq⟩ | ⟨hb, hr, hl, heq⟩ | ⟨-, heq⟩ := engineStep_cases s
  · rw [heq]
    exact exec_answers_of_latched h.storage (h.underWay hb) hl
  · rw [heq, execIllegal_of_start ⟨hb, hr⟩ ((h.running hb).start_of_illegal hl)]
    exact answersInv_next (h.storage.inv_finish hr (by simp))
  · exact ⟨s, heq, h⟩

end Sys2Proof.Machine
end

section
/-!
PROOF. HOST, the other agents and the environment: each keeps the invariant where it answers, and stops only for the reasons the spec names.
With the engine's lemma this settles the two statements about every step.
-/

namespace Sys2Proof.Machine

/-! ### HOST transactions -/

/-- A value written to CARRIER_BASE has the register's ADDR_W bits (spec/45_host_access.md R225). -/
theorem carrierBaseBits_lt (s : State) (w : Word) : (carrierBaseBits s w).toNat < s.params.carrierSize := by
  rw [carrierBaseBits, BitVec.toNat_ofNat]
  exact Nat.lt_of_le_of_lt (Nat.mod_le _ _) (Nat.mod_lt _ (carrierSize_pos s.params))

theorem writeMsgPort_inv {s : State} (h : Inv s) (w : Word) : Inv (writeMsgPort w s) := by
  simp only [writeMsgPort]
  split
  · next hp =>
    have hmsg := Memory.set_fits h.msg_wf hp (w.setWidth 8)
    exact (h.of_memories hmsg h.frame_wf h.carrier_wf h.host_copies_wf.1 h.host_copies_wf.2).of_unread
  · exact h.of_unread

theorem writeFramePort_inv {s : State} (h : Inv s) (w : Word) : Inv (writeFramePort w s) := by
  simp only [writeFramePort]
  split
  · next hp =>
    have hframe := Memory.set_fits h.frame_wf hp (w.setWidth 8)
    exact (h.of_memories h.msg_wf hframe h.carrier_wf h.host_copies_wf.1 h.host_copies_wf.2).of_unread
  · exact h.of_unread

/-- A register write that is not dropped keeps the invariant (spec/45_host_access.md R223 to R227, spec/40_command.md R121). Those of the
locked registers and of CMD happen only while no command runs. -/
theorem storeReg_inv {s : State} (h : Inv s) (hr : s.rst = false) {r : Reg} (hd : writeDropped r s = false) (w : Word) :
    Inv (storeReg r w s) := by
  have hrest (hlock : (r.locked || decide (r = .cmd)) = true) : Resting s := h.resting (by simpa [writeDropped, hlock] using hd)
  cases r with
  | ctrl => exact { h with reset_idle := by simp [storeReg, hr] }
  | cmd => exact h.storage.inv_accept hr w
  | status => exact { h with busy_not_done := fun hb => by simp [storeReg, h.busy_not_done hb], reset_idle := by simp [storeReg, hr] }
  | carrierBase => exact Storage.inv_of_resting { h.storage with base_bits := carrierBaseBits_lt s w } { hrest rfl with }
  | pixelCount => exact Storage.inv_of_resting { h.storage with } { hrest rfl with }
  | frameBits => exact Storage.inv_of_resting { h.storage with } { hrest rfl with }
  | msgLen => exact Storage.inv_of_resting { h.storage with } { hrest rfl with }
  | msgPtr => exact h.of_unread
  | framePtr => exact h.of_unread
  | msgData => exact writeMsgPort_inv h w
  | frameData => exact writeFramePort_inv h w
  | id | phase | cursor | hdrLen | paramMsgCap | paramMaxPixels | reserved => exact h

theorem execRd_inv {offset : BitVec 8} {size : Nat} {s t : State} (h : Inv s) (ht : execRd offset size s = .next t) : Inv t := by
  obtain ⟨-, ⟨-, rfl⟩ | ⟨-, rfl⟩⟩ := execRd_next ht
  · rw [readReg_frame]
    exact h.of_unread
  · exact h.of_unread

theorem execWr_inv {offset : BitVec 8} {size : Nat} {w : Word} {s t : State} (h : Inv s) (ht : execWr offset size w s = .next t) :
    Inv t := by
  obtain ⟨hr, ⟨-, rfl⟩ | ⟨-, rfl⟩⟩ := execWr_next ht
  · obtain ⟨-, heq⟩ | ⟨hd, heq⟩ := writeReg_cases (regAt offset) w s <;> rw [heq]
    · exact h.of_unread
    · exact (storeReg_inv h hr hd w).of_unread
  · exact h.of_unread

theorem hostTransaction_inv {address : Nat} {dir : Dir} {size : Nat} {w : Word} {s t : State} (h : Inv s)
    (ht : hostTransaction address dir size w s = .next t) : Inv t := by
  obtain ⟨offset, -, ⟨-, heq⟩ | ⟨-, heq⟩⟩ | ⟨-, heq⟩ := hostTransaction_cases address dir size w s
  · exact execRd_inv h (heq.symm.trans ht)
  · exact execWr_inv h (heq.symm.trans ht)
  · exact Host.Outcome.next.inj (heq.symm.trans ht) ▸ h

/-! ### Direct carrier accesses and the host's copies -/

section
variable {s : State} (h : Inv s) {a : Nat} (ha : a < s.params.carrierSize)
include h

theorem discardCopy_inv : Inv (discardCopy a s) :=
  h.of_memories h.msg_wf h.frame_wf h.carrier_wf h.host_copies_wf.1 (Memory.erase_fits h.host_copies_wf.2 a)

include ha

theorem writeCarrier_inv (v : Byte) : Inv (writeCarrier a v s) :=
  h.of_memories h.msg_wf h.frame_wf (Memory.set_fits h.carrier_wf ha v) h.host_copies_wf.1 h.host_copies_wf.2

theorem fillCopy_inv : Inv (fillCopy a s) :=
  h.of_memories h.msg_wf h.frame_wf h.carrier_wf h.host_copies_wf.1 (Memory.set_fits h.host_copies_wf.2 ha _)

theorem holdHostWrite_inv (v : Byte) : Inv (holdHostWrite a v s) :=
  h.of_memories h.msg_wf h.frame_wf h.carrier_wf (Memory.set_fits h.host_copies_wf.1 ha v) (Memory.erase_fits h.host_copies_wf.2 a)

theorem writeThrough_inv (v : Byte) : Inv (writeThrough a v s) :=
  h.of_memories h.msg_wf h.frame_wf (Memory.set_fits h.carrier_wf ha v) (Memory.erase_fits h.host_copies_wf.1 a)
    (Memory.erase_fits h.host_copies_wf.2 a)

theorem writeCarrierDrawn_inv (v : Byte) : Inv (writeCarrierDrawn a v s) :=
  (writeCarrier_inv h ha (if Config.writeLands s.draws then v else readCarrier s a)).of_unread

end

theorem hostCarrierRead_inv {a : Nat} {via : Via} {s t : State} (h : Inv s) (ht : hostCarrierRead a via s = .next t) : Inv t := by
  obtain ⟨-, -, rfl⟩ := hostCarrierRead_next ht
  split
  · exact (discardCopy_inv h (a := a)).of_unread
  · exact h.of_unread

theorem hostCarrierWrite_inv {a : Nat} {v : Byte} {via : Via} {s t : State} (h : Inv s) (ht : hostCarrierWrite a v via s = .next t) :
    Inv t := by
  obtain ⟨ha, -, ⟨-, rfl⟩ | ⟨-, -, rfl⟩ | ⟨-, -, rfl⟩⟩ := hostCarrierWrite_next ht
  · exact writeCarrier_inv h ha v
  · exact holdHostWrite_inv h ha v
  · exact writeThrough_inv h ha v

theorem hostCacheMove_inv {a : Nat} {move : CacheMove} {s t : State} (h : Inv s) (ht : hostCacheMove a move s = .next t) : Inv t := by
  obtain ⟨ha, rfl | ⟨-, ⟨-, rfl⟩ | ⟨-, rfl⟩ | ⟨-, -, v, -, rfl⟩⟩⟩ := hostCacheMove_next ht
  · exact h
  · exact fillCopy_inv h ha
  · exact discardCopy_inv h
  · exact writeThrough_inv h ha v

/-! ### RST -/

/-- A write in flight is to a byte that exists (notes/assumptions/12.md). -/
theorem byteAddr_lt_of_writeInFlight {s : State} (h : writeInFlight s = true) : byteAddr s s.cursor < s.params.carrierSize := by
  simp only [writeInFlight, Bool.and_eq_true, decide_eq_true_eq] at h
  exact h.2.2

theorem assertReset_inv {s : State} (h : Inv s) : Inv (assertReset s) := by
  simp only [assertReset]
  split
  · next hw => exact (writeCarrierDrawn_inv h (byteAddr_lt_of_writeInFlight hw) _).storage.inv_setRst_resetBlock true
  · exact h.storage.inv_setRst_resetBlock true

theorem changeRst_inv {s : State} (h : Inv s) (level : Bool) : Inv (changeRst level s) := by
  obtain ⟨-, heq⟩ | ⟨-, -, heq⟩ | ⟨-, -, heq⟩ := changeRst_cases level s <;> rw [heq]
  · exact h
  · exact assertReset_inv h
  · exact h.storage.inv_setRst_resetBlock false

/-! ### Every event -/

theorem handle_inv {e : Input} {s t : State} (h : Inv s) (ht : handle e s = .next t) : Inv t := by
  cases e with
  | engine => exact (engineStep_answers h).inv_of_eq ht
  | bus address dir size wdata => exact hostTransaction_inv h ht
  | carrierRead a via => exact hostCarrierRead_inv h ht
  | carrierWrite a v via => exact hostCarrierWrite_inv h ht
  | hostCache a move => exact hostCacheMove_inv h ht
  | reset asserted => exact Host.Outcome.next.inj ht ▸ changeRst_inv h asserted
  | portReply reply => exact Host.Outcome.next.inj ht ▸ h.of_unread

/-- Settles O56: the step is the engine's or an event's, and each keeps the invariant. -/
theorem everyStepKeepsTheInvariant : Obligations.EveryStepKeepsTheInvariant := by
  intro s t h ht
  obtain ⟨-, heq⟩ | ⟨e, rest, -, heq⟩ := step_eq s
  · exact (engineStep_answers h.of_unread).inv_of_eq (heq.symm.trans ht)
  · exact handle_inv h.of_unread (heq.symm.trans ht)

/-! ### The stops -/

/-- An answer that, if it is a stop, is one the spec names: the hazard, a HOST transaction in reset, or an event that names no carrier
byte. -/
def StopsAsNamed (s : State) (a : Answer) : Prop :=
  (∀ f, a = .fault f → f = .carrierRace ∨ (f = .stuckInReset ∧ s.rst = true)) ∧ ∀ r, a = .refused r → r = .noSuchCarrierByte

section
variable (s : State)

theorem stopsAsNamed_next (t : State) : StopsAsNamed s (.next t) := by simp [StopsAsNamed]

theorem stopsAsNamed_carrierRace : StopsAsNamed s (.fault .carrierRace) := by simp [StopsAsNamed]

theorem stopsAsNamed_stuckInReset (hr : s.rst = true) : StopsAsNamed s (.fault .stuckInReset) := by simp [StopsAsNamed, hr]

theorem stopsAsNamed_noSuchCarrierByte : StopsAsNamed s (.refused .noSuchCarrierByte) := by simp [StopsAsNamed]

theorem execRd_stops (offset : BitVec 8) (size : Nat) : StopsAsNamed s (execRd offset size s) := by
  unfold execRd
  split
  · next hr => exact stopsAsNamed_stuckInReset s hr
  · split <;> exact stopsAsNamed_next s _

theorem execWr_stops (offset : BitVec 8) (size : Nat) (w : Word) : StopsAsNamed s (execWr offset size w s) := by
  unfold execWr
  split
  · next hr => exact stopsAsNamed_stuckInReset s hr
  · split <;> exact stopsAsNamed_next s _

theorem hostTransaction_stops (address : Nat) (dir : Dir) (size : Nat) (w : Word) :
    StopsAsNamed s (hostTransaction address dir size w s) := by
  obtain ⟨offset, -, ⟨-, heq⟩ | ⟨-, heq⟩⟩ | ⟨-, heq⟩ := hostTransaction_cases address dir size w s <;> rw [heq]
  · exact execRd_stops s offset size
  · exact execWr_stops s offset size w
  · exact stopsAsNamed_next s s

theorem hostCarrierRead_stops (a : Nat) (via : Via) : StopsAsNamed s (hostCarrierRead a via s) := by
  simp only [hostCarrierRead]
  split
  · exact stopsAsNamed_noSuchCarrierByte s
  · split
    · exact stopsAsNamed_carrierRace s
    · exact stopsAsNamed_next s _

theorem hostCarrierWrite_stops (a : Nat) (v : Byte) (via : Via) : StopsAsNamed s (hostCarrierWrite a v via s) := by
  simp only [hostCarrierWrite]
  split
  · exact stopsAsNamed_noSuchCarrierByte s
  · split
    · exact stopsAsNamed_carrierRace s
    · split
      · exact stopsAsNamed_next s _
      · cases via <;> exact stopsAsNamed_next s _

theorem hostCacheMove_stops (a : Nat) (move : CacheMove) : StopsAsNamed s (hostCacheMove a move s) := by
  simp only [hostCacheMove]
  split
  · exact stopsAsNamed_noSuchCarrierByte s
  · split
    · exact stopsAsNamed_next s _
    · split
      · exact stopsAsNamed_next s _
      · exact stopsAsNamed_next s _
      · exact stopsAsNamed_next s _
      · split
        · exact stopsAsNamed_carrierRace s
        · exact stopsAsNamed_next s _

end

/-- The engine never stops in a state that meets the invariant. -/
theorem engineStep_stops {s : State} (h : Inv s) : StopsAsNamed s (engineStep s) := by
  obtain ⟨t, ht, -⟩ := engineStep_answers h
  rw [ht]
  exact stopsAsNamed_next s t

theorem handle_stops {s : State} (h : Inv s) (e : Input) : StopsAsNamed s (handle e s) := by
  cases e with
  | engine => exact engineStep_stops h
  | bus address dir size wdata => exact hostTransaction_stops s address dir size wdata
  | carrierRead a via => exact hostCarrierRead_stops s a via
  | carrierWrite a v via => exact hostCarrierWrite_stops s a v via
  | hostCache a move => exact hostCacheMove_stops s a move
  | reset asserted => exact stopsAsNamed_next s _
  | portReply reply => exact stopsAsNamed_next s _

theorem step_stops {s : State} (h : Inv s) : StopsAsNamed s (step s) := by
  obtain ⟨-, heq⟩ | ⟨e, rest, -, heq⟩ := step_eq s <;> rw [heq]
  · exact engineStep_stops (s := { s with portLog := [] }) h.of_unread
  · exact handle_stops (s := { s with inputs := rest, portLog := [] }) h.of_unread e

/-- Settles O57: the latched command's step answers in every phase, and every event stops as the spec names. -/
theorem runningCommandsNeverGetStuck : Obligations.RunningCommandsNeverGetStuck := by
  intro s h
  refine ⟨fun i he hl => ?_, (step_stops h).1, (step_stops h).2⟩
  obtain ⟨t, ht, -⟩ := exec_answers_of_latched h.storage (h.underWay he.1) hl
  exact ⟨t, ht⟩

end Sys2Proof.Machine
end

section
/-!
PROOF. The frame that PACK builds, as bytes and as bits (spec/41_framer.md R142), and what a legal choice of parameters guarantees
(spec/00_scope.md R9).
-/

namespace Sys2Proof.Machine

/-! ### Header bytes and frame bits -/

/-- Bit `i` of header byte `k` is bit `24 − 8k + i` of the header. -/
theorem getLsbD_headerByte (l : Word) {k i : Nat} (hi : i < 8) : (headerByte l k).getLsbD i = l.getLsbD (24 - 8 * k + i) := by
  simp [headerByte, hi]

/-- A header byte as a number (spec/20_memory.md R81). -/
theorem toNat_headerByte (l : Word) (k : Nat) : (headerByte l k).toNat = l.toNat / 2 ^ (24 - 8 * k) % 256 := by
  simp [headerByte, Nat.shiftRight_eq_div_pow]

/-- fbit takes a byte's bits from the most significant on (spec/20_memory.md R80). -/
theorem fbit_eq_getLsbD (s : State) (j : Nat) {m : Nat} (hm : m < 8) : fbit s (8 * j + m) = (readFrame s j).getLsbD (7 - m) := by
  have hj : (8 * j + m) / 8 = j := by omega
  have hr : (8 * j + m) % 8 = m := by omega
  simp [fbit, hj, hr]

/-! ### The packed frame -/

section
variable (s : State) {n : Nat}

/-- The first four bytes of the packed frame are the header's. -/
theorem readFrame_packMessage_header {k : Nat} (hk : k < 4) :
    readFrame (packMessage n s) k = headerByte (BitVec.ofNat 32 (8 * n)) k := by
  have hh : Memory.get? (Memory.fill s.frame 0 (headerByte (BitVec.ofNat 32 (8 * n))) 4) (0 + k) = some _ :=
    Memory.get?_fill _ _ _ hk
  rw [Nat.zero_add] at hh
  simp [readFrame, packedFrame, Memory.get?_fill_outside _ _ _ (Or.inl hk), hh]

/-- The message follows the header. -/
theorem readFrame_packMessage_message {i : Nat} (hi : i < n) : readFrame (packMessage n s) (4 + i) = readMsg s i := by
  simp [readFrame, packedFrame, Memory.get?_fill _ _ _ hi]

/-- The rest of FRAME RAM stays. -/
theorem readFrame_packMessage_rest {j : Nat} (hj : 4 + n ≤ j) : readFrame (packMessage n s) j = readFrame s j := by
  simp [readFrame, packedFrame, Memory.get?_fill_outside _ _ _ (Or.inr hj), Memory.get?_fill_outside _ 0 _ (Or.inr (by omega : 0 + 4 ≤ j))]

/-- The header's bits, most significant first. -/
theorem fbit_packMessage_header (hn : 8 * n < 2 ^ 32) {i : Nat} (hi : i < 32) :
    fbit (packMessage n s) i = (8 * n).testBit (31 - i) := by
  have hbyte : i / 8 < 4 := by omega
  have hm : i % 8 < 8 := Nat.mod_lt _ (by decide)
  have hpos : 24 - 8 * (i / 8) + (7 - i % 8) = 31 - i := by omega
  calc fbit (packMessage n s) i = fbit (packMessage n s) (8 * (i / 8) + i % 8) := by rw [Nat.div_add_mod]
    _ = (headerByte (BitVec.ofNat 32 (8 * n)) (i / 8)).getLsbD (7 - i % 8) := by
      rw [fbit_eq_getLsbD _ _ hm, readFrame_packMessage_header s hbyte]
    _ = (BitVec.ofNat 32 (8 * n)).getLsbD (31 - i) := by rw [getLsbD_headerByte _ (by omega), hpos]
    _ = (8 * n).testBit (31 - i) := by rw [← BitVec.testBit_toNat, BitVec.toNat_ofNat, Nat.mod_eq_of_lt hn]

/-- A message byte's bits, most significant first. -/
theorem fbit_packMessage_message {i m : Nat} (hi : i < n) (hm : m < 8) :
    fbit (packMessage n s) (32 + 8 * i + m) = (readMsg s i).getLsbD (7 - m) := by
  rw [show 32 + 8 * i + m = 8 * (4 + i) + m by omega, fbit_eq_getLsbD _ _ hm, readFrame_packMessage_message s hi]

end

/-! ### PACK's engine step -/

/-- finish leaves FRAME RAM's bytes. -/
@[simp] theorem readFrame_finish (code : Result) (s : State) (j : Nat) : readFrame (finish code s) j = readFrame s j := rfl

/-- Settles O15: the PACK step is `packMessage` and then finish, and the frame's bytes and bits are those of `packMessage`. -/
theorem packBuildsTheFrame : Obligations.PackBuildsTheFrame := by
  intro s hwf he hp hlen
  have hn : 8 * s.msgLen.toNat < 2 ^ 32 := by
    obtain ⟨-, hcap, -⟩ := hwf
    have : s.msgLen.toNat ≤ s.params.msgCap := hlen
    omega
  refine ⟨_, by rw [exec_pack_of_pack he hp, packStep_of_legal hlen], ?_, ?_, ?_, ?_, ?_, ?_, rfl⟩
  · intro k hk
    rw [readFrame_finish, readFrame_packMessage_header s hk, toNat_headerByte, BitVec.toNat_ofNat, Nat.mod_eq_of_lt hn]
  · intro i hi
    exact readFrame_packMessage_message s hi
  · intro j hj
    exact readFrame_packMessage_rest s hj
  · intro i hi
    exact fbit_packMessage_header s hn hi
  · intro i m hi hm
    exact fbit_packMessage_message s hi hm
  · rintro (hlegal | hfit)
    · exact packedFrameBits_toNat (frameBits_fit_of_legal hlegal hlen)
    · exact packedFrameBits_toNat hfit

/-- Settles O18: linear arithmetic from R8's bound on MSG_CAP and from FRAME_CAP = MSG_CAP + 4. -/
theorem legalInstancesHoldEveryFrame : Obligations.LegalInstancesHoldEveryFrame := by
  intro p hp
  have hcap : p.msgCap ≤ 2 ^ 29 - 4 := hp.2.1
  have hframe : p.frameCap = p.msgCap + 4 := rfl
  refine ⟨?_, ?_, ?_, ?_⟩
  · have hfit : 32 + 8 * p.msgCap < 2 ^ 32 ↔ p.msgCap ≠ 2 ^ 29 - 4 := by omega
    exact ⟨fun h => hfit.1 h.2, fun h => ⟨hp, hfit.2 h⟩⟩
  · intro hlegal n hn
    have hfit := frameBits_fit_of_legal hlegal hn
    exact ⟨hfit, packedFrameBits_toNat hfit⟩
  · intro n hn
    omega
  · intro bits l hbits hl
    omega

end Sys2Proof.Machine
end

section
/-!
PROOF. The register window: what a well-formed HOST transaction answers at each offset (spec/10_state.md sections 1 and 2), and the command
that acceptance latches (spec/40_command.md R121).
-/

namespace Sys2Proof.Machine

/-! ### The latched word -/

/-- A CMD word is its opcode with the reserved bits above it. -/
theorem toNat_eq_opcode_add_reserved (w : Word) : w.toNat = (cmdOpcode w).toNat + 16 * (cmdReserved w).toNat := by
  simp only [cmdOpcode, cmdReserved, BitVec.extractLsb'_toNat, Nat.shiftRight_eq_div_pow]
  omega

/-- The words that latch OPILL are those above the last opcode (spec/30_encoding.md R104). -/
theorem cmdIllegal_iff (w : Word) : cmdIllegal w = true ↔ 6 ≤ w.toNat := by
  have hw := toNat_eq_opcode_add_reserved w
  have hop : (cmdOpcode w).toNat < 16 := (cmdOpcode w).isLt
  simp only [cmdIllegal, Bool.or_eq_true, bne_iff_ne, ne_eq, decide_eq_true_eq, BitVec.le_def, ← BitVec.toNat_inj, BitVec.toNat_ofNat]
  omega

/-- OP and OPILL select what the whole word does: the reserved bits and a reserved opcode both reject it. -/
theorem decodeLatched_eq_decodeCmd (w : Word) : decodeLatched (cmdOpcode w) (cmdIllegal w) = (decodeCmd w).toOption := by
  by_cases hres : cmdReserved w = 0#28
  · by_cases hop : 0x6#4 ≤ cmdOpcode w
    · have hbad : instrOfOpcode (cmdOpcode w) = .error .reservedOpcode := by
        generalize cmdOpcode w = op at hop
        revert op
        decide
      simp [decodeLatched, cmdIllegal, decodeCmd, hres, hop, hbad, Except.toOption]
    · simp [decodeLatched, cmdIllegal, decodeCmd, hres, hop]
  · simp [decodeLatched, cmdIllegal, decodeCmd, hres, Except.toOption]

/-- Settles O4: acceptance stores the opcode and the illegal flag of the word, and together they select what the decoder does. -/
theorem latchedCommandIsTheDecodedWord : Obligations.LatchedCommandIsTheDecodedWord :=
  fun w _ => ⟨decodeLatched_eq_decodeCmd w, cmdIllegal_iff w⟩

/-! ### Well-formed transactions -/

theorem offsetAligned_iff (off : BitVec 8) : offsetAligned off = true ↔ off.toNat % 4 = 0 := by
  simp [offsetAligned, ← BitVec.toNat_inj]

section
variable {off : BitVec 8} {s : State}

/-- A word read of an aligned offset reads the register there (spec/45_host_access.md R220). -/
theorem exec_rd_word (hr : s.rst = false) (ha : off.toNat % 4 = 0) : exec (.rd off 4) s = .next (readReg (regAt off) s) := by
  simp [exec, execRd, hr, sizeOk, (offsetAligned_iff off).2 ha]

/-- A word write of an aligned offset writes the register there (spec/45_host_access.md R220). -/
theorem exec_wr_word (hr : s.rst = false) (ha : off.toNat % 4 = 0) (w : Word) :
    exec (.wr off 4 w) s = .next (writeReg (regAt off) w s) := by
  simp [exec, execWr, hr, sizeOk, (offsetAligned_iff off).2 ha]

/-- A read of a register other than a data port answers its value and does nothing else (spec/45_host_access.md R222). -/
theorem exec_rd_value (hr : s.rst = false) (ha : off.toNat % 4 = 0) {r : Reg} (hreg : regAt off = r) (hm : r ≠ .msgData)
    (hf : r ≠ .frameData) : exec (.rd off 4) s = .next { s with rdata := regValue s r, resp := .okay } := by
  rw [exec_rd_word hr ha, hreg, readReg_of_not_port s hm hf]
  rfl

end

/-! ### STATUS -/

theorem getLsbD_flagBit (v : Bool) {j k : Nat} (hj : j < 32) : (flagBit v k).getLsbD j = (v && decide (j = k)) := by
  cases v with
  | false => simp [flagBit]
  | true =>
    have hbit : (flagBit true k).getLsbD j = (decide (k < 32) && decide (k = j)) := BitVec.getLsbD_twoPow k j
    rw [hbit, Bool.true_and, ← Bool.decide_and]
    exact decide_eq_decide.2 (by omega)

/-- Bit `j` of STATUS: a flag below bit 4, RESULT's code from there on (spec/10_state.md R34). -/
theorem getLsbD_statusWord (s : State) {j : Nat} (hj : j < 32) :
    (statusWord s).getLsbD j =
      ((s.busy && decide (j = 0)) || (s.done && decide (j = 1)) || (s.busyErr && decide (j = 2)) || (s.ramErr && decide (j = 3)) ||
        (!decide (j < 4) && s.result.code.getLsbD (j - 4))) := by
  have hw : j - 4 < 32 := by omega
  simp only [statusWord, BitVec.getLsbD_or, getLsbD_flagBit _ hj, BitVec.getLsbD_shiftLeft, BitVec.getLsbD_setWidth, hj, hw, decide_true,
    Bool.true_and]

/-- RESULT's field of STATUS. -/
theorem extractLsb'_statusWord_result (s : State) : (statusWord s).extractLsb' 4 4 = s.result.code := by
  apply BitVec.eq_of_getLsbD_eq
  intro i hi
  rw [BitVec.getLsbD_extractLsb', getLsbD_statusWord s (by omega)]
  simp [hi, show 4 + i ≠ 1 by omega, show 4 + i ≠ 2 by omega, show 4 + i ≠ 3 by omega]

/-- STATUS is 0 above RESULT. -/
theorem extractLsb'_statusWord_high (s : State) : (statusWord s).extractLsb' 8 24 = 0#24 := by
  apply BitVec.eq_of_getLsbD_eq
  intro i hi
  rw [BitVec.getLsbD_extractLsb', getLsbD_statusWord s (by omega), BitVec.getLsbD_of_ge s.result.code _ (by omega)]
  simp [show 8 + i ≠ 1 by omega, show 8 + i ≠ 2 by omega, show 8 + i ≠ 3 by omega]

/-- Settles O39: each offset names a register that is no data port, so the read answers `regValue`; STATUS is taken apart bit by bit. -/
theorem registersReadTheirValues : Obligations.RegistersReadTheirValues := by
  intro s hr
  have hread {off : BitVec 8} {r : Reg} (ha : off.toNat % 4 = 0) (hreg : regAt off = r) (hm : r ≠ .msgData) (hf : r ≠ .frameData)
      {v : Word} (hv : regValue s r = v) : exec (.rd off 4) s = .next { s with rdata := v, resp := .okay } :=
    hv ▸ exec_rd_value hr ha hreg hm hf
  refine ⟨hread (r := .id) rfl rfl nofun nofun rfl, hread (r := .ctrl) rfl rfl nofun nofun rfl,
    hread (r := .cmd) rfl rfl nofun nofun rfl, hread (r := .phase) rfl rfl nofun nofun ?phase,
    hread (r := .cursor) rfl rfl nofun nofun rfl, hread (r := .carrierBase) rfl rfl nofun nofun rfl,
    hread (r := .pixelCount) rfl rfl nofun nofun rfl, hread (r := .frameBits) rfl rfl nofun nofun rfl,
    hread (r := .msgLen) rfl rfl nofun nofun rfl, hread (r := .hdrLen) rfl rfl nofun nofun rfl,
    hread (r := .msgPtr) rfl rfl nofun nofun rfl, hread (r := .framePtr) rfl rfl nofun nofun rfl,
    hread (r := .paramMsgCap) rfl rfl nofun nofun rfl, hread (r := .paramMaxPixels) rfl rfl nofun nofun rfl,
    hread (r := .status) rfl rfl nofun nofun rfl, ?busy, ?done, ?busyErr, ?ramErr, ?result, extractLsb'_statusWord_high s⟩
  case phase => cases hp : s.phase <;> simp [regValue, hp, Phase.code]
  case busy => simp [getLsbD_statusWord, -BitVec.getLsbD_eq_getElem]
  case done => simp [getLsbD_statusWord, -BitVec.getLsbD_eq_getElem]
  case busyErr => simp [getLsbD_statusWord, -BitVec.getLsbD_eq_getElem]
  case ramErr => simp [getLsbD_statusWord, -BitVec.getLsbD_eq_getElem]
  case result =>
    rw [extractLsb'_statusWord_result]
    cases s.result <;> rfl

/-! ### Reserved offsets and read-only registers -/

/-- From 0x44 on the window is reserved (spec/10_state.md R53). -/
theorem regAt_of_reserved {off : BitVec 8} (h : 0x44 ≤ off.toNat) : regAt off = .reserved := by
  revert h
  revert off
  decide

/-- The registers whose writes are ignored: the RO rows of spec/10_state.md R30, and what is reserved (R53). -/
def ignoringRegs : List Reg := [.id, .phase, .cursor, .hdrLen, .paramMsgCap, .paramMaxPixels, .reserved]

theorem writeReg_of_ignoring {r : Reg} (h : r ∈ ignoringRegs) (w : Word) (s : State) : writeReg r w s = answerWrite s := by
  cases r with
  | id | phase | cursor | hdrLen | paramMsgCap | paramMaxPixels | reserved =>
    simp [writeReg, writeDropped, Reg.locked, storeReg]
  | _ => simp [ignoringRegs] at h

/-- Settles O46: the offsets name registers that read 0 or ignore writes. -/
theorem reservedAndReadOnlyOffsets : Obligations.ReservedAndReadOnlyOffsets := by
  intro off w s hr ha
  refine ⟨fun h => exec_rd_value hr ha (regAt_of_reserved h) nofun nofun, fun h => ?_⟩
  have hign : regAt off ∈ ignoringRegs := by
    obtain h | h := h
    · rw [regAt_of_reserved h]
      decide
    · revert h
      revert off
      decide
  rw [exec_wr_word hr ha, writeReg_of_ignoring hign]
  rfl

end Sys2Proof.Machine
end

section
/-!
PROOF. What one step can do, said once (`step_next`): it resets the block, writes or reads a register, is an event that no register feels,
or is the engine's, which accesses no channel byte or is one of three that do (`engineStep_next`). The sticky error flags, CURSOR and the
reset values come out of it.
-/

namespace Sys2Proof.Machine

/-! ### The engine's step, taken apart -/

/-- An engine step that accesses no channel byte: what such a step may change, and nothing else. -/
def NoAccess (s t : State) : Prop :=
  t = { s with
    result := t.result, done := t.done, busy := t.busy, phase := t.phase, msg := t.msg, msgLen := t.msgLen, hdrLen := t.hdrLen
    shift := t.shift, acc := t.acc, frame := t.frame, frameBits := t.frameBits }

section
variable {s t : State}

theorem startChecked_noAccess {checks : List Bool} {c : State} (h : startChecked checks c s = .next t) (hc : NoAccess s c) :
    NoAccess s t := by
  obtain ⟨-, rfl⟩ | ⟨-, rfl⟩ := startChecked_next h
  · rfl
  · exact hc

theorem extractContinuation_noAccess (s : State) : NoAccess s (extractContinuation s) := by
  unfold extractContinuation
  split <;> rfl

theorem packStep_noAccess (h : packStep s = .next t) : NoAccess s t := by
  obtain ⟨-, rfl⟩ := packStep_next h
  rfl

theorem unpackStep_noAccess (h : unpackStep s = .next t) : NoAccess s t := by
  obtain ⟨-, rfl⟩ | ⟨-, -, rfl⟩ | ⟨-, -, rfl⟩ := unpackStep_next h <;> rfl

theorem embedCapCheckStep_noAccess (h : embedCapCheckStep s = .next t) : NoAccess s t := by
  unfold embedCapCheckStep at h
  split at h
  · cases h; rfl
  · split at h <;> cases h <;> rfl

theorem validateLengthStep_noAccess (h : validateLengthStep s = .next t) : NoAccess s t := by
  simp only [validateLengthStep] at h
  split at h
  · cases h; rfl
  · split at h <;> cases h <;> rfl

/-- Everything a READ_HEADER step that answers can do (spec/44_extractor.md R192, R201). -/
theorem readHeaderStep_next (h : readHeaderStep s = .next t) :
    (s.port = .readError ∧ t = finish .busError (logAccess (.read (byteAddr s s.cursor)) s)) ∨
    (s.port ≠ .readError ∧
      t = let s' := takeHeaderBit (carrierBit s s.cursor) (logAccess (.read (byteAddr s s.cursor)) s)
          if s.cursor + 1 = 32 then enterPhase .validateLength s' else s') := by
  by_cases ha : byteAddr s s.cursor < s.params.carrierSize
  · by_cases hport : s.port = .readError
    · rw [readHeaderStep_of_readError ha hport] at h
      exact .inl ⟨hport, (Host.Outcome.next.inj h).symm⟩
    · rw [readHeaderStep_of_answered ha hport] at h
      exact .inr ⟨hport, (Host.Outcome.next.inj h).symm⟩
  · simp only [readHeaderStep, if_pos (Nat.not_lt.1 ha)] at h
    cases h

/-- Everything a READ_PAYLOAD step that answers can do (spec/44_extractor.md R195, R201). -/
theorem readPayloadStep_next (h : readPayloadStep s = .next t) :
    (s.port = .readError ∧ t = finish .busError (logAccess (.read (byteAddr s s.cursor)) s)) ∨
    (s.port ≠ .readError ∧
      t = readPayloadDone (logAccess (.read (byteAddr s s.cursor)) s) (s.cursor - 32) (carrierBit s s.cursor)) := by
  by_cases ha : byteAddr s s.cursor < s.params.carrierSize
  · by_cases hr : PayloadByteFits s
    · by_cases hport : s.port = .readError
      · rw [readPayloadStep_of_readError ha hr hport] at h
        exact .inl ⟨hport, (Host.Outcome.next.inj h).symm⟩
      · rw [readPayloadStep_of_answered ha hr hport] at h
        exact .inr ⟨hport, (Host.Outcome.next.inj h).symm⟩
    · have hout : (s.cursor - 32 + 1) % 8 = 0 ∧ (s.cursor - 32 + 1) / 8 - 1 ≥ s.params.msgCap := by
        simpa [PayloadByteFits] using hr
      simp only [readPayloadStep, if_neg (Nat.not_le.2 ha), if_pos hout] at h
      cases h
  · simp only [readPayloadStep, if_pos (Nat.not_lt.1 ha)] at h
    cases h

/-- What a command's step that answers can be: one that accesses no channel byte, EMBED's WRITE step, or one of EXTRACT's two READ steps. -/
theorem exec_command_next {i : Instr} (hi : i.isCommand = true) (h : exec i s = .next t) :
    NoAccess s t ∨ (i = .embed ∧ writeBitStep s = .next t) ∨
      (i = .extract ∧ (readHeaderStep s = .next t ∨ readPayloadStep s = .next t)) := by
  cases i with
  | nop =>
    obtain ⟨-, -, hk⟩ := whenRunning_next h
    split at hk <;> cases hk
    exact .inl rfl
  | pack =>
    obtain ⟨-, -, hk⟩ := whenRunning_next h
    split at hk
    · exact .inl (startChecked_noAccess hk rfl)
    · exact .inl (packStep_noAccess hk)
    · cases hk
  | unpack =>
    obtain ⟨-, -, hk⟩ := whenRunning_next h
    split at hk
    · exact .inl (startChecked_noAccess hk rfl)
    · exact .inl (unpackStep_noAccess hk)
    · cases hk
  | check =>
    obtain ⟨-, -, hk⟩ := whenRunning_next h
    split at hk
    · exact .inl (startChecked_noAccess hk rfl)
    · cases hk; exact .inl rfl
    · cases hk
  | embed =>
    obtain ⟨-, -, hk⟩ := whenRunning_next h
    split at hk
    · exact .inl (startChecked_noAccess hk rfl)
    · exact .inl (embedCapCheckStep_noAccess hk)
    · exact .inr (.inl ⟨rfl, hk⟩)
    · exact .inr (.inl ⟨rfl, hk⟩)
    · cases hk
  | extract =>
    obtain ⟨-, -, hk⟩ := whenRunning_next h
    split at hk
    · exact .inl (startChecked_noAccess hk (extractContinuation_noAccess s))
    · exact .inr (.inr ⟨rfl, .inl hk⟩)
    · exact .inl (validateLengthStep_noAccess hk)
    · exact .inr (.inr ⟨rfl, .inr hk⟩)
    · cases hk; exact .inl rfl
    · cases hk
  | rd offset size => simp [Instr.isCommand] at hi
  | wr offset size wdata => simp [Instr.isCommand] at hi

/-- The step of an illegal word accesses no channel byte. -/
theorem execIllegal_noAccess (h : execIllegal s = .next t) : NoAccess s t := by
  obtain ⟨-, -, hk⟩ := whenRunning_next h
  split at hk <;> cases hk
  rfl

/-- What the engine's step that answers can be. -/
theorem engineStep_next (h : engineStep s = .next t) :
    NoAccess s t ∨
      (Engaged s ∧ ((latched s = some .embed ∧ writeBitStep s = .next t) ∨
        (latched s = some .extract ∧ (readHeaderStep s = .next t ∨ readPayloadStep s = .next t)))) := by
  obtain ⟨hb, hr, i, hl, hi, heq⟩ | ⟨-, -, -, heq⟩ | ⟨-, heq⟩ := engineStep_cases s
  · obtain hno | ⟨rfl, hw⟩ | ⟨rfl, hread⟩ := exec_command_next hi (heq.symm.trans h)
    · exact .inl hno
    · exact .inr ⟨⟨hb, hr⟩, .inl ⟨hl, hw⟩⟩
    · exact .inr ⟨⟨hb, hr⟩, .inr ⟨hl, hread⟩⟩
  · exact .inl (execIllegal_noAccess (heq.symm.trans h))
  · cases heq.symm.trans h
    exact .inl rfl

end

/-! ### Every step, taken apart -/

/-- The state an event acts on: the event is taken, and the log of port accesses starts empty. -/
abbrev taken (rest : List Input) (s : State) : State := { s with inputs := rest, portLog := [] }

/-- A step that no register or hidden field of the block feels: what such a step may change, and nothing else. -/
def Unfelt (s t : State) : Prop :=
  t = { s with
    carrier := t.carrier, hostWrites := t.hostWrites, hostCached := t.hostCached, hostByte := t.hostByte, port := t.port
    rdata := t.rdata, resp := t.resp }

section
variable {s t : State}

theorem hostCarrierRead_unfelt {a : Nat} {via : Via} (h : hostCarrierRead a via s = .next t) : Unfelt s t := by
  obtain ⟨-, -, rfl⟩ := hostCarrierRead_next h
  rfl

theorem hostCarrierWrite_unfelt {a : Nat} {v : Byte} {via : Via} (h : hostCarrierWrite a v via s = .next t) : Unfelt s t := by
  obtain ⟨-, -, ⟨-, rfl⟩ | ⟨-, -, rfl⟩ | ⟨-, -, rfl⟩⟩ := hostCarrierWrite_next h <;> rfl

theorem hostCacheMove_unfelt {a : Nat} {move : CacheMove} (h : hostCacheMove a move s = .next t) : Unfelt s t := by
  obtain ⟨-, rfl | ⟨-, ⟨-, rfl⟩ | ⟨-, rfl⟩ | ⟨-, -, v, -, rfl⟩⟩⟩ := hostCacheMove_next h <;> rfl

/-- What a HOST transaction that answers can be: a word write of a register, a read of one, or one that no register feels. -/
theorem hostTransaction_next {address : Nat} {dir : Dir} {size : Nat} {w : Word} (h : hostTransaction address dir size w s = .next t) :
    (∃ off, dir = .write ∧ size = 4 ∧ windowOffset s.params address = some off ∧ t = writeReg (regAt off) w s) ∨
      (∃ r, t = readReg r s) ∨ Unfelt s t := by
  obtain ⟨off, hoff, ⟨-, heq⟩ | ⟨hdir, heq⟩⟩ | ⟨-, heq⟩ := hostTransaction_cases address dir size w s
  · obtain ⟨-, ⟨-, rfl⟩ | ⟨-, rfl⟩⟩ := execRd_next (heq.symm.trans h)
    · exact .inr (.inl ⟨_, rfl⟩)
    · exact .inr (.inr rfl)
  · obtain ⟨-, ⟨hwf, rfl⟩ | ⟨-, rfl⟩⟩ := execWr_next (heq.symm.trans h)
    · have hsize : size = 4 := by
        simp only [Instr.wf, sizeOk, Bool.and_eq_true, beq_iff_eq] at hwf
        exact hwf.1
      exact .inl ⟨off, hdir, hsize, hoff, rfl⟩
    · exact .inr (.inr rfl)
  · cases heq.symm.trans h
    exact .inr (.inr rfl)

/-- What a step that answers can be. -/
theorem step_next (h : step s = .next t) :
    ResetEvent s ∨ ∃ rest,
      (∃ off w, HostWrites s off w ∧ t = writeReg (regAt off) w (taken rest s)) ∨ (∃ r, t = readReg r (taken rest s)) ∨
        Unfelt (taken rest s) t ∨ engineStep (taken rest s) = .next t := by
  obtain ⟨-, heq⟩ | ⟨e, rest, hin, heq⟩ := step_eq s
  · exact .inr ⟨s.inputs, .inr (.inr (.inr (heq.symm.trans h)))⟩
  · replace h := heq.symm.trans h
    cases e with
    | engine => exact .inr ⟨rest, .inr (.inr (.inr h))⟩
    | bus address dir size wdata =>
      obtain ⟨off, rfl, rfl, hoff, ht⟩ | hread | hun := hostTransaction_next h
      · exact .inr ⟨rest, .inl ⟨off, wdata, ⟨address, rest, hin, hoff⟩, ht⟩⟩
      · exact .inr ⟨rest, .inr (.inl hread)⟩
      · exact .inr ⟨rest, .inr (.inr (.inl hun))⟩
    | carrierRead a via => exact .inr ⟨rest, .inr (.inr (.inl (hostCarrierRead_unfelt h)))⟩
    | carrierWrite a v via => exact .inr ⟨rest, .inr (.inr (.inl (hostCarrierWrite_unfelt h)))⟩
    | hostCache a move => exact .inr ⟨rest, .inr (.inr (.inl (hostCacheMove_unfelt h)))⟩
    | reset asserted =>
      by_cases hlevel : asserted = s.rst
      · subst hlevel
        cases h
        rw [show changeRst s.rst (taken rest s) = taken rest s from changeRst_self (taken rest s)]
        exact .inr ⟨rest, .inr (.inr (.inl rfl))⟩
      · exact .inl ⟨rest, by rw [hin, Bool.eq_not_of_ne hlevel]⟩
    | portReply reply =>
      cases h
      exact .inr ⟨rest, .inr (.inr (.inl rfl))⟩

/-- The step that takes a level of RST. -/
theorem step_of_reset {level : Bool} {rest : List Input} (hin : s.inputs = .reset level :: rest) :
    step s = .next (changeRst level (taken rest s)) := by
  simp only [step, stepBody, hin, handle]

/-- The step that takes a HOST write of an aligned offset, where it answers. -/
theorem step_of_hostWrites {off : BitVec 8} {w : Word} (ha : off.toNat % 4 = 0) (hw : HostWrites s off w) (h : step s = .next t) :
    ∃ rest, t = writeReg (regAt off) w (taken rest s) := by
  obtain ⟨address, rest, hin, hoff⟩ := hw
  have heq : step s = exec (.wr off 4 w) (taken rest s) := by
    simp [step, stepBody, hin, handle, hostTransaction, hoff, decodeHost]
  obtain ⟨hr, -⟩ := execWr_next (heq.symm.trans h)
  exact ⟨rest, Host.Outcome.next.inj ((h.symm.trans heq).trans (exec_wr_word hr ha w))⟩

/-- The step that takes an edge of RST resets the block. -/
theorem step_of_resetEvent (hr : ResetEvent s) (h : step s = .next t) :
    ∃ level u, t = setRst level (resetBlock u) ∧ u.portLog = [] := by
  obtain ⟨rest, hin⟩ := hr
  have ht : t = changeRst (!s.rst) (taken rest s) := Host.Outcome.next.inj (h.symm.trans (step_of_reset hin))
  obtain ⟨heq, -⟩ | ⟨-, -, heq⟩ | ⟨-, -, heq⟩ := changeRst_cases (!s.rst) (taken rest s)
  · simp at heq
  · refine ⟨true, _, ht.trans heq, ?_⟩
    split <;> rfl
  · exact ⟨false, _, ht.trans heq, rfl⟩

end

theorem regAt_eq_status {off : BitVec 8} (h : regAt off = .status) : off = 0x0C#8 := by
  revert h
  revert off
  decide

theorem regAt_eq_cmd {off : BitVec 8} (h : regAt off = .cmd) : off = 0x08#8 := by
  revert h
  revert off
  decide

/-! ### The sticky error flags -/

/-- An error flag that is set stays set. -/
structure FlagsKept (s t : State) : Prop where
  busyErr : s.busyErr = true → t.busyErr = true
  ramErr : s.ramErr = true → t.ramErr = true

section
variable {s t : State}

theorem FlagsKept.of_eq (hb : t.busyErr = s.busyErr) (hr : t.ramErr = s.ramErr) : FlagsKept s t := ⟨hb.trans, hr.trans⟩

theorem NoAccess.flagsKept (h : NoAccess s t) : FlagsKept s t := by
  rw [h]
  exact .of_eq rfl rfl

theorem Unfelt.flagsKept (h : Unfelt s t) : FlagsKept s t := by
  rw [h]
  exact .of_eq rfl rfl

theorem writeBitStep_flagsKept (h : writeBitStep s = .next t) : FlagsKept s t := by
  obtain ⟨-, -, ⟨-, rfl⟩ | ⟨-, rfl⟩ | ⟨-, rfl⟩⟩ := writeBitStep_next h
  · exact .of_eq rfl rfl
  · exact .of_eq rfl rfl
  · rw [writeBitDone_eq]
    split <;> exact .of_eq rfl rfl

theorem readHeaderStep_flagsKept (h : readHeaderStep s = .next t) : FlagsKept s t := by
  obtain ⟨-, rfl⟩ | ⟨-, rfl⟩ := readHeaderStep_next h
  · exact .of_eq rfl rfl
  · dsimp only
    split <;> exact .of_eq rfl rfl

theorem readPayloadStep_flagsKept (h : readPayloadStep s = .next t) : FlagsKept s t := by
  obtain ⟨-, rfl⟩ | ⟨-, rfl⟩ := readPayloadStep_next h <;> exact .of_eq rfl rfl

theorem engineStep_flagsKept (h : engineStep s = .next t) : FlagsKept s t := by
  obtain hno | ⟨-, ⟨-, hw⟩ | ⟨-, hh | hp⟩⟩ := engineStep_next h
  · exact hno.flagsKept
  · exact writeBitStep_flagsKept hw
  · exact readHeaderStep_flagsKept hh
  · exact readPayloadStep_flagsKept hp

theorem readReg_flagsKept (r : Reg) (s : State) : FlagsKept s (readReg r s) := by
  by_cases hm : r = .msgData
  · subst hm
    obtain ⟨-, heq⟩ | ⟨-, -, heq⟩ | ⟨-, -, heq⟩ := readMsgPort_cases s <;> simp only [readReg, heq] <;> constructor <;> simp
  · by_cases hf : r = .frameData
    · subst hf
      obtain ⟨-, heq⟩ | ⟨-, -, heq⟩ | ⟨-, -, heq⟩ := readFramePort_cases s <;> simp only [readReg, heq] <;> constructor <;> simp
    · rw [readReg_of_not_port s hm hf]
      exact .of_eq rfl rfl

/-- A write of any register but STATUS clears no error flag. -/
theorem writeReg_flagsKept {r : Reg} (hr : r ≠ .status) (w : Word) (s : State) : FlagsKept s (writeReg r w s) := by
  obtain ⟨-, heq⟩ | ⟨-, heq⟩ := writeReg_cases r w s <;> rw [heq]
  · exact ⟨fun _ => rfl, id⟩
  · cases r with
    | status => exact absurd rfl hr
    | msgData =>
      simp only [storeReg, writeMsgPort]
      split <;> constructor <;> simp
    | frameData =>
      simp only [storeReg, writeFramePort]
      split <;> constructor <;> simp
    | _ => exact .of_eq rfl rfl

/-- A STATUS write is never dropped (spec/10_state.md R34). -/
theorem writeReg_status (w : Word) (s : State) : writeReg .status w s = answerWrite (writeStatus w s) := by
  simp [writeReg, writeDropped, Reg.locked, storeReg]

/-- Only a STATUS write and a reset can clear an error flag. -/
theorem step_flagsKept (h : step s = .next t) : FlagsKept s t ∨ (∃ w, HostWrites s 0x0C#8 w) ∨ ResetEvent s := by
  obtain hreset | ⟨rest, ⟨off, w, hw, rfl⟩ | ⟨r, rfl⟩ | hun | heng⟩ := step_next h
  · exact .inr (.inr hreset)
  · by_cases hs : regAt off = .status
    · exact .inr (.inl ⟨w, regAt_eq_status hs ▸ hw⟩)
    · exact .inl { writeReg_flagsKept hs w (taken rest s) with }
  · exact .inl { readReg_flagsKept r (taken rest s) with }
  · exact .inl { hun.flagsKept with }
  · exact .inl { engineStep_flagsKept heng with }

/-- A STATUS write clears the error flags whose bits are set (spec/10_state.md R34). -/
theorem step_statusWrite {w : Word} (hw : HostWrites s 0x0C#8 w) (h : step s = .next t) :
    t.busyErr = (s.busyErr && !w.getLsbD 2) ∧ t.ramErr = (s.ramErr && !w.getLsbD 3) := by
  obtain ⟨rest, rfl⟩ := step_of_hostWrites rfl hw h
  rw [show regAt 0x0C#8 = .status from rfl, writeReg_status]
  exact ⟨rfl, rfl⟩

/-- A reset clears both error flags (spec/10_state.md R62). -/
theorem step_resetEvent_flags (hreset : ResetEvent s) (h : step s = .next t) : t.busyErr = false ∧ t.ramErr = false := by
  obtain ⟨level, u, rfl, -⟩ := step_of_resetEvent hreset h
  exact ⟨rfl, rfl⟩

/-- What clears a flag that is set, that nothing but a STATUS write and a reset can clear, and that those clear as STATUS bit `k` does. -/
theorem flag_cleared_iff {flag : State → Bool} {k : Nat} (h : step s = .next t) (hset : flag s = true)
    (hkept : FlagsKept s t → flag t = true) (hwrite : ∀ w, HostWrites s 0x0C#8 w → flag t = (flag s && !w.getLsbD k))
    (hreset : ResetEvent s → flag t = false) :
    flag t = false ↔ (∃ w, HostWrites s 0x0C#8 w ∧ w.getLsbD k = true) ∨ ResetEvent s := by
  constructor
  · intro hclear
    obtain hk | ⟨w, hw⟩ | hr := step_flagsKept h
    · simp [hkept hk] at hclear
    · have hbit := hwrite w hw
      exact .inl ⟨w, hw, by simpa [hset, hclear] using hbit⟩
    · exact .inr hr
  · rintro (⟨w, hw, hbit⟩ | hr)
    · rw [hwrite w hw, hbit, Bool.not_true, Bool.and_false]
    · exact hreset hr

end

/-- Settles O48: no step but a STATUS write and a reset clears a flag, the write clears it exactly by its bit, and a reset always. -/
theorem errorFlagsAreSticky : Obligations.ErrorFlagsAreSticky := fun _ _ h =>
  ⟨fun hset => flag_cleared_iff (flag := (·.busyErr)) h hset (·.busyErr hset) (fun _ hw => (step_statusWrite hw h).1)
      fun hr => (step_resetEvent_flags hr h).1,
    fun hset => flag_cleared_iff (flag := (·.ramErr)) h hset (·.ramErr hset) (fun _ hw => (step_statusWrite hw h).2)
      fun hr => (step_resetEvent_flags hr h).2⟩

/-! ### CURSOR -/

/-- How a step moves CURSOR where the block is neither reset nor given a command: by 1 over a completed channel bit, with that bit's
accesses in the log, and not at all otherwise. -/
def ChannelMove (s t : State) : Prop :=
  (¬ BitCompleted s t ∧ t.cursor = s.cursor) ∨
    (BitCompleted s t ∧ t.cursor = s.cursor + 1 ∧ Engaged s ∧
      ((latched s = some .embed ∧ ∃ v, t.portLog = [.read (byteAddr s s.cursor), .write (byteAddr s s.cursor) v]) ∨
       (latched s = some .extract ∧ t.portLog = [.read (byteAddr s s.cursor)])))

section
variable {s t : State}

/-- A step that issues no access completes no bit. -/
theorem ChannelMove.of_still (hlog : t.portLog = []) (hcur : t.cursor = s.cursor) : ChannelMove s t :=
  .inl ⟨fun hbit => hbit.1 hlog, hcur⟩

theorem ChannelMove.of_embedBit {v : Byte} (he : Engaged s) (hl : latched s = some .embed) (hport : s.port = .okay)
    (hcur : t.cursor = s.cursor + 1) (hlog : t.portLog = [.read (byteAddr s s.cursor), .write (byteAddr s s.cursor) v]) :
    ChannelMove s t :=
  .inr ⟨⟨by simp [hlog], .inl ⟨hl, hport⟩⟩, hcur, he, .inl ⟨hl, v, hlog⟩⟩

theorem ChannelMove.of_extractBit (he : Engaged s) (hl : latched s = some .extract) (hport : s.port ≠ .readError)
    (hcur : t.cursor = s.cursor + 1) (hlog : t.portLog = [.read (byteAddr s s.cursor)]) : ChannelMove s t :=
  .inr ⟨⟨by simp [hlog], .inr ⟨hl, hport⟩⟩, hcur, he, .inr ⟨hl, hlog⟩⟩

/-- EMBED's WRITE step moves CURSOR where both accesses complete (spec/43_embedder.md R173, R178). -/
theorem writeBitStep_channelMove (he : Engaged s) (hl : latched s = some .embed) (hlog : s.portLog = []) (h : writeBitStep s = .next t) :
    ChannelMove s t := by
  obtain ⟨-, -, ⟨hport, rfl⟩ | ⟨hport, rfl⟩ | ⟨hport, rfl⟩⟩ := writeBitStep_next h
  · exact .inl ⟨by simp [BitCompleted, hl, hport], rfl⟩
  · exact .inl ⟨by simp [BitCompleted, hl, hport], rfl⟩
  · rw [writeBitDone_eq]
    split <;> exact .of_embedBit (v := embeddedByte s s.cursor) he hl hport rfl (by simp [hlog])

theorem readHeaderStep_channelMove (he : Engaged s) (hl : latched s = some .extract) (hlog : s.portLog = [])
    (h : readHeaderStep s = .next t) : ChannelMove s t := by
  obtain ⟨hport, rfl⟩ | ⟨hport, rfl⟩ := readHeaderStep_next h
  · exact .inl ⟨by simp [BitCompleted, hl, hport], rfl⟩
  · dsimp only
    split <;> exact .of_extractBit he hl hport rfl (by simp [hlog])

theorem readPayloadStep_channelMove (he : Engaged s) (hl : latched s = some .extract) (hlog : s.portLog = [])
    (h : readPayloadStep s = .next t) : ChannelMove s t := by
  obtain ⟨hport, rfl⟩ | ⟨hport, rfl⟩ := readPayloadStep_next h
  · exact .inl ⟨by simp [BitCompleted, hl, hport], rfl⟩
  · exact .of_extractBit he hl hport rfl (by simp [hlog])

theorem engineStep_channelMove (hlog : s.portLog = []) (h : engineStep s = .next t) : ChannelMove s t := by
  obtain hno | ⟨he, ⟨hl, hw⟩ | ⟨hl, hh | hp⟩⟩ := engineStep_next h
  · rw [hno]
    exact .of_still hlog rfl
  · exact writeBitStep_channelMove he hl hlog hw
  · exact readHeaderStep_channelMove he hl hlog hh
  · exact readPayloadStep_channelMove he hl hlog hp

/-- A register write issues no access, and moves CURSOR only where it is a CMD write that is accepted. -/
theorem writeReg_still {r : Reg} {s : State} (h : r = .cmd → s.busy = true) (w : Word) :
    (writeReg r w s).portLog = s.portLog ∧ (writeReg r w s).cursor = s.cursor := by
  obtain ⟨-, heq⟩ | ⟨hd, heq⟩ := writeReg_cases r w s <;> rw [heq]
  · exact ⟨rfl, rfl⟩
  · cases r with
    | cmd => simp [writeDropped, h rfl] at hd
    | msgData =>
      simp only [storeReg, writeMsgPort]
      split <;> exact ⟨rfl, rfl⟩
    | frameData =>
      simp only [storeReg, writeFramePort]
      split <;> exact ⟨rfl, rfl⟩
    | _ => exact ⟨rfl, rfl⟩

/-- Where a step neither accepts a command nor resets the block, CURSOR moves over completed bits alone. -/
theorem step_channelMove (h : step s = .next t) : CommandAccepted s ∨ ResetEvent s ∨ ChannelMove s t := by
  obtain hreset | ⟨rest, ⟨off, w, hw, rfl⟩ | ⟨r, rfl⟩ | hun | heng⟩ := step_next h
  · exact .inr (.inl hreset)
  · by_cases hacc : regAt off = .cmd ∧ s.busy = false
    · exact .inl ⟨hacc.2, w, regAt_eq_cmd hacc.1 ▸ hw⟩
    · have hlock : regAt off = .cmd → (taken rest s).busy = true := fun hc => by simpa [hc] using hacc
      obtain ⟨hlog, hcur⟩ := writeReg_still hlock w
      exact .inr (.inr (.of_still hlog hcur))
  · rw [readReg_frame]
    exact .inr (.inr (.of_still rfl rfl))
  · rw [hun]
    exact .inr (.inr (.of_still rfl rfl))
  · exact .inr (.inr (engineStep_channelMove (s := taken rest s) rfl heng))

/-- Acceptance sets CURSOR to 0 and issues no access (spec/40_command.md R121). -/
theorem step_commandAccepted (hacc : CommandAccepted s) (h : step s = .next t) : t.cursor = 0 ∧ t.portLog = [] := by
  obtain ⟨hb, w, hw⟩ := hacc
  obtain ⟨rest, rfl⟩ := step_of_hostWrites rfl hw h
  have hopen : writeDropped .cmd (taken rest s) = false := by simp [writeDropped, hb]
  simp [show regAt 0x08#8 = .cmd from rfl, writeReg, hopen, storeReg]

/-- A reset sets CURSOR to 0 and issues no access (spec/10_state.md R62). -/
theorem step_resetEvent_cursor (hreset : ResetEvent s) (h : step s = .next t) : t.cursor = 0 ∧ t.portLog = [] := by
  obtain ⟨level, u, rfl, hlog⟩ := step_of_resetEvent hreset h
  exact ⟨rfl, hlog⟩

end

/-- Settles O49: acceptance and reset issue no access, so a completed bit is a `ChannelMove`, and so is every step that is neither. -/
theorem cursorCountsChannelBits : Obligations.CursorCountsChannelBits := by
  intro s t h
  have hbit (hdone : BitCompleted s t) : ChannelMove s t := by
    obtain hacc | hreset | hmove := step_channelMove h
    · exact absurd (step_commandAccepted hacc h).2 hdone.1
    · exact absurd (step_resetEvent_cursor hreset h).2 hdone.1
    · exact hmove
  refine ⟨fun hacc => (step_commandAccepted hacc h).1, fun hreset => (step_resetEvent_cursor hreset h).1, fun hdone => ?_,
    fun hna hnr hnb => ?_, fun hdone => ?_⟩
  · obtain ⟨hnot, -⟩ | ⟨-, hcur, -⟩ := hbit hdone
    · exact absurd hdone hnot
    · exact hcur
  · obtain hacc | hreset | ⟨-, hcur⟩ | ⟨hdone, -⟩ := step_channelMove h
    · exact absurd hacc hna
    · exact absurd hreset hnr
    · exact hcur
    · exact absurd hdone hnb
  · obtain ⟨hnot, -⟩ | ⟨-, -, haccesses⟩ := hbit hdone
    · exact absurd hdone hnot
    · exact haccesses

/-! ### The reset values -/

/-- Settles O50: the deassertion is `resetBlock` with RST low, and a level that RST has already changes nothing. -/
theorem resetGivesTheResetValues : Obligations.ResetGivesTheResetValues := by
  intro s rest
  constructor
  · intro hin hr
    have hedge : changeRst false (taken rest s) = deassertReset (taken rest s) := by simp only [changeRst, hr]; rfl
    refine ⟨_, (step_of_reset hin).trans (congrArg _ hedge), ?_⟩
    simp [deassertReset, irq, Result.code, Phase.code, readCarrier]
  · intro hin
    rw [step_of_reset hin]
    exact congrArg _ (changeRst_self (taken rest s))

end Sys2Proof.Machine
end

section
/-!
PROOF. What HOST can do to a running command: nothing that is in the engine's view, and the engine's step reads nothing outside it
(spec/10_state.md R54, spec/40_command.md R130). Two states with one view differ by `withUnviewed`, and each step of the engine goes the
same way from both.
-/

namespace Sys2Proof.Machine

/-! ### HOST transactions while a command runs -/

section
variable {s t : State} (hb : s.busy = true)
include hb

/-- While BUSY = 1 a register read changes at most BUSYERR and the answer (spec/45_host_access.md R226). -/
theorem engineView_readReg_of_busy (r : Reg) : engineView (readReg r s) = engineView s := by
  cases r with
  | msgData => simp only [readReg, readMsgPort, hb, if_true]; rfl
  | frameData => simp only [readReg, readFramePort, hb, if_true]; rfl
  | _ => rfl

/-- While BUSY = 1 a register write is dropped or goes to CTRL, STATUS or a register that ignores it (spec/10_state.md R54). -/
theorem engineView_writeReg_of_busy (r : Reg) (w : Word) : engineView (writeReg r w s) = engineView s := by
  obtain ⟨-, heq⟩ | ⟨hd, heq⟩ := writeReg_cases r w s
  · rw [heq]
    rfl
  · have hopen : (r.locked || decide (r = .cmd)) = false := by simpa [writeDropped, hb] using hd
    rw [heq]
    cases r with
    | ctrl | status | id | phase | cursor | hdrLen | paramMsgCap | paramMaxPixels | reserved => rfl
    | _ => simp [Reg.locked] at hopen

theorem engineView_execRd_of_busy {off : BitVec 8} {size : Nat} (h : execRd off size s = .next t) : engineView t = engineView s := by
  obtain ⟨-, ⟨-, rfl⟩ | ⟨-, rfl⟩⟩ := execRd_next h
  · exact engineView_readReg_of_busy hb _
  · rfl

theorem engineView_execWr_of_busy {off : BitVec 8} {size : Nat} {w : Word} (h : execWr off size w s = .next t) :
    engineView t = engineView s := by
  obtain ⟨-, ⟨-, rfl⟩ | ⟨-, rfl⟩⟩ := execWr_next h
  · exact engineView_writeReg_of_busy hb _ w
  · rfl

end

/-! ### States with one view -/

/-- `s` with what is outside the engine's view taken from `u`. -/
def withUnviewed (u s : State) : State :=
  { s with
    ie := u.ie, done := u.done, busyErr := u.busyErr, ramErr := u.ramErr, hostWrites := u.hostWrites, hostCached := u.hostCached
    inputs := u.inputs, rdata := u.rdata, resp := u.resp, hostByte := u.hostByte, portLog := u.portLog }

theorem eq_withUnviewed_of_engineView {s s' : State} (h : engineView s = engineView s') : s' = withUnviewed s' s := by
  cases s
  cases s'
  simp only [engineView, EngineView.mk.injEq] at h
  simp [withUnviewed, h]

theorem sameView_next {t t' : State} (h : engineView t = engineView t') : sameView (.next t) (.next t') := h

/-- A choice by one condition goes the same way on both sides. -/
theorem sameView_ite {c : Prop} [Decidable c] {a a' b b' : Answer} (ha : sameView a a') (hb : sameView b b') :
    sameView (if c then a else b) (if c then a' else b') := by
  split
  · exact ha
  · exact hb

theorem engineView_ite {c : Prop} [Decidable c] {a a' b b' : State} (ha : engineView a = engineView a')
    (hb : engineView b = engineView b') : engineView (if c then a else b) = engineView (if c then a' else b') := by
  split
  · exact ha
  · exact hb

/-! ### The engine's steps from states with one view -/

section
variable (u s : State)

@[simp] theorem withUnviewed_phase : (withUnviewed u s).phase = s.phase := rfl
@[simp] theorem withUnviewed_port : (withUnviewed u s).port = s.port := rfl
@[simp] theorem latched_withUnviewed : latched (withUnviewed u s) = latched s := rfl

theorem startChecked_sameView (checks : List Bool) {c c' : State} (hc : engineView c = engineView c') :
    sameView (startChecked checks c s) (startChecked checks c' (withUnviewed u s)) :=
  sameView_ite (sameView_next rfl) (sameView_next hc)

theorem packStep_sameView : sameView (packStep s) (packStep (withUnviewed u s)) :=
  sameView_ite rfl (sameView_next rfl)

theorem unpackStep_sameView : sameView (unpackStep s) (unpackStep (withUnviewed u s)) :=
  sameView_ite (sameView_next rfl) (sameView_ite (sameView_next rfl) (sameView_ite rfl (sameView_next rfl)))

theorem embedCapCheckStep_sameView : sameView (embedCapCheckStep s) (embedCapCheckStep (withUnviewed u s)) :=
  sameView_ite (sameView_next rfl) (sameView_ite (sameView_next rfl) (sameView_next rfl))

theorem writeBitStep_sameView : sameView (writeBitStep s) (writeBitStep (withUnviewed u s)) := by
  refine sameView_ite rfl (sameView_ite rfl ?_)
  simp only [withUnviewed_port]
  cases s.port with
  | okay => exact sameView_next (engineView_ite rfl rfl)
  | readError => exact sameView_next rfl
  | writeError => exact sameView_next rfl

theorem readHeaderStep_sameView : sameView (readHeaderStep s) (readHeaderStep (withUnviewed u s)) := by
  refine sameView_ite rfl ?_
  simp only [withUnviewed_port]
  cases s.port with
  | readError => exact sameView_next rfl
  | okay | writeError => exact sameView_next (engineView_ite rfl rfl)

theorem validateLengthStep_sameView : sameView (validateLengthStep s) (validateLengthStep (withUnviewed u s)) :=
  sameView_ite (sameView_next rfl) (sameView_ite (sameView_next rfl) (sameView_next rfl))

theorem readPayloadStep_sameView : sameView (readPayloadStep s) (readPayloadStep (withUnviewed u s)) := by
  refine sameView_ite rfl (sameView_ite rfl ?_)
  simp only [withUnviewed_port]
  cases s.port with
  | readError => exact sameView_next rfl
  | okay | writeError => exact sameView_next rfl

theorem execIllegal_sameView : sameView (execIllegal s) (execIllegal (withUnviewed u s)) := by
  refine sameView_ite ?_ rfl
  simp only [withUnviewed_phase]
  cases s.phase with
  | start => exact sameView_next rfl
  | _ => rfl

/-- A command's step reads the phase from the view, and each phase's step goes the same way. -/
theorem exec_command_sameView {i : Instr} (hi : i.isCommand = true) : sameView (exec i s) (exec i (withUnviewed u s)) := by
  cases i with
  | nop =>
    refine sameView_ite ?_ rfl
    simp only [withUnviewed_phase]
    cases s.phase with
    | start => exact sameView_next rfl
    | _ => rfl
  | pack =>
    refine sameView_ite ?_ rfl
    simp only [withUnviewed_phase]
    cases s.phase with
    | start => exact startChecked_sameView u s _ rfl
    | pack => exact packStep_sameView u s
    | _ => rfl
  | unpack =>
    refine sameView_ite ?_ rfl
    simp only [withUnviewed_phase]
    cases s.phase with
    | start => exact startChecked_sameView u s _ rfl
    | unpack => exact unpackStep_sameView u s
    | _ => rfl
  | check =>
    refine sameView_ite ?_ rfl
    simp only [withUnviewed_phase]
    cases s.phase with
    | start => exact startChecked_sameView u s _ rfl
    | capCheck => exact sameView_next rfl
    | _ => rfl
  | embed =>
    refine sameView_ite ?_ rfl
    simp only [withUnviewed_phase]
    cases s.phase with
    | start => exact startChecked_sameView u s _ rfl
    | capCheck => exact embedCapCheckStep_sameView u s
    | writeHeader | writePayload => exact writeBitStep_sameView u s
    | _ => rfl
  | extract =>
    refine sameView_ite ?_ rfl
    simp only [withUnviewed_phase]
    cases s.phase with
    | start => exact startChecked_sameView u s _ (engineView_ite rfl rfl)
    | readHeader => exact readHeaderStep_sameView u s
    | validateLength => exact validateLengthStep_sameView u s
    | readPayload => exact readPayloadStep_sameView u s
    | decode => exact sameView_next rfl
    | _ => rfl
  | rd offset size => simp [Instr.isCommand] at hi
  | wr offset size wdata => simp [Instr.isCommand] at hi

/-- The engine's step depends on its view alone (spec/40_command.md R130). -/
theorem engineStep_sameView : sameView (engineStep s) (engineStep (withUnviewed u s)) := by
  refine sameView_ite ?_ (sameView_next rfl)
  simp only [latched_withUnviewed]
  cases hl : latched s with
  | some i => exact exec_command_sameView u s (latched_isCommand hl)
  | none => exact execIllegal_sameView u s

end

/-- Settles O59: a transaction while BUSY = 1 keeps the view, and states with one view differ by `withUnviewed` only. -/
theorem hostAccessesCannotDisturbACommand : Obligations.HostAccessesCannotDisturbACommand := by
  refine ⟨fun s t hb => ⟨fun _ _ => engineView_execRd_of_busy hb, fun _ _ _ => engineView_execWr_of_busy hb⟩, fun s s' h => ?_⟩
  rw [eq_withUnviewed_of_engineView h]
  exact engineStep_sameView s' s

end Sys2Proof.Machine
end

section
/-!
PROOF. The carrier between its agents. The bit addresses and the LSB write; the engine's accesses, each at the byte of the bit at CURSOR;
a HOST transaction at its offset; and the direct accesses of other agents, which race with a running command and are ordinary memory
accesses where none runs.
-/

namespace Sys2Proof.Machine

/-! ### Bit addresses and channel slots -/

theorem byteAddr_eq (s : State) (b : Nat) : byteAddr s b = carrierBaseAddr s + 4 * (b / 3) + b % 3 := rfl

theorem inRegion_iff (s : State) (a : Nat) : inRegion s a = true ↔ carrierBaseAddr s ≤ a ∧ a < regionEnd s := by simp [inRegion]

theorem inRegion_byteAddr {s : State} {b : Nat} (hb : b < cap s) : inRegion s (byteAddr s b) = true :=
  (inRegion_iff s _).2 ⟨by rw [byteAddr_eq]; omega, byteAddr_lt_regionEnd hb⟩

/-- A slot's byte is the first, second or third of its pixel, and so never the alpha byte (spec/20_memory.md R75). -/
theorem byteAddr_not_alpha (s : State) (b : Nat) : (byteAddr s b - carrierBaseAddr s) % 4 ≠ 3 := by
  rw [byteAddr_eq]
  omega

theorem byteAddr_injective (s : State) : Function.Injective (byteAddr s) := fun b b' h => by
  simp only [byteAddr_eq] at h
  omega

/-- Settles O25: `addr` is division by 3 with its remainder, and its inverse is 3p + c. -/
theorem bitAddressesAreABijection : Obligations.BitAddressesAreABijection := by
  refine ⟨fun s b hb => ⟨?_, ?_, ?_, inRegion_byteAddr hb, byteAddr_not_alpha s b⟩, fun s p c hp hc => ⟨?_, ?_, ?_⟩,
    fun s b b' h => byteAddr_injective s h⟩
  · exact Nat.div_lt_of_lt_mul hb
  · exact Nat.mod_lt b (by omega)
  · exact Nat.div_add_mod b 3
  · simp only [cap]
    omega
  · simp only [bitAddr, Prod.mk.injEq]
    omega
  · rw [byteAddr_eq]
    omega

/-! ### The LSB write -/

/-- Settles O22: the mask 0xFE clears bit 0 alone, and `v` is then put there. -/
theorem lsbWriteKeepsTheHighBits : Obligations.LsbWriteKeepsTheHighBits := by
  intro x v
  refine ⟨rfl, ?_, fun k hpos hk => ?_⟩
  · cases v <;> simp [replaceLsb, bitByte]
  · have hmask : (0xFE#8).getLsbD k = true ∧ (bitByte v).getLsbD k = false := by
      interval_cases k <;> cases v <;> decide
    rw [replaceLsb, BitVec.getLsbD_or, BitVec.getLsbD_and, hmask.1, hmask.2, Bool.and_true, Bool.or_false]

/-! ### What the engine accesses -/

/-- A step that reads the channel byte at CURSOR and writes none: its one access, and the carrier as before. -/
structure ReadsCursorByte (s t : State) : Prop where
  carrier : t.carrier = s.carrier
  portLog : t.portLog = s.portLog ++ [.read (byteAddr s s.cursor)]

section
variable {s t : State}

theorem NoAccess.carrier (h : NoAccess s t) : t.carrier = s.carrier := by rw [h]

theorem NoAccess.portLog (h : NoAccess s t) : t.portLog = s.portLog := by rw [h]

theorem readHeaderStep_readsCursorByte (h : readHeaderStep s = .next t) : ReadsCursorByte s t := by
  obtain ⟨-, rfl⟩ | ⟨-, rfl⟩ := readHeaderStep_next h
  · exact ⟨rfl, rfl⟩
  · dsimp only
    split <;> exact ⟨rfl, rfl⟩

theorem readPayloadStep_readsCursorByte (h : readPayloadStep s = .next t) : ReadsCursorByte s t := by
  obtain ⟨-, rfl⟩ | ⟨-, rfl⟩ := readPayloadStep_next h <;> exact ⟨rfl, rfl⟩

/-- EMBED's WRITE step reads the byte at CURSOR and then writes it, unless the read fails (spec/43_embedder.md R173, R178). -/
theorem writeBitStep_portLog (h : writeBitStep s = .next t) :
    t.portLog = s.portLog ++ [.read (byteAddr s s.cursor)] ∨
      ∃ v, t.portLog = s.portLog ++ [.read (byteAddr s s.cursor), .write (byteAddr s s.cursor) v] := by
  obtain ⟨-, -, ⟨-, rfl⟩ | ⟨-, rfl⟩ | ⟨-, rfl⟩⟩ := writeBitStep_next h
  · exact .inl rfl
  · exact .inr ⟨embeddedByte s s.cursor, by simp⟩
  · refine .inr ⟨embeddedByte s s.cursor, ?_⟩
    rw [writeBitDone_eq]
    split <;> simp

/-- An EMBED step that accesses the carrier is a WRITE step in one of the two WRITE phases (spec/43_embedder.md R170). -/
theorem exec_embed_next (h : exec .embed s = .next t) :
    NoAccess s t ∨ ((s.phase = .writeHeader ∨ s.phase = .writePayload) ∧ writeBitStep s = .next t) := by
  obtain ⟨-, -, hk⟩ := whenRunning_next h
  split at hk
  · exact .inl (startChecked_noAccess hk rfl)
  · exact .inl (embedCapCheckStep_noAccess hk)
  · next hp => exact .inr ⟨.inl hp, hk⟩
  · next hp => exact .inr ⟨.inr hp, hk⟩
  · cases hk

/-- An EXTRACT step that accesses the carrier reads one byte in one of the two READ phases (spec/44_extractor.md R190). -/
theorem exec_extract_next (h : exec .extract s = .next t) :
    NoAccess s t ∨ ((s.phase = .readHeader ∨ s.phase = .readPayload) ∧ ReadsCursorByte s t) := by
  obtain ⟨-, -, hk⟩ := whenRunning_next h
  split at hk
  · exact .inl (startChecked_noAccess hk (extractContinuation_noAccess s))
  · next hp => exact .inr ⟨.inl hp, readHeaderStep_readsCursorByte hk⟩
  · exact .inl (validateLengthStep_noAccess hk)
  · next hp => exact .inr ⟨.inr hp, readPayloadStep_readsCursorByte hk⟩
  · cases hk; exact .inl rfl
  · cases hk

end

/-- Settles O34: an EXTRACT step accesses no channel byte or reads one. -/
theorem extractLeavesTheCarrierAlone : Obligations.ExtractLeavesTheCarrierAlone := by
  intro s t h
  obtain hno | ⟨-, hread⟩ := exec_extract_next h
  · exact ⟨fun a => by simp only [readCarrier, hno.carrier], fun e he => .inl (hno.portLog ▸ he)⟩
  · refine ⟨fun a => by simp only [readCarrier, hread.carrier], fun e he => ?_⟩
    rw [hread.portLog, List.mem_append, List.mem_singleton] at he
    exact he.imp_right fun heq => by rw [heq]; rfl

/-- In a WRITE phase CURSOR names a bit of the carrier (spec/43_embedder.md R172). -/
theorem cursor_lt_cap_of_writing {s : State} (h : Running s) (hp : s.phase = .writeHeader ∨ s.phase = .writePayload) : s.cursor < cap s := by
  obtain ⟨-, hlt, hfit, -⟩ : Embedding s := by
    obtain hp | hp := hp
    · exact ((running_of_writeHeader hp).1 h).1
    · exact ((running_of_writePayload hp).1 h).1
  exact Nat.lt_of_lt_of_le hlt hfit

/-- In a READ phase CURSOR names a bit of the carrier (spec/44_extractor.md R191, R194). -/
theorem cursor_lt_cap_of_reading {s : State} (h : Running s) (hp : s.phase = .readHeader ∨ s.phase = .readPayload) : s.cursor < cap s := by
  obtain hp | hp := hp
  · obtain ⟨⟨-, hcap, -⟩, hlt⟩ := (running_of_readHeader hp).1 h
    exact Nat.lt_of_lt_of_le hlt hcap
  · obtain ⟨-, ⟨-, -, hfit, -⟩, -, hlt⟩ := (running_of_readPayload hp).1 h
    exact Nat.lt_of_lt_of_le hlt hfit

/-- The accesses a step from `s` may leave in the log: none, a read of the byte at CURSOR, or for EMBED a read and then a write of it;
and CURSOR is below CAP where there are any (spec/20_memory.md R90, spec/40_command.md R122). -/
def CursorAccesses (s : State) (log : List Access) : Prop :=
  log = [] ∨
    (s.cursor < cap s ∧
      (log = [.read (byteAddr s s.cursor)] ∨
        (latched s = some .embed ∧ ∃ v, log = [.read (byteAddr s s.cursor), .write (byteAddr s s.cursor) v])))

section
variable {s t : State}

/-- The engine's step of a block whose running command is in its phase's condition. -/
theorem engineStep_cursorAccesses (hrun : s.busy = true → Running s) (hlog : s.portLog = []) (h : engineStep s = .next t) :
    CursorAccesses s t.portLog := by
  have hquiet (hno : NoAccess s t) : CursorAccesses s t.portLog := .inl (hno.portLog.trans hlog)
  obtain ⟨hb, -, i, hl, hi, heq⟩ | ⟨-, -, -, heq⟩ | ⟨-, heq⟩ := engineStep_cases s
  · have hexec : exec i s = .next t := heq.symm.trans h
    obtain hno | ⟨rfl, -⟩ | ⟨rfl, -⟩ := exec_command_next hi hexec
    · exact hquiet hno
    · obtain hno | ⟨hp, hw⟩ := exec_embed_next hexec
      · exact hquiet hno
      · have hacc := writeBitStep_portLog hw
        simp only [hlog, List.nil_append] at hacc
        exact .inr ⟨cursor_lt_cap_of_writing (hrun hb) hp, hacc.imp_right fun hrw => ⟨hl, hrw⟩⟩
    · obtain hno | ⟨hp, hread⟩ := exec_extract_next hexec
      · exact hquiet hno
      · have hacc := hread.portLog
        rw [hlog, List.nil_append] at hacc
        exact .inr ⟨cursor_lt_cap_of_reading (hrun hb) hp, .inl hacc⟩
  · exact hquiet (execIllegal_noAccess (heq.symm.trans h))
  · cases heq.symm.trans h
    exact hquiet rfl

/-- A register write issues no carrier access. -/
theorem portLog_writeReg (r : Reg) (w : Word) (s : State) : (writeReg r w s).portLog = s.portLog := by
  obtain ⟨-, heq⟩ | ⟨-, heq⟩ := writeReg_cases r w s <;> simp [heq, storeReg_frame]

/-- Only the engine's step accesses the carrier port. -/
theorem step_cursorAccesses (hinv : Inv s) (h : step s = .next t) : CursorAccesses s t.portLog := by
  obtain hreset | ⟨rest, ⟨off, w, -, rfl⟩ | ⟨r, rfl⟩ | hun | heng⟩ := step_next h
  · exact .inl (step_resetEvent_cursor hreset h).2
  · exact .inl (portLog_writeReg _ w _)
  · rw [readReg_frame]
    exact .inl rfl
  · rw [hun]
    exact .inl rfl
  · exact engineStep_cursorAccesses (s := taken rest s) hinv.running rfl heng

end

/-- Settles O26: the accesses are `CursorAccesses`, and the byte of a bit below CAP lies in the region and is no alpha byte. -/
theorem engineAccessesOnlyTheCursorSlot : Obligations.EngineAccessesOnlyTheCursorSlot := by
  intro s t hinv h
  obtain hnone | ⟨hcap, hread | ⟨hl, v, hwrite⟩⟩ := step_cursorAccesses hinv h
  · exact ⟨by simp [hnone], .inl hnone⟩
  · simp [hread, Access.address, Access.isWrite, hcap, inRegion_byteAddr, byteAddr_not_alpha]
  · simp [hwrite, Access.address, Access.isWrite, hcap, hl, inRegion_byteAddr, byteAddr_not_alpha]

/-! ### A HOST transaction at its offset -/

theorem windowOffset_add (p : Params) (off : BitVec 8) : windowOffset p (p.hostBase + off.toNat) = some off := by
  have hlt : p.hostBase + off.toNat < p.hostBase + 256 := Nat.add_lt_add_left off.isLt _
  rw [windowOffset, if_pos ⟨Nat.le_add_right _ _, hlt⟩, Nat.add_sub_cancel_left, BitVec.ofNat_toNat, BitVec.setWidth_eq]

theorem windowOffset_outside {p : Params} {a : Nat} (h : a < p.hostBase ∨ p.hostBase + 256 ≤ a) : windowOffset p a = none :=
  if_neg (by omega)

/-- A step takes the oldest event of the schedule. -/
theorem step_of_event {s : State} {e : Input} {rest : List Input} (hin : s.inputs = e :: rest) : step s = handle e (taken rest s) := by
  simp only [step, stepBody, hin]

/-- Settles O8: an address of the window is HOST_BASE plus one offset, and any other has none. -/
theorem stepRunsTheHostTransaction : Obligations.StepRunsTheHostTransaction := by
  intro s rest size w
  refine ⟨fun off hin => ?_, fun off hin => ?_, fun a d hout hin => ?_⟩
  · simp only [step_of_event hin, handle, hostTransaction, windowOffset_add, decodeHost]
  · simp only [step_of_event hin, handle, hostTransaction, windowOffset_add, decodeHost]
  · simp only [step_of_event hin, handle, hostTransaction, windowOffset_outside hout]

/-! ### Direct accesses: what each answers -/

section
variable {s : State} {a : Nat} (ha : a < s.params.carrierSize)
include ha

theorem hostCarrierRead_of_race (via : Via) (hr : readRaces s a = true) : hostCarrierRead a via s = .fault .carrierRace := by
  rw [hostCarrierRead, if_neg (Nat.not_le.2 ha), if_pos hr]

theorem hostCarrierRead_of_no_race (via : Via) (hr : readRaces s a = false) :
    hostCarrierRead a via s = .next { s with
      hostByte := seenVia via s a, hostCached := if via = .maintained then Memory.erase s.hostCached a else s.hostCached } := by
  simp only [hostCarrierRead, if_neg (Nat.not_le.2 ha), hr, Bool.false_eq_true, if_false]
  cases via <;> rfl

theorem hostCarrierWrite_of_race (v : Byte) (via : Via) (hr : writeRaces s a = true) :
    hostCarrierWrite a v via s = .fault .carrierRace := by
  simp only [hostCarrierWrite, if_neg (Nat.not_le.2 ha), if_pos hr]

theorem hostCarrierWrite_answers (v : Byte) (via : Via) (hr : writeRaces s a = false) : ∃ t, hostCarrierWrite a v via s = .next t := by
  simp only [hostCarrierWrite, if_neg (Nat.not_le.2 ha), hr, Bool.false_eq_true, if_false]
  split
  · exact ⟨_, rfl⟩
  · cases via <;> exact ⟨_, rfl⟩

theorem hostCacheMove_of_coherent (move : CacheMove) (hc : s.params.coherent = true) : hostCacheMove a move s = .next s := by
  simp only [hostCacheMove, if_neg (Nat.not_le.2 ha), if_pos hc]

theorem hostCacheMove_fill (hc : s.params.coherent = false) : hostCacheMove a .fill s = .next (fillCopy a s) := by
  simp only [hostCacheMove, if_neg (Nat.not_le.2 ha), hc, Bool.false_eq_true, if_false]

theorem hostCacheMove_discard (hc : s.params.coherent = false) : hostCacheMove a .discard s = .next (discardCopy a s) := by
  simp only [hostCacheMove, if_neg (Nat.not_le.2 ha), hc, Bool.false_eq_true, if_false]

theorem hostCacheMove_writeBack_none (hc : s.params.coherent = false) (hw : Memory.get? s.hostWrites a = none) :
    hostCacheMove a .writeBack s = .next s := by
  simp only [hostCacheMove, if_neg (Nat.not_le.2 ha), hc, hw, Bool.false_eq_true, if_false]

theorem hostCacheMove_writeBack_held {v : Byte} (hc : s.params.coherent = false) (hw : Memory.get? s.hostWrites a = some v) :
    hostCacheMove a .writeBack s = if writeRaces s a then .fault .carrierRace else .next (writeThrough a v s) := by
  simp only [hostCacheMove, if_neg (Nat.not_le.2 ha), hc, hw, Bool.false_eq_true, if_false]

end

theorem readRaces_of_idle {s : State} (hb : s.busy = false) (a : Nat) : readRaces s a = false := by simp [readRaces, hb]

theorem writeRaces_of_idle {s : State} (hb : s.busy = false) (a : Nat) : writeRaces s a = false := by simp [writeRaces, hb]

/-- On a coherent platform, and from the port's side, a direct read sees the carrier (spec/20_memory.md R96). -/
theorem seenVia_of_direct {s : State} {via : Via} (h : s.params.coherent = true ∨ via = .port) (a : Nat) :
    seenVia via s a = readCarrier s a := by
  obtain hc | rfl := h
  · exact seenVia_of_coherent hc via a
  · simp [seenVia]

/-! ### The race with a running command -/

/-- Settles O53: in the region while BUSY = 1 a write races, and a read does unless EXTRACT is latched. -/
theorem carrierRaceFaults : Obligations.CarrierRaceFaults := by
  intro s a v via rest hb hlo hhi ha
  have hregion : inRegion s a = true := (inRegion_iff s a).2 ⟨hlo, hhi⟩
  have hwrite : writeRaces s a = true := by simp [writeRaces, hb, hregion]
  refine ⟨fun hin => ?_, fun hin hc hheld => ?_, fun hin hl => ?_, fun hin hl => ?_⟩
  · exact (step_of_event hin).trans (hostCarrierWrite_of_race (s := taken rest s) ha v via hwrite)
  · obtain ⟨x, hx⟩ := Option.ne_none_iff_exists'.1 hheld
    exact (step_of_event hin).trans ((hostCacheMove_writeBack_held (s := taken rest s) ha hc hx).trans (if_pos hwrite))
  · have hread : readRaces s a = true := by simp [readRaces, hb, hregion, hl]
    exact (step_of_event hin).trans (hostCarrierRead_of_race (s := taken rest s) ha via hread)
  · have hread : readRaces s a = false := by simp [readRaces, hl]
    refine ⟨_, (step_of_event hin).trans (hostCarrierRead_of_no_race (s := taken rest s) ha via hread), rfl,
      fun hdirect => seenVia_of_direct (s := taken rest s) hdirect a, rfl⟩

/-! ### Ordinary memory while no command runs -/

section
variable {s t : State} {a : Nat}

theorem copyFresh_of_no_copy (h : Memory.get? s.hostCached a = none) : CopyFresh s a := .inr fun v hv => by simp [h] at hv

/-- Where the host's copy is not stale it hides nothing: the host sees what it would see with the copy discarded. -/
theorem seenVia_cached_of_fresh (h : CopyFresh s a) : seenVia .cached s a = seenVia .maintained s a := by
  obtain hc | hv := h
  · rw [seenVia_of_coherent hc, seenVia_of_coherent hc]
  · cases hw : Memory.get? s.hostWrites a <;> cases hcopy : Memory.get? s.hostCached a <;> simp [seenVia, hw, hcopy, hv]

theorem seenVia_maintained_of_no_write (h : Memory.get? s.hostWrites a = none) : seenVia .maintained s a = readCarrier s a := by
  simp [seenVia, h]

/-- The host sees its own pending write, whatever maintenance it does. -/
theorem seenVia_of_held {v : Byte} {via : Via} (hc : s.params.coherent = false) (h : Memory.get? s.hostWrites a = some v)
    (hvia : via ≠ .port) : seenVia via s a = v := by
  cases via with
  | cached => simp [seenVia, hc, h]
  | maintained => simp [seenVia, hc, h]
  | port => exact absurd rfl hvia

/-- Two states hold the same of one carrier byte, on either side. -/
structure SameByte (s t : State) (a : Nat) : Prop where
  params : t.params = s.params
  carrier : Memory.get? t.carrier a = Memory.get? s.carrier a
  hostWrites : Memory.get? t.hostWrites a = Memory.get? s.hostWrites a
  hostCached : Memory.get? t.hostCached a = Memory.get? s.hostCached a

theorem SameByte.readCarrier_eq (h : SameByte s t a) : readCarrier t a = readCarrier s a := by simp only [readCarrier, h.carrier]

theorem SameByte.seenVia_eq (h : SameByte s t a) (via : Via) : seenVia via t a = seenVia via s a := by
  simp only [seenVia, h.params, h.hostWrites, h.hostCached, h.readCarrier_eq]

theorem SameByte.copyFresh (h : SameByte s t a) (hf : CopyFresh s a) : CopyFresh t a := by
  simpa only [CopyFresh, h.params, h.hostCached, h.readCarrier_eq] using hf

end

section
variable (a : Nat) (v : Byte) (s : State)

/-! An operation on one byte leaves every other alone. -/

theorem discardCopy_sameByte {a' : Nat} (h : a' ≠ a) : SameByte s (discardCopy a s) a' :=
  ⟨rfl, rfl, rfl, Memory.get?_erase_of_ne _ h⟩

theorem fillCopy_sameByte {a' : Nat} (h : a' ≠ a) : SameByte s (fillCopy a s) a' :=
  ⟨rfl, rfl, rfl, Memory.get?_set_of_ne _ _ h⟩

theorem writeCarrier_sameByte {a' : Nat} (h : a' ≠ a) : SameByte s (writeCarrier a v s) a' :=
  ⟨rfl, Memory.get?_set_of_ne _ _ h, rfl, rfl⟩

theorem holdHostWrite_sameByte {a' : Nat} (h : a' ≠ a) : SameByte s (holdHostWrite a v s) a' :=
  ⟨rfl, rfl, Memory.get?_set_of_ne _ _ h, Memory.get?_erase_of_ne _ h⟩

theorem writeThrough_sameByte {a' : Nat} (h : a' ≠ a) : SameByte s (writeThrough a v s) a' :=
  ⟨rfl, Memory.get?_set_of_ne _ _ h, Memory.get?_erase_of_ne _ h, Memory.get?_erase_of_ne _ h⟩

/-! What the byte itself is afterwards. -/

theorem copyFresh_discardCopy_self : CopyFresh (discardCopy a s) a := copyFresh_of_no_copy (Memory.get?_erase_self _ _)

theorem copyFresh_fillCopy_self : CopyFresh (fillCopy a s) a := .inr fun w hw => by
  rw [fillCopy_hostCached, Memory.get?_set_self, Option.some.injEq] at hw
  exact hw.symm

theorem copyFresh_holdHostWrite_self : CopyFresh (holdHostWrite a v s) a := copyFresh_of_no_copy (Memory.get?_erase_self _ _)

theorem copyFresh_writeThrough_self : CopyFresh (writeThrough a v s) a := copyFresh_of_no_copy (Memory.get?_erase_self _ _)

theorem readCarrier_writeThrough_self : readCarrier (writeThrough a v s) a = v := by simp [readCarrier]

theorem seenVia_maintained_writeThrough_self : seenVia .maintained (writeThrough a v s) a = v :=
  (seenVia_maintained_of_no_write (Memory.get?_erase_self _ _)).trans (readCarrier_writeThrough_self a v s)

theorem seenVia_cached_writeThrough_self : seenVia .cached (writeThrough a v s) a = v :=
  (seenVia_cached_of_fresh (copyFresh_writeThrough_self a v s)).trans (seenVia_maintained_writeThrough_self a v s)

theorem seenVia_cached_holdHostWrite_self (hc : s.params.coherent = false) : seenVia .cached (holdHostWrite a v s) a = v :=
  seenVia_of_held hc (Memory.get?_set_self _ _ _) (by decide)

end

/-- Every byte whose copy was not stale stays so, and the host sees the same of it. -/
def KeepsHostView (s t : State) : Prop := ∀ a, CopyFresh s a → CopyFresh t a ∧ seenVia .cached t a = seenVia .cached s a

/-- A state that differs at one byte alone keeps the host's view where the copy of that byte is not stale and hides the same value. -/
theorem keepsHostView_of_one_byte {a : Nat} {s t : State} (hother : ∀ a', a' ≠ a → SameByte s t a') (hfresh : CopyFresh t a)
    (hseen : seenVia .maintained t a = seenVia .maintained s a) : KeepsHostView s t := fun a' hf => by
  by_cases ha : a' = a
  · subst ha
    refine ⟨hfresh, ?_⟩
    rw [seenVia_cached_of_fresh hfresh, seenVia_cached_of_fresh hf, hseen]
  · exact ⟨(hother a' ha).copyFresh hf, (hother a' ha).seenVia_eq .cached⟩

section
variable (a : Nat) (s : State)

theorem discardCopy_keepsHostView : KeepsHostView s (discardCopy a s) :=
  keepsHostView_of_one_byte (fun _ => discardCopy_sameByte a s) (copyFresh_discardCopy_self a s) rfl

theorem fillCopy_keepsHostView : KeepsHostView s (fillCopy a s) :=
  keepsHostView_of_one_byte (fun _ => fillCopy_sameByte a s) (copyFresh_fillCopy_self a s) rfl

/-- A write-back puts into the carrier what the host saw already. -/
theorem writeThrough_keepsHostView {v : Byte} (hc : s.params.coherent = false) (hw : Memory.get? s.hostWrites a = some v) :
    KeepsHostView s (writeThrough a v s) :=
  keepsHostView_of_one_byte (fun _ => writeThrough_sameByte a v s) (copyFresh_writeThrough_self a v s)
    ((seenVia_maintained_writeThrough_self a v s).trans (seenVia_of_held hc hw (by decide)).symm)

end

/-- Settles O54: a read is answered by `seenVia`, a write changes its own byte alone, and a move of a copy keeps the host's view. -/
theorem hostCarrierAccessIsOrdinaryMemory : Obligations.HostCarrierAccessIsOrdinaryMemory := by
  intro s a rest hb ha
  replace ha : a < (taken rest s).params.carrierSize := ha
  have hread : readRaces (taken rest s) a = false := readRaces_of_idle hb a
  have hwrite : writeRaces (taken rest s) a = false := writeRaces_of_idle hb a
  refine ⟨fun via hin => ?_, fun v via hin => ?_, fun move hin => ?_⟩
  · -- a direct read
    refine ⟨_, (step_of_event hin).trans (hostCarrierRead_of_no_race ha via hread), fun hd => seenVia_of_direct (s := taken rest s) hd a,
      ?_, ?_, ?_, fun a' hf => ?_, rfl⟩
    · rintro rfl
      rfl
    · rintro rfl hf
      exact (seenVia_cached_of_fresh (s := taken rest s) hf).symm
    · rintro rfl hw
      exact seenVia_maintained_of_no_write (s := taken rest s) hw
    · cases via with
      | maintained => exact (discardCopy_keepsHostView a s a' hf).2
      | cached => rfl
      | port => rfl
  · -- a direct write: to the carrier, held on the host's side, or to both
    obtain ⟨t, ht⟩ := hostCarrierWrite_answers ha v via hwrite
    refine ⟨t, (step_of_event hin).trans ht, ?_⟩
    obtain ⟨-, -, ⟨hd, rfl⟩ | ⟨hc, rfl, rfl⟩ | ⟨hc, rfl, rfl⟩⟩ := hostCarrierWrite_next ht
    · have hself := readCarrier_writeCarrier_self (taken rest s) a v
      have hsame {a' : Nat} (hne : a' ≠ a) := writeCarrier_sameByte a v (taken rest s) hne
      refine ⟨fun hhost => ?_, fun a' hne => (hsame hne).seenVia_eq .cached, fun _ => hself, fun hc hv => ?_,
        fun a' hne => (hsame hne).readCarrier_eq, rfl⟩
      · have hc : s.params.coherent = true := hhost.elim id hd.resolve_right
        exact ⟨(seenVia_of_coherent (s := writeCarrier a v (taken rest s)) hc .cached a).trans hself, .inl hc⟩
      · simp [hc, hv] at hd
    · replace hc : s.params.coherent = false := hc
      have hsame {a' : Nat} (hne : a' ≠ a) := holdHostWrite_sameByte a v (taken rest s) hne
      exact ⟨fun _ => ⟨seenVia_cached_holdHostWrite_self a v _ hc, copyFresh_holdHostWrite_self a v _⟩,
        fun a' hne => (hsame hne).seenVia_eq .cached, fun h => by simp [hc] at h, fun _ _ => rfl,
        fun a' hne => (hsame hne).readCarrier_eq, rfl⟩
    · have hsame {a' : Nat} (hne : a' ≠ a) := writeThrough_sameByte a v (taken rest s) hne
      exact ⟨fun _ => ⟨seenVia_cached_writeThrough_self a v _, copyFresh_writeThrough_self a v _⟩,
        fun a' hne => (hsame hne).seenVia_eq .cached, fun _ => readCarrier_writeThrough_self a v _, nofun,
        fun a' hne => (hsame hne).readCarrier_eq, rfl⟩
  · -- a move of the host's copy
    rw [step_of_event hin]
    cases hc : s.params.coherent with
    | true => exact ⟨_, hostCacheMove_of_coherent ha move hc, fun _ hf => ⟨hf, rfl⟩, nofun, fun _ _ => rfl, rfl⟩
    | false =>
      cases move with
      | fill => exact ⟨_, hostCacheMove_fill ha hc, fillCopy_keepsHostView a (taken rest s), nofun, fun _ _ => rfl, rfl⟩
      | discard => exact ⟨_, hostCacheMove_discard ha hc, discardCopy_keepsHostView a (taken rest s), nofun, fun _ _ => rfl, rfl⟩
      | writeBack =>
        cases hw : Memory.get? s.hostWrites a with
        | none => exact ⟨_, hostCacheMove_writeBack_none ha hc hw, fun _ hf => ⟨hf, rfl⟩, nofun, fun _ _ => rfl, rfl⟩
        | some v =>
          refine ⟨_, (hostCacheMove_writeBack_held ha hc hw).trans (if_neg (by simp [hwrite])),
            writeThrough_keepsHostView a (taken rest s) hc hw, fun x _ _ hx => ?_, fun a' hne => ?_, rfl⟩
          · cases hx
            exact readCarrier_writeThrough_self a v _
          · exact (writeThrough_sameByte a v _ (hne.resolve_right (· rfl))).readCarrier_eq

end Sys2Proof.Machine
end

section
/-!
PROOF. The encoding: the decoder reads back what the encoder writes, in both formats and through the host's table words
(spec/30_encoding.md R101 to R104), and the instruction of a table word that is placed is the next step's.
-/

namespace Sys2Proof.Machine

/-! ### Encode and decode -/

/-- The form of every instruction's encoding, from its lemma per constructor. -/
theorem encodingForm : ∀ i : Instr, Laws.EncodingForm.Statement i
  | .nop => Laws.EncodingForm.nop
  | .pack => Laws.EncodingForm.pack
  | .unpack => Laws.EncodingForm.unpack
  | .check => Laws.EncodingForm.check
  | .embed => Laws.EncodingForm.embed
  | .extract => Laws.EncodingForm.extract
  | .rd offset size => Laws.EncodingForm.rd offset size
  | .wr offset size wdata => Laws.EncodingForm.wr offset size wdata

theorem decode_encode (i : Instr) : decode (encode i) = .ok i := (encodingForm i).1

theorem sizeOk_iff {size : Nat} : sizeOk size = true ↔ size = 4 := by simp [sizeOk]

/-- A well-formed instruction's transaction has the one legal size (spec/30_encoding.md R101). -/
theorem size_of_encode_host {i : Instr} {t : HostTxn} (hwf : i.wf = true) (he : encode i = .host t) : t.size = 4 := by
  cases i with
  | rd offset size =>
    cases he
    exact sizeOk_iff.1 (Bool.and_eq_true_iff.1 hwf).1
  | wr offset size wdata =>
    cases he
    exact sizeOk_iff.1 (Bool.and_eq_true_iff.1 hwf).1
  | _ => cases he

/-! ### CMD words -/

/-- The words up to the last opcode are the six commands' (spec/30_encoding.md R103). -/
theorem exists_encode_eq_cmd {w : Word} (hw : w.toNat < 6) : ∃ i, encode i = .cmd w := by
  have hmem : w ∈ [0#32, 1#32, 2#32, 3#32, 4#32, 5#32] := by
    simp only [List.mem_cons, List.not_mem_nil, or_false, ← BitVec.toNat_inj, BitVec.toNat_ofNat]
    omega
  simp only [List.mem_cons, List.not_mem_nil, or_false] at hmem
  obtain rfl | rfl | rfl | rfl | rfl | rfl := hmem
  · exact ⟨.nop, rfl⟩
  · exact ⟨.pack, rfl⟩
  · exact ⟨.unpack, rfl⟩
  · exact ⟨.check, rfl⟩
  · exact ⟨.embed, rfl⟩
  · exact ⟨.extract, rfl⟩

/-- A word above the last opcode is rejected (spec/30_encoding.md R104). -/
theorem decode_cmd_of_illegal {w : Word} (hw : 6 ≤ w.toNat) : ∃ e, decode (.cmd w) = .error e := by
  have hnone : (decode (.cmd w)).toOption = none := by
    show (decodeCmd w).toOption = none
    rw [← decodeLatched_eq_decodeCmd, (cmdIllegal_iff w).2 hw]
    rfl
  cases hd : decode (.cmd w) with
  | error e => exact ⟨e, rfl⟩
  | ok i => simp [hd, Except.toOption] at hnone

/-- The decoder gives a command exactly for the command's own word. -/
theorem decode_cmd_eq_ok_iff {w : Word} {i : Instr} : decode (.cmd w) = .ok i ↔ encode i = .cmd w := by
  refine ⟨fun hd => ?_, fun he => he ▸ decode_encode i⟩
  by_cases hw : w.toNat < 6
  · obtain ⟨j, hj⟩ := exists_encode_eq_cmd hw
    have hji : j = i := Except.ok.inj ((hj ▸ decode_encode j).symm.trans hd)
    exact hji ▸ hj
  · obtain ⟨e, he⟩ := decode_cmd_of_illegal (Nat.le_of_not_lt hw)
    cases hd.symm.trans he

theorem decode_cmd_eq_error_iff {w : Word} : (∃ e, decode (.cmd w) = .error e) ↔ 6 ≤ w.toNat := by
  refine ⟨fun ⟨e, hd⟩ => Nat.le_of_not_lt fun hw => ?_, decode_cmd_of_illegal⟩
  obtain ⟨i, hi⟩ := exists_encode_eq_cmd hw
  cases hd.symm.trans (decode_cmd_eq_ok_iff.2 hi)

/-- Settles O1: the decoder gives a command exactly for its encoding, which is the word of its opcode. -/
theorem cmdWordsDecodeByTheOpcodeMap : Obligations.CmdWordsDecodeByTheOpcodeMap := by
  intro w
  have hsel {i : Instr} {k : Word} (hi : encode i = .cmd k) : decode (.cmd w) = .ok i ↔ w.toNat = k.toNat := by
    rw [decode_cmd_eq_ok_iff, hi, Encoded.cmd.injEq, BitVec.toNat_inj, eq_comm]
  exact ⟨hsel (k := 0#32) rfl, hsel (k := 1#32) rfl, hsel (k := 2#32) rfl, hsel (k := 3#32) rfl, hsel (k := 4#32) rfl,
    hsel (k := 5#32) rfl, decode_cmd_eq_error_iff⟩

/-- Settles O2: closed words, each decoded by evaluation. -/
theorem specWordsDecodeToTheirInstructions : Obligations.SpecWordsDecodeToTheirInstructions :=
  ⟨rfl, rfl, rfl, rfl, rfl, rfl, rfl, rfl, rfl, rfl⟩

/-! ### Table words -/

section
variable (t : HostTxn)

/-- The fields of a transaction's bits as a sum, each below its width, for `omega` to take apart. -/
theorem exists_bitsOfHostTxn_eq : ∃ d o z x, bitsOfHostTxn t = d + o * 2 ^ 8 + z * 2 ^ 16 + x * 2 ^ 24 ∧
    (d < 2 ∧ (d = 1 ↔ t.dir = .write)) ∧ (o < 2 ^ 8 ∧ o = t.offset.toNat) ∧ (z < 2 ^ 8 ∧ z = t.size % 256) ∧
      (x < 2 ^ 32 ∧ x = t.wdata.toNat) := by
  refine ⟨_, _, _, _, rfl, ?_, ⟨t.offset.isLt, rfl⟩, ⟨Nat.mod_lt _ (by decide), rfl⟩, t.wdata.isLt, rfl⟩
  cases t.dir <;> decide

theorem bitsOfHostTxn_lt : bitsOfHostTxn t < 2 ^ hostBits := by
  obtain ⟨d, o, z, x, hsum, ⟨hd, -⟩, ⟨ho, -⟩, ⟨hz, -⟩, hx, -⟩ := exists_bitsOfHostTxn_eq t
  simp only [hsum, hostBits]
  omega

/-- The layout of a HOST transaction keeps every field (notes/assumptions/7.md). -/
theorem hostTxnOfBits_bitsOfHostTxn (hsize : t.size < 256) : hostTxnOfBits (bitsOfHostTxn t) = .ok t := by
  obtain ⟨d, o, z, x, hsum, ⟨hd, hdir⟩, ⟨ho, hoff⟩, ⟨hz, hsz⟩, hx, hdata⟩ := exists_bitsOfHostTxn_eq t
  have hreserved : bitsOfHostTxn t / 2 % 128 = 0 := by omega
  have hdirBit : bitsOfHostTxn t % 2 = 1 ↔ t.dir = .write := by
    rw [← hdir]
    omega
  have hdirField : (if bitsOfHostTxn t % 2 = 1 then Dir.write else .read) = t.dir := by
    simp only [hdirBit]
    cases t.dir <;> rfl
  have hoffField : BitVec.ofNat 8 (bitsOfHostTxn t / 2 ^ 8) = t.offset :=
    BitVec.eq_of_toNat_eq (by rw [BitVec.toNat_ofNat]; omega)
  have hsizeField : bitsOfHostTxn t / 2 ^ 16 % 256 = t.size := by omega
  have hdataField : BitVec.ofNat 32 (bitsOfHostTxn t / 2 ^ 24) = t.wdata :=
    BitVec.eq_of_toNat_eq (by rw [BitVec.toNat_ofNat]; omega)
  rw [hostTxnOfBits, if_neg (not_not.2 hreserved), hdirField, hoffField, hsizeField, hdataField]

end

/-- A well-formed instruction's table word stands for its encoding. -/
theorem encodedOfTableWord_tableWord {i : Instr} (hwf : i.wf = true) :
    encodedOfTableWord (tableWord i).1 (tableWord i).2 = .ok (encode i) := by
  cases he : encode i with
  | cmd w => simp [tableWord, encodedOfTableWord, he]
  | host t =>
    have hsize : t.size < 256 := by simp [size_of_encode_host hwf he]
    have hbits : hostBits ≠ 32 := by decide
    simp [tableWord, encodedOfTableWord, he, hbits, Nat.mod_eq_of_lt (bitsOfHostTxn_lt t), hostTxnOfBits_bitsOfHostTxn t hsize]

/-- Settles O3: the table word stands for the encoding, and the decoder reads the instruction back from that. -/
theorem tableWordsRoundTrip : Obligations.TableWordsRoundTrip := by
  intro i hwf
  rw [decodeTableWord, encodedOfTableWord_tableWord hwf]
  simp only [decode_encode, Except.toOption]

/-! ### A placed instruction -/

/-- The engine runs the latched command (spec/40_command.md R122). -/
theorem engineStep_of_latched {s : State} {i : Instr} (he : Engaged s) (hl : latched s = some i) : engineStep s = exec i s := by
  rw [engineStep, if_pos he, hl]

/-- An accepted command's word latches the command (spec/40_command.md R121). -/
theorem latched_accept_encode {i : Instr} {w : Word} (s : State) (he : encode i = .cmd w) : latched (accept w s) = some i := by
  rw [(latchedCommandIsTheDecodedWord w s).1, ← he, decode_encode]
  rfl

/-- Where the engine has been put first in the schedule, the step is the engine's. -/
theorem step_of_engineFirst {s : State} {rest : List Input} (hin : s.inputs = engineFirst rest) :
    step s = engineStep (taken rest s) := by
  cases rest with
  | nil => simp only [step, stepBody, hin, engineFirst]
  | cons e rest => exact step_of_event hin

/-- The step of a HOST transaction at its offset is the instruction it decodes to (spec/30_encoding.md R101). -/
theorem step_of_bus {s : State} {t : HostTxn} {rest : List Input}
    (hin : s.inputs = .bus (s.params.hostBase + t.offset.toNat) t.dir t.size t.wdata :: rest) :
    step s = exec (decodeHost t) (taken rest s) := by
  simp only [step_of_event hin, handle, hostTransaction, windowOffset_add]

/-- Settles O9: a command is latched with the engine next, and a transaction is the next event, at its offset in the window. -/
theorem placedInstructionRunsNext : Obligations.PlacedInstructionRunsNext := by
  intro s i hwf
  simp only [State.withFetchWord, placeWord, encodedOfTableWord_tableWord hwf]
  have hdec := decode_encode i
  cases he : encode i with
  | cmd w =>
    simp only
    rw [step_of_engineFirst rfl]
    exact engineStep_of_latched ⟨rfl, rfl⟩ (latched_accept_encode s he)
  | host t =>
    rw [he] at hdec
    have hi : decodeHost t = i := Except.ok.inj hdec
    simp only
    rw [step_of_bus rfl, hi]

end Sys2Proof.Machine
end

section
/-!
PROOF. The frames of the eight instructions (spec/30_encoding.md R107): which fields and which bytes a step that answers can change; and
the STATUS word at the points of a command's life (R106).
-/

namespace Sys2Proof.Machine

/-! ### Commands -/

/-- A step that changes STATUS and PHASE at most. -/
def ControlOnly (s t : State) : Prop := t = { s with result := t.result, done := t.done, busy := t.busy, phase := t.phase }

/-- What EMBED's step may change: CURSOR, one carrier byte, the model's draws and port log, and what every command does. -/
def EmbedFrame (s t : State) : Prop :=
  (∀ a, a ≠ byteAddr s s.cursor → readCarrier t a = readCarrier s a) ∧
    t = { s with
      carrier := t.carrier, cursor := t.cursor, draws := t.draws, portLog := t.portLog, result := t.result
      done := t.done, busy := t.busy, phase := t.phase }

/-- What EXTRACT's step may change: CURSOR, its hidden registers, HDR_LEN, MSG_LEN, one message byte, the port log, and what every
command does. -/
def ExtractFrame (s t : State) : Prop :=
  (∀ j, j ≠ (s.cursor - 32 + 1) / 8 - 1 → readMsg t j = readMsg s j) ∧
    t = { s with
      msg := t.msg, msgLen := t.msgLen, hdrLen := t.hdrLen, shift := t.shift, acc := t.acc, cursor := t.cursor
      portLog := t.portLog, result := t.result, done := t.done, busy := t.busy, phase := t.phase }

section
variable {s t : State}

theorem ControlOnly.embedFrame (h : ControlOnly s t) : EmbedFrame s t := by
  rw [h]
  exact ⟨fun _ _ => rfl, rfl⟩

theorem startChecked_controlOnly {checks : List Bool} {c : State} (h : startChecked checks c s = .next t) (hc : ControlOnly s c) :
    ControlOnly s t := by
  obtain ⟨-, rfl⟩ | ⟨-, rfl⟩ := startChecked_next h
  · rfl
  · exact hc

theorem exec_nop_controlOnly (h : exec .nop s = .next t) : ControlOnly s t := by
  obtain ⟨-, -, hk⟩ := whenRunning_next h
  split at hk <;> cases hk
  rfl

theorem exec_check_controlOnly (h : exec .check s = .next t) : ControlOnly s t := by
  obtain ⟨-, -, hk⟩ := whenRunning_next h
  split at hk
  · exact startChecked_controlOnly hk rfl
  · cases hk; rfl
  · cases hk

theorem exec_pack_next (h : exec .pack s = .next t) : ControlOnly s t ∨ packStep s = .next t := by
  obtain ⟨-, -, hk⟩ := whenRunning_next h
  split at hk
  · exact .inl (startChecked_controlOnly hk rfl)
  · exact .inr hk
  · cases hk

theorem exec_unpack_next (h : exec .unpack s = .next t) : ControlOnly s t ∨ unpackStep s = .next t := by
  obtain ⟨-, -, hk⟩ := whenRunning_next h
  split at hk
  · exact .inl (startChecked_controlOnly hk rfl)
  · exact .inr hk
  · cases hk

theorem embedCapCheckStep_controlOnly (h : embedCapCheckStep s = .next t) : ControlOnly s t := by
  unfold embedCapCheckStep at h
  split at h
  · cases h; rfl
  · split at h <;> cases h <;> rfl

/-- The WRITE step writes the byte at CURSOR alone, whatever the port answers (spec/43_embedder.md R173, R178). -/
theorem writeBitStep_embedFrame (h : writeBitStep s = .next t) : EmbedFrame s t := by
  obtain ⟨-, -, ⟨-, rfl⟩ | ⟨-, rfl⟩ | ⟨-, rfl⟩⟩ := writeBitStep_next h
  · exact ⟨fun _ _ => rfl, rfl⟩
  · exact ⟨fun a ha => readCarrier_writeCarrierDrawn_of_ne _ _ ha, rfl⟩
  · rw [writeBitDone_eq]
    split <;> exact ⟨fun a ha => readCarrier_writeCarrier_of_ne s _ ha, rfl⟩

theorem exec_embed_frame (h : exec .embed s = .next t) : EmbedFrame s t := by
  obtain ⟨-, -, hk⟩ := whenRunning_next h
  split at hk
  · exact (startChecked_controlOnly hk rfl).embedFrame
  · exact (embedCapCheckStep_controlOnly hk).embedFrame
  · exact writeBitStep_embedFrame hk
  · exact writeBitStep_embedFrame hk
  · cases hk

/-- EXTRACT's START changes SHIFT at most besides STATUS and PHASE (spec/44_extractor.md R191). -/
theorem extractStart_frame {checks : List Bool} (h : startChecked checks (extractContinuation s) s = .next t) : ExtractFrame s t := by
  obtain ⟨-, rfl⟩ | ⟨-, rfl⟩ := startChecked_next h
  · exact ⟨fun _ _ => rfl, rfl⟩
  · unfold extractContinuation
    split <;> exact ⟨fun _ _ => rfl, rfl⟩

theorem readHeaderStep_frame (h : readHeaderStep s = .next t) : ExtractFrame s t := by
  obtain ⟨-, rfl⟩ | ⟨-, rfl⟩ := readHeaderStep_next h
  · exact ⟨fun _ _ => rfl, rfl⟩
  · dsimp only
    split <;> exact ⟨fun _ _ => rfl, rfl⟩

theorem validateLengthStep_frame (h : validateLengthStep s = .next t) : ExtractFrame s t := by
  simp only [validateLengthStep] at h
  split at h
  · cases h; exact ⟨fun _ _ => rfl, rfl⟩
  · split at h <;> cases h <;> exact ⟨fun _ _ => rfl, rfl⟩

/-- Payload bit `k` stores message byte `(k + 1) / 8 − 1`, if any (spec/44_extractor.md R195). -/
theorem readMsg_readPayloadDone_of_ne (k : Nat) (v : Bool) {j : Nat} (hj : j ≠ (k + 1) / 8 - 1) :
    readMsg (readPayloadDone s k v) j = readMsg s j := by
  by_cases hk : (k + 1) % 8 = 0
  · simp [readMsg, readPayloadDone, hk, Memory.get?_set_of_ne _ _ hj]
  · simp [readMsg, readPayloadDone, hk]

theorem readPayloadStep_frame (h : readPayloadStep s = .next t) : ExtractFrame s t := by
  obtain ⟨-, rfl⟩ | ⟨-, rfl⟩ := readPayloadStep_next h
  · exact ⟨fun _ _ => rfl, rfl⟩
  · exact ⟨fun j hj => readMsg_readPayloadDone_of_ne _ _ hj, rfl⟩

theorem exec_extract_frame (h : exec .extract s = .next t) : ExtractFrame s t := by
  obtain ⟨-, -, hk⟩ := whenRunning_next h
  split at hk
  · exact extractStart_frame hk
  · exact readHeaderStep_frame hk
  · exact validateLengthStep_frame hk
  · exact readPayloadStep_frame hk
  · cases hk; exact ⟨fun _ _ => rfl, rfl⟩
  · cases hk

/-- UNPACK's message leaves MSG RAM from its own end on as it was (spec/41_framer.md R147). -/
theorem readMsg_unpackedMessage_rest (source : State) {n j : Nat} (hj : n ≤ j) :
    readMsg (unpackedMessage source n s) j = readMsg s j := by
  simp [readMsg, Memory.get?_fill_outside _ _ _ (Or.inr (by omega : 0 + n ≤ j))]

end

/-! ### HOST transactions -/

theorem regAt_eq_msgData {off : BitVec 8} (h : regAt off = .msgData) : off = 0x30#8 := by
  revert h
  revert off
  decide

theorem regAt_eq_frameData {off : BitVec 8} (h : regAt off = .frameData) : off = 0x38#8 := by
  revert h
  revert off
  decide

/-- What a register write may change: `storeReg_frame` and the answer, as one record. -/
def WriteFrame (s t : State) : Prop :=
  t = { s with
    ie := t.ie, busy := t.busy, done := t.done, busyErr := t.busyErr, ramErr := t.ramErr, result := t.result
    phase := t.phase, cursor := t.cursor, carrierBase := t.carrierBase, pixelCount := t.pixelCount
    frameBits := t.frameBits, msgLen := t.msgLen, msgPtr := t.msgPtr, framePtr := t.framePtr, op := t.op
    opIll := t.opIll, msg := t.msg, frame := t.frame, resp := t.resp }

section
variable (r : Reg) (w : Word) (s : State)

theorem storeReg_writeFrame : WriteFrame s (storeReg r w s) := by
  obtain ⟨h1, h2, h3, h4, h5, h6, h7, h8, h9, h10, h11, h12, h13, -, h15, h16⟩ := storeReg_frame r w s
  rw [WriteFrame, ← h1, ← h2, ← h3, ← h4, ← h5, ← h6, ← h7, ← h8, ← h9, ← h10, ← h11, ← h12, ← h13, ← h15, ← h16]

theorem writeReg_writeFrame : WriteFrame s (writeReg r w s) := by
  obtain ⟨-, heq⟩ | ⟨-, heq⟩ := writeReg_cases r w s
  · rw [heq]
    rfl
  · rw [heq, storeReg_writeFrame r w s]
    rfl

end

/-- Of MSG RAM a register write changes at most the byte at MSG_PTR, and only through MSG_DATA (spec/45_host_access.md R227). -/
theorem readMsg_writeReg {r : Reg} {j : Nat} (w : Word) (s : State) (h : r ≠ .msgData ∨ j ≠ s.msgPtr.toNat) :
    readMsg (writeReg r w s) j = readMsg s j := by
  obtain ⟨-, heq⟩ | ⟨-, heq⟩ := writeReg_cases r w s <;> rw [heq]
  · rfl
  · cases r with
    | msgData =>
      have hj : j ≠ s.msgPtr.toNat := h.resolve_left (· rfl)
      simp only [storeReg, writeMsgPort]
      split
      · exact readMsg_writeMsg_of_ne s _ hj
      · rfl
    | frameData =>
      simp only [storeReg, writeFramePort]
      split <;> rfl
    | _ => rfl

/-- Of FRAME RAM a register write changes at most the byte at FRAME_PTR, and only through FRAME_DATA (spec/45_host_access.md R227). -/
theorem readFrame_writeReg {r : Reg} {j : Nat} (w : Word) (s : State) (h : r ≠ .frameData ∨ j ≠ s.framePtr.toNat) :
    readFrame (writeReg r w s) j = readFrame s j := by
  obtain ⟨-, heq⟩ | ⟨-, heq⟩ := writeReg_cases r w s <;> rw [heq]
  · rfl
  · cases r with
    | frameData =>
      have hj : j ≠ s.framePtr.toNat := h.resolve_left (· rfl)
      simp only [storeReg, writeFramePort]
      split
      · exact readFrame_writeFrame_of_ne s _ hj
      · rfl
    | msgData =>
      simp only [storeReg, writeMsgPort]
      split <;> rfl
    | _ => rfl

/-- Settles O60: each instruction's step is one of the few its own lemma names, and each of those has the frame. -/
theorem instructionsChangeOnlyTheirOutputs : Obligations.InstructionsChangeOnlyTheirOutputs := by
  intro s t
  refine ⟨?nopCheck, fun h => ?pack, fun h => ?unpack, exec_embed_frame, exec_extract_frame, fun off size h => ?rd,
    fun off size w h => ?wr⟩
  case nopCheck =>
    rintro (h | h)
    · exact exec_nop_controlOnly h
    · exact exec_check_controlOnly h
  case pack =>
    obtain hc | hp := exec_pack_next h
    · rw [hc]
      exact ⟨fun _ _ => rfl, rfl⟩
    · obtain ⟨-, rfl⟩ := packStep_next hp
      exact ⟨fun j hj => readFrame_packMessage_rest s hj, rfl⟩
  case unpack =>
    obtain hc | hu := exec_unpack_next h
    · rw [hc]
      exact ⟨fun _ _ => rfl, rfl⟩
    · obtain ⟨-, rfl⟩ | ⟨-, -, rfl⟩ | ⟨-, -, rfl⟩ := unpackStep_next hu
      · exact ⟨fun _ _ => rfl, rfl⟩
      · exact ⟨fun _ _ => rfl, rfl⟩
      · exact ⟨fun j hj => readMsg_unpackedMessage_rest (s := setHdrLen _ s) s hj, rfl⟩
  case rd =>
    obtain ⟨-, ⟨-, rfl⟩ | ⟨-, rfl⟩⟩ := execRd_next h
    · rw [readReg_frame]
    · rfl
  case wr =>
    obtain ⟨-, ⟨-, rfl⟩ | ⟨-, rfl⟩⟩ := execWr_next h
    · exact ⟨fun j hj => readMsg_writeReg w s (hj.imp_left (mt regAt_eq_msgData)),
        fun j hj => readFrame_writeReg w s (hj.imp_left (mt regAt_eq_frameData)), writeReg_writeFrame _ w s⟩
    · exact ⟨fun _ _ => rfl, fun _ _ => rfl, rfl⟩

/-! ### The STATUS word -/

section
variable {s : State} (hb : s.busyErr = false) (hr : s.ramErr = false)
include hb hr

/-- STATUS after a finish: DONE and the result code (spec/40_command.md R126). -/
theorem statusWord_finish (code : Result) : statusWord (finish code s) = 0x02#32 ||| (code.code.setWidth 32 <<< 4) := by
  simp [statusWord, flagBit, hb, hr]

/-- STATUS while a command runs: BUSY and PENDING (spec/10_state.md R36, R39). -/
theorem statusWord_of_busy (hinv : Inv s) (hbusy : s.busy = true) : statusWord s = 0xF1#32 := by
  have hdone : s.done = false := hinv.busy_not_done hbusy
  have hpending : s.result = .pending := hinv.busy_iff_pending.1 hbusy
  simp [statusWord, flagBit, hb, hr, hbusy, hdone, hpending, Result.code]

end

/-- Settles O40: the word is known after a finish and while BUSY, and each result code is put into it by evaluation. -/
theorem statusWordOverACommandsLife : Obligations.StatusWordOverACommandsLife := by
  refine ⟨rfl, fun s hb hr => ?_⟩
  have hfin := statusWord_finish hb hr
  exact ⟨hfin .ok, hfin .capacity, hfin .absent, hfin .short, hfin .oversize, hfin .range, hfin .busError, hfin .badCmd,
    statusWord_of_busy hb hr⟩

end Sys2Proof.Machine
end

section
/-!
PROOF. The command lifecycle (spec/40_command.md): acceptance and the dropped CMD write, the engine's step as the latched command's, the
results that START decides by itself, and what every step that ends a command leaves (R126).
-/

namespace Sys2Proof.Machine

/-! ### CMD writes -/

/-- OPILL as R121 computes it: reserved bits above a legal opcode, or a reserved opcode. -/
theorem cmdIllegal_eq_decide (w : Word) :
    cmdIllegal w = decide (w.extractLsb' 4 28 ≠ 0#28 ∨ 6 ≤ (w.extractLsb' 0 4).toNat) := by
  have hres : (cmdReserved w != 0#28) = decide (w.extractLsb' 4 28 ≠ 0#28) := by
    rw [bne, beq_eq_decide, decide_not, cmdReserved]
  have hop : decide (0x6#4 ≤ cmdOpcode w) = decide (6 ≤ (w.extractLsb' 0 4).toNat) := rfl
  rw [cmdIllegal, hres, hop, Bool.decide_or]

/-- A CMD write while BUSY = 0 accepts its word (spec/40_command.md R120). -/
theorem writeReg_cmd_of_idle {s : State} (hb : s.busy = false) (w : Word) : writeReg .cmd w s = answerWrite (accept w s) := by
  simp [writeReg, writeDropped, hb, storeReg]

/-- A CMD write while BUSY = 1 is dropped (spec/40_command.md R123). -/
theorem writeReg_cmd_of_busy {s : State} (hb : s.busy = true) (w : Word) : writeReg .cmd w s = answerWrite (setBusyErr s) := by
  simp [writeReg, writeDropped, hb]

/-- Settles O5: the write accepts its word, and acceptance stores the fields that the rule lists. -/
theorem idleCmdWriteIsAccepted : Obligations.IdleCmdWriteIsAccepted := by
  intro w s hr hb
  refine ⟨answerWrite (accept w s), ?_, by simp [irq], ?_⟩
  · exact (exec_wr_word hr rfl w).trans (congrArg _ (writeReg_cmd_of_idle hb w))
  · rw [← cmdIllegal_eq_decide]
    rfl

/-- Settles O6: CMD is locked out while BUSY = 1, so the write only sets BUSYERR. -/
theorem busyCmdWriteIsDropped : Obligations.BusyCmdWriteIsDropped :=
  fun w _ hr hb => (exec_wr_word hr rfl w).trans (congrArg _ (writeReg_cmd_of_busy hb w))

/-! ### The engine's step -/

/-- An illegal word's step is BAD_CMD's (spec/40_command.md R124). -/
theorem engineStep_of_illegal {s : State} (he : Engaged s) (hl : latched s = none) : engineStep s = execIllegal s := by
  rw [engineStep, if_pos he, hl]

/-- While the engine has no enabled step, its turn changes nothing (spec/40_command.md R122). -/
theorem engineStep_of_not_engaged {s : State} (he : ¬ Engaged s) : engineStep s = .next s := if_neg he

/-- The engine moves where its move is the next event, and where nothing is scheduled (notes/assumptions/2.md). -/
theorem step_of_engineTurn {s : State} {rest : List Input} (h : s.inputs = [] ∧ rest = [] ∨ s.inputs = .engine :: rest) :
    step s = engineStep (taken rest s) := by
  obtain ⟨hin, rfl⟩ | hin := h
  · exact step_of_engineFirst (rest := []) hin
  · exact step_of_event hin

/-- Settles O7: the step is the engine's, and that is one of its three cases. -/
theorem stepRunsTheLatchedCommand : Obligations.StepRunsTheLatchedCommand := by
  intro s rest hturn
  rw [step_of_engineTurn hturn]
  exact ⟨fun i he hl => engineStep_of_latched (s := taken rest s) he hl, engineStep_of_illegal (s := taken rest s),
    engineStep_of_not_engaged (s := taken rest s)⟩

/-! ### START -/

section
variable {s : State}

theorem msgLenOut_iff : msgLenOut s = true ↔ s.params.msgCap < s.msgLen.toNat := decide_eq_true_iff
theorem pixelCountOut_iff : pixelCountOut s = true ↔ s.params.maxPixels < s.pixelCount.toNat := decide_eq_true_iff
theorem frameBitsOut_iff : frameBitsOut s = true ↔ 8 * (s.params.msgCap + 4) < s.frameBits.toNat := decide_eq_true_iff
theorem regionOut_iff :
    regionOut s = true ↔ 2 ^ s.params.addrW < s.carrierBase.toNat % 2 ^ s.params.addrW + 4 * s.pixelCount.toNat := decide_eq_true_iff

/-- START finishes with RANGE where some check fails (spec/40_command.md R124, R125). -/
theorem startChecked_of_failing {checks : List Bool} (h : checks.any id = true) (c : State) :
    startChecked checks c s = .next (finish .range s) := if_pos h

/-- finish as one record, where CURSOR is what acceptance left (spec/40_command.md R121, R126). -/
theorem finish_eq_of_cursor (hcur : s.cursor = 0) (code : Result) :
    finish code s = { s with result := code, done := true, busy := false, phase := .idle, cursor := 0 } := by
  rw [← hcur]
  rfl

end

/-- Settles O11: each premise is one of the command's checks failing, and START then finishes with RANGE. -/
theorem rangeFailuresAtStart : Obligations.RangeFailuresAtStart := by
  intro s he hp hcur
  simp only [exec_pack_of_start he hp, exec_unpack_of_start he hp, exec_check_of_start he hp, exec_embed_of_start he hp,
    exec_extract_of_start he hp, ← finish_eq_of_cursor hcur]
  simp only [← msgLenOut_iff, ← pixelCountOut_iff, ← frameBitsOut_iff, ← regionOut_iff]
  refine ⟨?_, ?_, ?_, ?_, ?_⟩ <;> exact fun h => startChecked_of_failing (by simpa using h) _

/-- Settles O12: NOP's START is finish alone. -/
theorem nopFinishesOk : Obligations.NopFinishesOk :=
  ⟨rfl, fun _ he hp hcur =>
    ⟨_, exec_nop_of_start he hp, finish_eq_of_cursor hcur .ok, fun hberr hrerr => statusWord_finish hberr hrerr .ok⟩⟩

/-- An accepted word of 6 or more latches no command (spec/40_command.md R129). -/
theorem latched_accept_of_illegal {w : Word} (hw : 6 ≤ w.toNat) (s : State) : latched (accept w s) = none := by
  simp [latched, decodeLatched, (cmdIllegal_iff w).2 hw]

/-- Settles O13: nothing is latched, so START is finish with BAD_CMD. -/
theorem illegalWordFinishesBadCmd : Obligations.IllegalWordFinishesBadCmd := by
  intro w s hw hr hin
  have he : Engaged (taken [] (accept w s)) := ⟨rfl, hr⟩
  have hstep : step (accept w s) = .next (finish .badCmd (taken [] (accept w s))) := by
    rw [step_of_engineTurn (s := accept w s) (.inl ⟨hin, rfl⟩), engineStep_of_illegal he (latched_accept_of_illegal hw s),
      execIllegal_of_start he rfl]
  refine ⟨_, hstep, ?_, fun hberr hrerr => statusWord_finish hberr hrerr .badCmd⟩
  rw [finish_eq_of_cursor rfl, ← hin]
  rfl

/-! ### The step that ends a command -/

/-- If the command is over in `t`, then `t` is as finish leaves it, with CTRL.IE as in `s`. -/
def EndsByFinish (s t : State) : Prop := t.busy = false → t.done = true ∧ t.phase = .idle ∧ t.result ≠ .pending ∧ irq t = s.ie

section
variable {s t : State}

theorem endsByFinish_finish {code : Result} (hc : code ≠ .pending) (hie : t.ie = s.ie) : EndsByFinish s (finish code t) :=
  fun _ => ⟨rfl, rfl, hc, by simp [irq, hie]⟩

theorem endsByFinish_of_busy (ht : t.busy = true) : EndsByFinish s t := fun hf => by simp [ht] at hf

theorem packStep_endsByFinish (h : packStep s = .next t) : EndsByFinish s t := by
  obtain ⟨-, rfl⟩ := packStep_next h
  exact endsByFinish_finish nofun rfl

theorem unpackStep_endsByFinish (h : unpackStep s = .next t) : EndsByFinish s t := by
  obtain ⟨-, rfl⟩ | ⟨-, -, rfl⟩ | ⟨-, -, rfl⟩ := unpackStep_next h <;> exact endsByFinish_finish nofun rfl

theorem startChecked_endsByFinish {checks : List Bool} {c : State} (h : startChecked checks c s = .next t) (hc : EndsByFinish s c) :
    EndsByFinish s t := by
  obtain ⟨-, rfl⟩ | ⟨-, rfl⟩ := startChecked_next h
  · exact endsByFinish_finish nofun rfl
  · exact hc

section
variable (hb : s.busy = true)
include hb

theorem embedCapCheckStep_endsByFinish (h : embedCapCheckStep s = .next t) : EndsByFinish s t := by
  unfold embedCapCheckStep at h
  split at h
  · cases h; exact endsByFinish_finish nofun rfl
  · split at h <;> cases h
    · exact endsByFinish_finish nofun rfl
    · exact endsByFinish_of_busy hb

theorem writeBitStep_endsByFinish (h : writeBitStep s = .next t) : EndsByFinish s t := by
  obtain ⟨-, -, ⟨-, rfl⟩ | ⟨-, rfl⟩ | ⟨-, rfl⟩⟩ := writeBitStep_next h
  · exact endsByFinish_finish nofun rfl
  · exact endsByFinish_finish nofun rfl
  · simp only [writeBitDone]
    split
    · exact endsByFinish_finish nofun (by simp)
    · exact endsByFinish_of_busy (by simpa using hb)

theorem extractContinuation_endsByFinish : EndsByFinish s (extractContinuation s) := by
  unfold extractContinuation
  split
  · exact endsByFinish_finish nofun rfl
  · exact endsByFinish_of_busy hb

theorem readHeaderStep_endsByFinish (h : readHeaderStep s = .next t) : EndsByFinish s t := by
  obtain ⟨-, rfl⟩ | ⟨-, rfl⟩ := readHeaderStep_next h
  · exact endsByFinish_finish nofun rfl
  · dsimp only
    split <;> exact endsByFinish_of_busy (by simpa using hb)

theorem validateLengthStep_endsByFinish (h : validateLengthStep s = .next t) : EndsByFinish s t := by
  simp only [validateLengthStep] at h
  split at h
  · cases h; exact endsByFinish_finish nofun rfl
  · split at h <;> cases h
    · exact endsByFinish_finish nofun rfl
    · exact endsByFinish_of_busy hb

theorem readPayloadStep_endsByFinish (h : readPayloadStep s = .next t) : EndsByFinish s t := by
  obtain ⟨-, rfl⟩ | ⟨-, rfl⟩ := readPayloadStep_next h
  · exact endsByFinish_finish nofun rfl
  · exact endsByFinish_of_busy hb

end

/-- A command's step that answers is one of its phases' steps, and each of those ends the command by finish if at all. -/
theorem exec_command_endsByFinish {i : Instr} (hi : i.isCommand = true) (h : exec i s = .next t) : EndsByFinish s t := by
  cases i with
  | nop =>
    obtain ⟨-, -, hk⟩ := whenRunning_next h
    split at hk <;> cases hk
    exact endsByFinish_finish nofun rfl
  | pack =>
    obtain ⟨hb, -, hk⟩ := whenRunning_next h
    split at hk
    · exact startChecked_endsByFinish hk (endsByFinish_of_busy hb)
    · exact packStep_endsByFinish hk
    · cases hk
  | unpack =>
    obtain ⟨hb, -, hk⟩ := whenRunning_next h
    split at hk
    · exact startChecked_endsByFinish hk (endsByFinish_of_busy hb)
    · exact unpackStep_endsByFinish hk
    · cases hk
  | check =>
    obtain ⟨hb, -, hk⟩ := whenRunning_next h
    split at hk
    · exact startChecked_endsByFinish hk (endsByFinish_of_busy hb)
    · cases hk
      exact endsByFinish_finish (by split <;> simp) rfl
    · cases hk
  | embed =>
    obtain ⟨hb, -, hk⟩ := whenRunning_next h
    split at hk
    · exact startChecked_endsByFinish hk (endsByFinish_of_busy hb)
    · exact embedCapCheckStep_endsByFinish hb hk
    · exact writeBitStep_endsByFinish hb hk
    · exact writeBitStep_endsByFinish hb hk
    · cases hk
  | extract =>
    obtain ⟨hb, -, hk⟩ := whenRunning_next h
    split at hk
    · exact startChecked_endsByFinish hk (extractContinuation_endsByFinish hb)
    · exact readHeaderStep_endsByFinish hb hk
    · exact validateLengthStep_endsByFinish hb hk
    · exact readPayloadStep_endsByFinish hb hk
    · cases hk
      exact endsByFinish_finish nofun rfl
    · cases hk
  | rd offset size => simp [Instr.isCommand] at hi
  | wr offset size wdata => simp [Instr.isCommand] at hi

end

/-- Settles O14: whichever step of the command it is, it ends the command by finish. -/
theorem finishRaisesDone : Obligations.FinishRaisesDone := fun _ _ _ hi h => exec_command_endsByFinish hi h

end Sys2Proof.Machine
end

section
/-!
PROOF. The step bounds of spec/40_command.md R127. A command that nothing interrupts ends within a number of steps that its phase gives;
the phases are taken from the last back to START, with an induction on the bits left in each phase that moves over channel bits. EXTRACT's
bound speaks of the header in the carrier, so the header's bits are followed into SHIFT.
-/

namespace Sys2Proof.Machine

/-! ### Runs that end a command -/

/-- The command ends after at most `n` steps. -/
def EndsWithin (n : Nat) (s : State) : Prop := ∃ k t, k ≤ n ∧ run k s = .next t ∧ CommandEnd t

/-- The engine runs a command and no event is scheduled: every step is the engine's. -/
structure Uninterrupted (s : State) : Prop where
  engaged : Engaged s
  unscheduled : s.inputs = []

section
variable {s t : State} {n : Nat}

theorem run_succ_of_step (h : step s = .next t) (k : Nat) : run (k + 1) s = run k t := by
  have hcore : core.step s = .next t := h
  change Host.Core.run core (k + 1) s = Host.Core.run core k t
  simp only [Host.Core.run, hcore]

theorem EndsWithin.mono {m : Nat} (h : EndsWithin m s) (hmn : m ≤ n) : EndsWithin n s := by
  obtain ⟨k, t, hk, hrun, hend⟩ := h
  exact ⟨k, t, hk.trans hmn, hrun, hend⟩

theorem endsWithin_of_step (h : step s = .next t) (ht : EndsWithin n t) : EndsWithin (n + 1) s := by
  obtain ⟨k, u, hk, hrun, hend⟩ := ht
  exact ⟨k + 1, u, Nat.succ_le_succ hk, (run_succ_of_step h k).trans hrun, hend⟩

theorem endsWithin_finish (code : Result) (s : State) : EndsWithin n (finish code s) := ⟨0, _, Nat.zero_le n, rfl, rfl, rfl⟩

/-- A step that finishes ends the command, whatever the bound that is left. -/
theorem endsWithin_of_finish {code : Result} (h : step s = .next (finish code t)) : EndsWithin (n + 1) s :=
  endsWithin_of_step h (endsWithin_finish code t)

/-- An uninterrupted step is the latched command's. -/
theorem Uninterrupted.step_eq (h : Uninterrupted s) {i : Instr} (hl : latched s = some i) : step s = exec i (taken [] s) := by
  rw [step_of_engineTurn (.inl ⟨h.unscheduled, rfl⟩)]
  exact engineStep_of_latched h.engaged hl

/-- START, whose range checks may end the command. -/
theorem endsWithin_of_startChecked {checks : List Bool} {c : State} (h : step s = startChecked checks c (taken [] s))
    (hc : checks.any id = false → EndsWithin n c) : EndsWithin (n + 1) s := by
  cases hany : checks.any id with
  | true => exact endsWithin_of_finish (h.trans (startChecked_of_failing hany c))
  | false => exact endsWithin_of_step (h.trans (if_neg (by simp [hany]))) (hc hany)

end

/-! ### PACK, UNPACK and CHECK -/

section
variable {s : State} (hu : Uninterrupted s)
include hu

theorem endsWithin_of_pack (hl : latched s = some .pack) (hp : s.phase = .pack) (hlen : MsgLenLegal s) : EndsWithin 1 s :=
  endsWithin_of_finish ((hu.step_eq hl).trans ((exec_pack_of_pack (s := taken [] s) hu.engaged hp).trans (packStep_of_legal hlen)))

theorem endsWithin_of_unpack (hl : latched s = some .unpack) (hp : s.phase = .unpack) (hbits : FrameBitsLegal s) : EndsWithin 1 s := by
  obtain ⟨t, ht⟩ := unpackStep_answers (s := taken [] s) hbits
  have hstep : step s = .next t := (hu.step_eq hl).trans ((exec_unpack_of_unpack (s := taken [] s) hu.engaged hp).trans ht)
  obtain ⟨-, rfl⟩ | ⟨-, -, rfl⟩ | ⟨-, -, rfl⟩ := unpackStep_next ht <;> exact endsWithin_of_finish hstep

theorem endsWithin_of_check (hl : latched s = some .check) (hp : s.phase = .capCheck) : EndsWithin 1 s :=
  endsWithin_of_finish ((hu.step_eq hl).trans (exec_check_of_capCheck (s := taken [] s) hu.engaged hp))

end

/-! ### EMBED -/

section
variable {s : State}

theorem exec_embed_of_writePhase (he : Engaged s) {b : Nat} (hp : s.phase = writePhase b) : exec .embed s = writeBitStep s := by
  unfold writePhase at hp
  split at hp
  · exact exec_embed_of_writeHeader he hp
  · exact exec_embed_of_writePayload he hp

/-- A WRITE step ends the command with a bus error, or its accesses complete (spec/43_embedder.md R173, R178). -/
theorem step_of_writing (hu : Uninterrupted s) (hemb : Embedding s) (hp : s.phase = writePhase s.cursor) :
    (∃ u, step s = .next (finish .busError u)) ∨
      ∃ log, step s =
        .next (writeBitDone (byteAddr s s.cursor) (embeddedByte s s.cursor) { s with inputs := [], portLog := log }) := by
  obtain ⟨hl, hlt, hfit, -, hbits, hreg⟩ := hemb
  have ha : byteAddr s s.cursor < s.params.carrierSize := byteAddr_lt_carrierSize hreg (Nat.lt_of_lt_of_le hlt hfit)
  obtain ⟨t, ht⟩ := writeBitStep_answers (s := taken [] s) (by simp only; omega) ha
  have hstep : step s = .next t := (hu.step_eq hl).trans ((exec_embed_of_writePhase (s := taken [] s) hu.engaged hp).trans ht)
  obtain ⟨-, -, ⟨-, rfl⟩ | ⟨-, rfl⟩ | ⟨-, rfl⟩⟩ := writeBitStep_next ht
  · exact .inl ⟨_, hstep⟩
  · exact .inl ⟨_, hstep⟩
  · exact .inr ⟨_, hstep⟩

/-- With `n + 1` bits left to write, EMBED ends within `n + 1` steps. -/
theorem endsWithin_of_writing {n : Nat} (hu : Uninterrupted s) (hemb : Embedding s) (hp : s.phase = writePhase s.cursor)
    (hn : s.cursor + n + 1 = s.frameBits.toNat) : EndsWithin (n + 1) s := by
  induction n generalizing s with
  | zero =>
    obtain ⟨u, hstep⟩ | ⟨log, hstep⟩ := step_of_writing hu hemb hp
    · exact endsWithin_of_finish hstep
    · exact endsWithin_of_finish (hstep.trans (congrArg _ (if_pos hn)))
  | succ n ih =>
    obtain ⟨u, hstep⟩ | ⟨log, hstep⟩ := step_of_writing hu hemb hp
    · exact endsWithin_of_finish hstep
    · have hmore : s.cursor + 1 ≠ s.frameBits.toNat := by omega
      have hlt : s.cursor + 1 < s.frameBits.toNat := by omega
      have hnext : s.cursor + 1 + n + 1 = s.frameBits.toNat := by omega
      obtain ⟨hl, -, hlegal⟩ := hemb
      rw [writeBitDone_eq, if_neg hmore] at hstep
      exact endsWithin_of_step hstep (ih ⟨hu.engaged, rfl⟩ ⟨hl, hlt, hlegal⟩ rfl hnext)

/-- From CAP_CHECK on EMBED takes one step more than there are bits (spec/43_embedder.md R172). -/
theorem endsWithin_of_embedCapCheck (hu : Uninterrupted s) (hl : latched s = some .embed) (hp : s.phase = .capCheck) (hcur : s.cursor = 0)
    (hpix : PixelCountLegal s) (hbits : FrameBitsLegal s) (hreg : RegionLegal s) : EndsWithin (s.frameBits.toNat + 1) s := by
  have hstep := (hu.step_eq hl).trans (exec_embed_of_capCheck (s := taken [] s) hu.engaged hp)
  simp only [embedCapCheckStep] at hstep
  split at hstep
  · exact endsWithin_of_finish hstep
  · next hfit =>
    split at hstep
    · exact endsWithin_of_finish hstep
    · next hne =>
      obtain ⟨n, hn⟩ : ∃ n, s.frameBits.toNat = n + 1 := Nat.exists_eq_succ_of_ne_zero hne
      refine endsWithin_of_step hstep ?_
      rw [hn]
      refine endsWithin_of_writing ⟨hu.engaged, rfl⟩ ⟨hl, ?_, Nat.not_lt.1 hfit, hpix, hbits, hreg⟩ ?_ ?_
      · simp [hcur, hn]
      · simp [hcur, writePhase]
      · simp [hcur, hn]

end

/-! ### The header in SHIFT -/

/-- The number that the first `n` channel bits of the carrier make, most significant first. -/
def headerUpTo (s : State) (n : Nat) : Nat := ∑ i ∈ Finset.range n, (carrierBit s i).toNat * 2 ^ (n - 1 - i)

theorem headerUpTo_succ (s : State) (n : Nat) : headerUpTo s (n + 1) = 2 * headerUpTo s n + (carrierBit s n).toNat := by
  have hshift : ∀ i ∈ Finset.range n,
      (carrierBit s i).toNat * 2 ^ (n + 1 - 1 - i) = 2 * ((carrierBit s i).toNat * 2 ^ (n - 1 - i)) := by
    intro i hi
    have hexp : n + 1 - 1 - i = n - 1 - i + 1 := by
      have := Finset.mem_range.1 hi
      omega
    rw [hexp, pow_succ]
    ring
  rw [headerUpTo, Finset.sum_range_succ, Finset.sum_congr rfl hshift, ← Finset.mul_sum, headerUpTo]
  simp

theorem headerUpTo_lt (s : State) (n : Nat) : headerUpTo s n < 2 ^ n := by
  induction n with
  | zero => simp [headerUpTo]
  | succ n ih =>
    have hbit := (carrierBit s n).toNat_le
    rw [headerUpTo_succ, pow_succ]
    omega

theorem headerUpTo_full (s : State) : headerUpTo s 32 = carrierHeader s := rfl

/-- SHIFT's update as a number, where no bit is shifted out (spec/44_extractor.md R192). -/
theorem toNat_shiftIn {x : Word} (hx : x.toNat < 2 ^ 31) (v : Bool) : (shiftIn x v).toNat = 2 * x.toNat + v.toNat := by
  have hbit : (bitByte v).toNat = v.toNat := by cases v <;> rfl
  have hlt : v.toNat < 2 ^ 1 := v.toNat_lt
  have hdouble : x.toNat <<< 1 % 2 ^ 32 = x.toNat <<< 1 := Nat.mod_eq_of_lt (by rw [Nat.shiftLeft_eq]; omega)
  have hwide : (bitByte v).toNat % 2 ^ 32 = v.toNat := by rw [hbit, Nat.mod_eq_of_lt (by omega)]
  rw [shiftIn, BitVec.toNat_or, BitVec.toNat_shiftLeft, BitVec.toNat_setWidth, hdouble, hwide, ← Nat.shiftLeft_add_eq_or_of_lt hlt,
    Nat.shiftLeft_eq]
  omega

/-- SHIFT holds the header bits below CURSOR (spec/10_state.md R56). -/
def ShiftHoldsHeader (s : State) : Prop := s.shift.toNat = headerUpTo s s.cursor

/-- The state after a READ_HEADER step has taken its bit (spec/44_extractor.md R192), with its accesses in `log`. -/
def headerBitTaken (log : List Access) (s : State) : State :=
  { s with
    inputs := [], portLog := log, shift := shiftIn s.shift (carrierBit s s.cursor), cursor := s.cursor + 1
    phase := if s.cursor + 1 = 32 then .validateLength else .readHeader }

theorem headerUpTo_headerBitTaken (log : List Access) (s : State) (n : Nat) :
    headerUpTo (headerBitTaken log s) n = headerUpTo s n := rfl

theorem ShiftHoldsHeader.headerBitTaken {s : State} (h : ShiftHoldsHeader s) (hcur : s.cursor < 32) (log : List Access) :
    ShiftHoldsHeader (headerBitTaken log s) := by
  have hlt : s.shift.toNat < 2 ^ 31 := by
    rw [h]
    exact (headerUpTo_lt s s.cursor).trans_le (Nat.pow_le_pow_right (by decide) (by omega))
  exact (toNat_shiftIn hlt _).trans (by rw [h, ← headerUpTo_succ]; rfl)

/-! ### EXTRACT -/

/-- How many steps EXTRACT takes at most from VALIDATE_LENGTH on, for a header `l`: that one, a payload bit each, and DECODE. -/
def validateBound (s : State) (l : Nat) : Nat := if headerValid s l then l + 2 else 1

/-- That number for the header that the carrier holds. -/
def headerBound (s : State) : Nat := validateBound s (carrierHeader s)

theorem validateBound_headerBitTaken (log : List Access) (s : State) (l : Nat) :
    validateBound (headerBitTaken log s) l = validateBound s l := rfl

section
variable {s : State}

theorem endsWithin_of_decode (hu : Uninterrupted s) (hl : latched s = some .extract) (hp : s.phase = .decode) : EndsWithin 1 s :=
  endsWithin_of_finish ((hu.step_eq hl).trans (exec_extract_of_decode (s := taken [] s) hu.engaged hp))

/-- A READ_PAYLOAD step ends the command with a bus error, or takes a bit (spec/44_extractor.md R195, R201). -/
theorem step_of_readPayload (hu : Uninterrupted s) (hp : s.phase = .readPayload) (hrun : Running s) :
    (∃ u, step s = .next (finish .busError u)) ∨
      ∃ t, step s = .next t ∧ Uninterrupted t ∧ Extracting t ∧ HeaderAccepted t ∧ t.cursor = s.cursor + 1 ∧
        t.shift.toNat = s.shift.toNat ∧ t.phase = if s.cursor - 32 + 1 = s.shift.toNat then .decode else .readPayload := by
  obtain ⟨hext, hacc, hlo, hhi⟩ := (running_of_readPayload hp).1 hrun
  have ⟨hl, _, _, hreg⟩ := hext
  have ⟨_, _, hfit, hsize⟩ := hacc
  have ha : byteAddr s s.cursor < s.params.carrierSize := byteAddr_lt_carrierSize hreg (Nat.lt_of_lt_of_le hhi hfit)
  have hr : PayloadByteFits s := by simp only [PayloadByteFits]; omega
  have hstep := (hu.step_eq hl).trans (exec_extract_of_readPayload (s := taken [] s) hu.engaged hp)
  by_cases hport : s.port = .readError
  · exact .inl ⟨_, hstep.trans (readPayloadStep_of_readError (s := taken [] s) ha hr hport)⟩
  · refine .inr ⟨_, hstep.trans (readPayloadStep_of_answered (s := taken [] s) ha hr hport), ?_⟩
    exact ⟨{ hu with unscheduled := rfl }, hext, hacc, rfl, rfl, by rw [← hp]; rfl⟩

/-- With `n + 1` payload bits left, EXTRACT ends within `n + 2` steps. -/
theorem endsWithin_of_readPayload {n : Nat} (hu : Uninterrupted s) (hp : s.phase = .readPayload) (hrun : Running s)
    (hn : s.cursor + n + 1 = 32 + s.shift.toNat) : EndsWithin (n + 2) s := by
  induction n generalizing s with
  | zero =>
    obtain ⟨u, hstep⟩ | ⟨t, hstep, hu', hext', -, -, -, hphase⟩ := step_of_readPayload hu hp hrun
    · exact endsWithin_of_finish hstep
    · obtain ⟨-, -, hlo, -⟩ := (running_of_readPayload hp).1 hrun
      rw [if_pos (by omega)] at hphase
      exact endsWithin_of_step hstep (endsWithin_of_decode hu' hext'.1 hphase)
  | succ n ih =>
    obtain ⟨u, hstep⟩ | ⟨t, hstep, hu', hext', hacc', hcur, hshift, hphase⟩ := step_of_readPayload hu hp hrun
    · exact endsWithin_of_finish hstep
    · obtain ⟨-, -, hlo, -⟩ := (running_of_readPayload hp).1 hrun
      rw [if_neg (by omega)] at hphase
      have hrun' : Running t := (running_of_readPayload hphase).2 ⟨hext', hacc', by omega, by omega⟩
      exact endsWithin_of_step hstep (ih hu' hphase hrun' (by omega))

/-- VALIDATE_LENGTH rejects the header in SHIFT, or its payload bits come next (spec/44_extractor.md R193). -/
theorem endsWithin_of_validateLength (hu : Uninterrupted s) (hp : s.phase = .validateLength) (hrun : Running s) :
    EndsWithin (validateBound s s.shift.toNat) s := by
  obtain ⟨hext, hcur⟩ := (running_of_validateLength hp).1 hrun
  have hstep := (hu.step_eq hext.1).trans (exec_extract_of_validateLength (s := taken [] s) hu.engaged hp)
  cases hvalid : headerValid s s.shift.toNat with
  | false =>
    rw [validateBound, hvalid]
    exact endsWithin_of_finish (hstep.trans (if_pos hvalid))
  | true =>
    obtain ⟨hpos, hfit⟩ : 0 < s.shift.toNat ∧ 32 + s.shift.toNat ≤ cap s := of_decide_eq_true hvalid
    rw [validateBound, if_pos hvalid]
    replace hstep := hstep.trans (if_neg (by rw [show headerValid (taken [] s) _ = true from hvalid]; decide))
    split at hstep
    · exact endsWithin_of_finish hstep
    · next hsize =>
      replace hstep : step s =
          .next { s with inputs := [], portLog := [], hdrLen := s.shift, acc := 0#8, phase := .readPayload } := hstep
      obtain ⟨n, hn⟩ : ∃ n, s.shift.toNat = n + 1 := Nat.exists_eq_succ_of_ne_zero hpos.ne'
      have hnext : s.cursor + n + 1 = 32 + s.shift.toNat := by omega
      rw [hn]
      refine endsWithin_of_step hstep (endsWithin_of_readPayload ⟨hu.engaged, rfl⟩ rfl ((running_of_readPayload rfl).2 ?_) hnext)
      exact ⟨hext, ⟨rfl, hpos, hfit, Nat.not_lt.1 hsize⟩, hcur.ge, by simp [hcur, hpos]⟩

/-- A READ_HEADER step ends the command with a bus error, or takes a header bit (spec/44_extractor.md R192, R201). -/
theorem step_of_readHeader (hu : Uninterrupted s) (hp : s.phase = .readHeader) (hrun : Running s) :
    (∃ u, step s = .next (finish .busError u)) ∨ ∃ log, step s = .next (headerBitTaken log s) := by
  obtain ⟨⟨hl, hcap, -, hreg⟩, hcur⟩ := (running_of_readHeader hp).1 hrun
  have ha : byteAddr s s.cursor < s.params.carrierSize := byteAddr_lt_carrierSize hreg (Nat.lt_of_lt_of_le hcur hcap)
  have hstep := (hu.step_eq hl).trans (exec_extract_of_readHeader (s := taken [] s) hu.engaged hp)
  by_cases hport : s.port = .readError
  · exact .inl ⟨_, hstep.trans (readHeaderStep_of_readError (s := taken [] s) ha hport)⟩
  · refine .inr ⟨[.read (byteAddr s s.cursor)], hstep.trans ((readHeaderStep_of_answered (s := taken [] s) ha hport).trans ?_)⟩
    rw [headerBitTaken, ← hp]
    dsimp only
    split <;> rfl

/-- With `n + 1` header bits left, EXTRACT takes that many steps and then those of the header in the carrier. -/
theorem endsWithin_of_readHeader {n b : Nat} (hu : Uninterrupted s) (hp : s.phase = .readHeader) (hrun : Running s)
    (hshift : ShiftHoldsHeader s) (hb : headerBound s = b) (hn : s.cursor + n + 1 = 32) : EndsWithin (b + n + 1) s := by
  induction n generalizing s with
  | zero =>
    obtain ⟨u, hstep⟩ | ⟨log, hstep⟩ := step_of_readHeader hu hp hrun
    · exact endsWithin_of_finish hstep
    · obtain ⟨hext, hcur⟩ := (running_of_readHeader hp).1 hrun
      have hphase : (headerBitTaken log s).phase = .validateLength := if_pos hn
      have hend := endsWithin_of_validateLength (s := headerBitTaken log s) ⟨hu.engaged, rfl⟩ hphase
        ((running_of_validateLength hphase).2 ⟨hext, hn⟩)
      have hfull : (headerBitTaken log s).cursor = 32 := hn
      have hheader : (headerBitTaken log s).shift.toNat = carrierHeader s := by
        rw [hshift.headerBitTaken hcur log, hfull, headerUpTo_headerBitTaken, headerUpTo_full]
      rw [hheader, validateBound_headerBitTaken, ← headerBound, hb] at hend
      exact endsWithin_of_step hstep hend
  | succ n ih =>
    obtain ⟨u, hstep⟩ | ⟨log, hstep⟩ := step_of_readHeader hu hp hrun
    · exact endsWithin_of_finish hstep
    · obtain ⟨hext, hcur⟩ := (running_of_readHeader hp).1 hrun
      have hphase : (headerBitTaken log s).phase = .readHeader := if_neg (by omega)
      have hnext : s.cursor + 1 + n + 1 = 32 := by omega
      have hrun' := (running_of_readHeader hphase).2 ⟨hext, by simp only [headerBitTaken]; omega⟩
      exact endsWithin_of_step hstep (ih ⟨hu.engaged, rfl⟩ hphase hrun' (hshift.headerBitTaken hcur log) hb hnext)

end

/-! ### Every command from START -/

section
variable {s : State} (hu : Uninterrupted s)
include hu

/-- EXTRACT's START continuation: too few bits for a header, or the 32 header bits come next (spec/44_extractor.md R191). -/
theorem endsWithin_of_extractContinuation (hcur : s.cursor = 0) (hl : latched s = some .extract) (hpix : PixelCountLegal s)
    (hreg : RegionLegal s) : EndsWithin (headerBound s + 32) (extractContinuation (taken [] s)) := by
  unfold extractContinuation
  split
  · exact endsWithin_finish _ _
  · next hcap =>
    change EndsWithin _ { s with inputs := [], portLog := [], shift := 0#32, phase := .readHeader }
    have hext : Extracting s := ⟨hl, Nat.not_lt.1 hcap, hpix, hreg⟩
    refine endsWithin_of_readHeader (n := 31) ⟨hu.engaged, rfl⟩ rfl ((running_of_readHeader rfl).2 ⟨hext, ?_⟩) ?_ rfl ?_
    · simp [hcur]
    · simp [ShiftHoldsHeader, hcur, headerUpTo]
    · simp [hcur]

/-- The latched command's START, and what its phases take after it (spec/40_command.md R127). -/
theorem endsWithin_stepBound_of_latched (hp : s.phase = .start) (hcur : s.cursor = 0) {i : Instr} (hl : latched s = some i) :
    EndsWithin (stepBound s) s := by
  have he : Engaged (taken [] s) := hu.engaged
  have hstep := hu.step_eq hl
  cases i with
  | nop =>
    simp only [stepBound, hl]
    exact endsWithin_of_finish (hstep.trans (exec_nop_of_start he hp))
  | pack =>
    simp only [stepBound, hl]
    refine endsWithin_of_startChecked (hstep.trans (exec_pack_of_start he hp)) fun hpass => ?_
    exact endsWithin_of_pack { hu with unscheduled := rfl } hl rfl (by simpa using hpass)
  | unpack =>
    simp only [stepBound, hl]
    refine endsWithin_of_startChecked (hstep.trans (exec_unpack_of_start he hp)) fun hpass => ?_
    exact endsWithin_of_unpack { hu with unscheduled := rfl } hl rfl (by simpa using hpass)
  | check =>
    simp only [stepBound, hl]
    refine endsWithin_of_startChecked (hstep.trans (exec_check_of_start he hp)) fun _ => ?_
    exact endsWithin_of_check { hu with unscheduled := rfl } hl rfl
  | embed =>
    simp only [stepBound, hl]
    rw [Nat.add_comm]
    refine endsWithin_of_startChecked (hstep.trans (exec_embed_of_start he hp)) fun hpass => ?_
    obtain ⟨hpix, hbits, hreg⟩ : PixelCountLegal s ∧ FrameBitsLegal s ∧ RegionLegal (taken [] s) := by simpa using hpass
    exact endsWithin_of_embedCapCheck (s := enterPhase .capCheck (taken [] s)) { hu with unscheduled := rfl } hl rfl hcur hpix hbits hreg
  | extract =>
    simp only [stepBound, hl]
    have hend : EndsWithin (headerBound s + 33) s := by
      refine endsWithin_of_startChecked (hstep.trans (exec_extract_of_start he hp)) fun hpass => ?_
      obtain ⟨hpix, hreg⟩ : PixelCountLegal s ∧ RegionLegal (taken [] s) := by simpa using hpass
      exact endsWithin_of_extractContinuation hu hcur hl hpix hreg
    refine hend.mono ?_
    unfold headerBound validateBound
    split <;> omega
  | rd offset size => exact absurd (latched_isCommand hl) (by simp [Instr.isCommand])
  | wr offset size wdata => exact absurd (latched_isCommand hl) (by simp [Instr.isCommand])

theorem endsWithin_stepBound_of_illegal (hp : s.phase = .start) (hl : latched s = none) : EndsWithin (stepBound s) s := by
  have he : Engaged (taken [] s) := hu.engaged
  have hstep : step s = execIllegal (taken [] s) :=
    (step_of_engineTurn (.inl ⟨hu.unscheduled, rfl⟩)).trans (engineStep_of_illegal he hl)
  simp only [stepBound, hl]
  exact endsWithin_of_finish (hstep.trans (execIllegal_of_start he hp))

end

/-- Settles O58: START of every command, and of an illegal word, ends within the bound. -/
theorem commandsFinishWithinTheStepBound : Obligations.CommandsFinishWithinTheStepBound := by
  intro s he hp hcur hin
  have hu : Uninterrupted s := ⟨he, hin⟩
  cases hl : latched s with
  | some i => exact endsWithin_stepBound_of_latched hu hp hcur hl
  | none => exact endsWithin_stepBound_of_illegal hu hp hl

end Sys2Proof.Machine
end

section
/-!
PROOF. START of the commands whose range checks pass (spec/40_command.md R124), UNPACK's step in its three outcomes (spec/41_framer.md
R147), and the round trip of PACK and UNPACK (R149, R150), run from the acceptance of each command's word.
-/

namespace Sys2Proof.Machine

/-! ### START with passing checks -/

/-- START goes on as the command says where no check fails (spec/40_command.md R124). -/
theorem startChecked_of_passing {checks : List Bool} (h : checks.any id = false) (c s : State) : startChecked checks c s = .next c :=
  if_neg (by simp [h])

section
variable {s : State}

theorem extractContinuation_of_small (h : cap s < 32) : extractContinuation s = finish .absent s := if_pos h

theorem extractContinuation_of_large (h : 32 ≤ cap s) : extractContinuation s = enterPhase .readHeader (clearShift s) :=
  if_neg (Nat.not_lt.2 h)

section
variable (he : Engaged s) (hp : s.phase = .start)
include he hp

theorem exec_pack_of_passing (hlen : MsgLenLegal s) : exec .pack s = .next (enterPhase .pack s) := by
  rw [exec_pack_of_start he hp]
  exact startChecked_of_passing (by simpa using hlen) _ s

theorem exec_unpack_of_passing (hbits : FrameBitsLegal s) : exec .unpack s = .next (enterPhase .unpack s) := by
  rw [exec_unpack_of_start he hp]
  exact startChecked_of_passing (by simpa using hbits) _ s

theorem exec_check_of_passing (hpix : PixelCountLegal s) (hbits : FrameBitsLegal s) :
    exec .check s = .next (enterPhase .capCheck s) := by
  rw [exec_check_of_start he hp]
  exact startChecked_of_passing (by simpa using ⟨hpix, hbits⟩) _ s

theorem exec_embed_of_passing (hpix : PixelCountLegal s) (hbits : FrameBitsLegal s) (hreg : RegionLegal s) :
    exec .embed s = .next (enterPhase .capCheck s) := by
  rw [exec_embed_of_start he hp]
  exact startChecked_of_passing (by simpa using ⟨hpix, hbits, hreg⟩) _ s

theorem exec_extract_of_passing (hpix : PixelCountLegal s) (hreg : RegionLegal s) :
    exec .extract s = .next (extractContinuation s) := by
  rw [exec_extract_of_start he hp]
  exact startChecked_of_passing (by simpa using ⟨hpix, hreg⟩) _ s

end

end

/-- Settles O10: START is each command's continuation, and EXTRACT's depends on whether the carrier holds a header's 32 bits. -/
theorem startContinuations : Obligations.StartContinuations := by
  intro s he hp
  refine ⟨exec_pack_of_passing he hp, exec_unpack_of_passing he hp, exec_check_of_passing he hp, exec_embed_of_passing he hp, ?_, ?_⟩
  · intro hpix hreg hsmall
    rw [exec_extract_of_passing he hp hpix hreg, extractContinuation_of_small hsmall]
    rfl
  · intro hpix hreg hlarge
    rw [exec_extract_of_passing he hp hpix hreg, extractContinuation_of_large hlarge]
    rfl

/-! ### The UNPACK step -/

/-- The message that the UNPACK step copies out of the frame (spec/41_framer.md R147). -/
theorem readMsg_unpackedMessage_message (source s : State) {n j : Nat} (hj : j < n) :
    readMsg (unpackedMessage source n s) j = readFrame source (4 + j) := by
  have hfill := Memory.get?_fill s.msg 0 (fun j => readFrame source (4 + j)) hj
  rw [Nat.zero_add] at hfill
  simp [readMsg, hfill]

section
variable {s : State}

theorem unpackStep_of_no_header (h : s.frameBits.toNat < 32) : unpackStep s = .next (finish .short s) := if_pos h

theorem unpackStep_of_short_payload (hhdr : 32 ≤ s.frameBits.toNat) (h : s.frameBits.toNat < 32 + (frameHeader s).toNat) :
    unpackStep s = .next (finish .short (setHdrLen (frameHeader s) s)) := by
  simp [unpackStep, Nat.not_lt.2 hhdr, h]

/-- A payload that lies within a frame that fits FRAME RAM fits MSG RAM (spec/00_scope.md R9). -/
theorem payload_fits_msg (hbits : FrameBitsLegal s) {l : Nat} (h : 32 + l ≤ s.frameBits.toNat) : l / 8 ≤ s.params.msgCap := by
  have hcap : s.params.frameCap = s.params.msgCap + 4 := rfl
  omega

theorem unpackStep_of_whole_payload (hbits : FrameBitsLegal s) (h : 32 + (frameHeader s).toNat ≤ s.frameBits.toNat) :
    unpackStep s = .next (finish .ok (unpackedMessage s ((frameHeader s).toNat / 8) (setHdrLen (frameHeader s) s))) := by
  have hhdr : ¬ s.frameBits.toNat < 32 := by omega
  have hfit := payload_fits_msg hbits h
  simp [unpackStep, hhdr, Nat.not_lt.2 h, Nat.not_lt.2 hfit]

end

/-- Settles O16: the header is R147's sum of its four bytes, and FRAME_BITS against 32 and 32 + L selects the outcome. -/
theorem unpackRecoversTheMessage : Obligations.UnpackRecoversTheMessage := by
  intro s _ he hp hbits l
  have hl : (frameHeader s).toNat = l := be32_toNat _ _ _ _
  have hhdr : BitVec.ofNat 32 l = frameHeader s := by rw [← hl, BitVec.ofNat_toNat, BitVec.setWidth_eq]
  rw [hhdr, exec_unpack_of_unpack he hp, ← hl]
  refine ⟨unpackStep_of_no_header, unpackStep_of_short_payload, fun hwhole => ⟨payload_fits_msg hbits hwhole, _,
    unpackStep_of_whole_payload hbits hwhole, ?_, ?_, rfl⟩⟩
  · intro j hj
    exact readMsg_unpackedMessage_message s _ hj
  · intro j hj
    exact readMsg_unpackedMessage_rest s hj

/-! ### A command of two steps -/

/-- The state in which an accepted command takes its second step: START has entered the command's own phase. -/
def started (w : Word) (p : Phase) (s : State) : State := enterPhase p (taken [] (accept w s))

/-- The state in which a PACK that passes its check ends (spec/41_framer.md R141, R142). -/
def packEnd (s : State) : State := finish .ok (packMessage s.msgLen.toNat (started 0x1#32 .pack s))

/-- The state in which an UNPACK of a whole frame ends (spec/41_framer.md R146, R147). -/
def unpackEnd (s : State) : State :=
  finish .ok (unpackedMessage s ((frameHeader s).toNat / 8) (setHdrLen (frameHeader s) (started 0x2#32 .unpack s)))

theorem run_two_of_steps {s t u : State} (hst : step s = .next t) (htu : step t = .next u) : run 2 s = .next u := by
  rw [run_succ_of_step hst, run_succ_of_step htu]
  rfl

section
variable {s : State} (hq : Quiet s)
include hq

theorem engaged_started (w : Word) (p : Phase) : Engaged (started w p s) := ⟨rfl, hq.2.2⟩

/-- In a quiet state an accepted command runs as its START and then the step of the phase that START enters. -/
theorem run_two_of_accept {i : Instr} {w : Word} {p : Phase} {u : State} (henc : encode i = .cmd w)
    (hstart : exec i (taken [] (accept w s)) = .next (started w p s)) (hphase : exec i (started w p s) = .next u) :
    run 2 (accept w s) = .next u := by
  have hl : latched (accept w s) = some i := latched_accept_encode s henc
  have hstarted : Uninterrupted (started w p s) := ⟨engaged_started hq w p, rfl⟩
  have haccept : Uninterrupted (accept w s) := ⟨⟨rfl, hq.2.2⟩, hq.1⟩
  exact run_two_of_steps ((haccept.step_eq hl).trans hstart) ((hstarted.step_eq hl).trans hphase)

theorem run_pack (hlen : MsgLenLegal s) : run 2 (accept 0x1#32 s) = .next (packEnd s) :=
  run_two_of_accept hq (i := .pack) rfl (exec_pack_of_passing ⟨rfl, hq.2.2⟩ rfl hlen)
    ((exec_pack_of_pack (engaged_started hq _ _) rfl).trans (packStep_of_legal hlen))

theorem run_unpack (hbits : FrameBitsLegal s) (hwhole : 32 + (frameHeader s).toNat ≤ s.frameBits.toNat) :
    run 2 (accept 0x2#32 s) = .next (unpackEnd s) :=
  run_two_of_accept hq (i := .unpack) rfl (exec_unpack_of_passing ⟨rfl, hq.2.2⟩ rfl hbits)
    ((exec_unpack_of_unpack (engaged_started hq _ _) rfl).trans
      (unpackStep_of_whole_payload (s := started 0x2#32 .unpack s) hbits hwhole))

end

/-! ### The round trip -/

/-- BE32 of a header's four bytes is the header (spec/20_memory.md R81). -/
theorem be32_headerByte (l : Word) : be32 (headerByte l 0) (headerByte l 1) (headerByte l 2) (headerByte l 3) = l := by
  apply BitVec.eq_of_toNat_eq
  have hl : l.toNat < 2 ^ 32 := l.isLt
  simp only [be32_toNat, toNat_headerByte]
  omega

/-- The header that PACK writes is the message's length in bits (spec/41_framer.md R142). -/
theorem frameHeader_packMessage (n : Nat) (s : State) : frameHeader (packMessage n s) = BitVec.ofNat 32 (8 * n) := by
  simp only [frameHeader, readFrame_packMessage_header, Nat.reduceLT, be32_headerByte]

section
variable {s : State}

theorem toNat_frameHeader_packEnd (hfit : 32 + 8 * s.msgLen.toNat < 2 ^ 32) :
    (frameHeader (packEnd s)).toNat = 8 * s.msgLen.toNat := by
  have heq : frameHeader (packEnd s) = BitVec.ofNat 32 (8 * s.msgLen.toNat) := frameHeader_packMessage _ _
  rw [heq, BitVec.toNat_ofNat, Nat.mod_eq_of_lt (by omega)]

theorem toNat_frameBits_packEnd (hfit : 32 + 8 * s.msgLen.toNat < 2 ^ 32) :
    (packEnd s).frameBits.toNat = 32 + 8 * s.msgLen.toNat := packedFrameBits_toNat hfit

/-- The frame of a message that fits MSG RAM passes UNPACK's range check (spec/00_scope.md R9). -/
theorem frameBitsLegal_packEnd (hlen : MsgLenLegal s) (hfit : 32 + 8 * s.msgLen.toNat < 2 ^ 32) : FrameBitsLegal (packEnd s) := by
  have hcap : (packEnd s).params.frameCap = s.params.msgCap + 4 := rfl
  have hbits := toNat_frameBits_packEnd hfit
  omega

theorem readFrame_packEnd_message {i : Nat} (hi : i < s.msgLen.toNat) : readFrame (packEnd s) (4 + i) = readMsg s i :=
  readFrame_packMessage_message _ hi

theorem readMsg_unpackEnd {j : Nat} (hj : j < (frameHeader s).toNat / 8) : readMsg (unpackEnd s) j = readFrame s (4 + j) :=
  readMsg_unpackedMessage_message s _ hj

end

/-- Settles O17: PACK leaves L = 8n in the frame's header and 32 + 8n in FRAME_BITS, so UNPACK accepts the frame and copies n bytes back. -/
theorem framingRoundTrip : Obligations.FramingRoundTrip := by
  intro s _ hq hlen hlegal
  have hfit : 32 + 8 * s.msgLen.toNat < 2 ^ 32 := hlegal.elim (frameBits_fit_of_legal · hlen) id
  have hhdr := toNat_frameHeader_packEnd hfit
  have hframe : (packEnd s).frameBits.toNat = 32 + (frameHeader (packEnd s)).toNat := by rw [hhdr, toNat_frameBits_packEnd hfit]
  have hn : (frameHeader (packEnd s)).toNat / 8 = s.msgLen.toNat := by omega
  have hlength : (unpackEnd (packEnd s)).msgLen = s.msgLen := by
    change BitVec.ofNat 32 ((frameHeader (packEnd s)).toNat / 8) = s.msgLen
    rw [hn, BitVec.ofNat_toNat, BitVec.setWidth_eq]
  have hbytes : ∀ i, i < s.msgLen.toNat → readMsg (unpackEnd (packEnd s)) i = readMsg s i := fun i hi =>
    (readMsg_unpackEnd (hn ▸ hi)).trans (readFrame_packEnd_message hi)
  exact ⟨packEnd s, unpackEnd (packEnd s), run_pack hq hlen, run_unpack ⟨rfl, hq.2⟩ (frameBitsLegal_packEnd hlen hfit) hframe.ge,
    ⟨rfl, rfl⟩, rfl, hframe, rfl, ⟨rfl, rfl⟩, rfl, hlength, hhdr, hframe, hbytes⟩

end Sys2Proof.Machine
end

section
/-!
PROOF. The CAP_CHECK step of CHECK in its two outcomes (spec/42_capacity.md R162).
-/

namespace Sys2Proof.Machine

theorem frameFits_iff (s : State) : frameFits s = true ↔ s.frameBits.toNat ≤ cap s := decide_eq_true_iff

section
variable {s : State} (he : Engaged s) (hp : s.phase = .capCheck)
include he hp

theorem exec_check_of_fitting (hfit : s.frameBits.toNat ≤ cap s) : exec .check s = .next (finish .ok s) := by
  rw [exec_check_of_capCheck he hp, if_pos ((frameFits_iff s).2 hfit)]

theorem exec_check_of_oversized (hover : cap s < s.frameBits.toNat) : exec .check s = .next (finish .capacity s) := by
  rw [exec_check_of_capCheck he hp, if_neg (mt (frameFits_iff s).1 (Nat.not_le.2 hover))]

end

/-- Settles O19: whether the frame fits the carrier, the limit included, selects the code with which CHECK finishes. -/
theorem checkComparesWithCapacity : Obligations.CheckComparesWithCapacity :=
  fun _ he hp => ⟨exec_check_of_fitting he hp, exec_check_of_oversized he hp⟩

end Sys2Proof.Machine
end

section
/-!
PROOF. EMBED (spec/43_embedder.md): the CAP_CHECK step in its outcomes (R172), the WRITE step in those of the carrier port (R173, R178), and
the whole command by induction on the bits written. `bitsWritten` is the state between two WRITE steps; the bytes of different bits are
different, so each step finds its byte as it was at acceptance.
-/

namespace Sys2Proof.Machine

/-! ### The CAP_CHECK step -/

section
variable {s : State} (he : Engaged s) (hp : s.phase = .capCheck)
include he hp

theorem exec_embed_of_oversized (hover : cap s < s.frameBits.toNat) : exec .embed s = .next (finish .capacity s) := by
  rw [exec_embed_of_capCheck he hp]
  exact if_pos hover

theorem exec_embed_of_empty (hzero : s.frameBits.toNat = 0) : exec .embed s = .next (finish .ok s) := by
  rw [exec_embed_of_capCheck he hp, embedCapCheckStep, if_neg (by omega), if_pos hzero]

theorem exec_embed_of_fitting (hpos : 0 < s.frameBits.toNat) (hfit : s.frameBits.toNat ≤ cap s) :
    exec .embed s = .next (enterPhase .writeHeader s) := by
  rw [exec_embed_of_capCheck he hp, embedCapCheckStep, if_neg (Nat.not_lt.2 hfit), if_neg hpos.ne']

end

/-- Settles O20: FRAME_BITS against CAP and against 0 selects among finish and the first WRITE phase. -/
theorem embedRefusesWhatDoesNotFit : Obligations.EmbedRefusesWhatDoesNotFit :=
  fun _ he hp => ⟨exec_embed_of_oversized he hp, exec_embed_of_empty he hp, exec_embed_of_fitting he hp⟩

/-! ### The WRITE step -/

/-- fbit by its byte and its place in the byte (spec/20_memory.md R80). -/
theorem fbit_eq (s : State) (b : Nat) : fbit s b = (readFrame s (b / 8)).getLsbD (7 - b % 8) := by
  simpa [Nat.div_add_mod] using fbit_eq_getLsbD s (b / 8) (Nat.mod_lt b (by decide : 0 < 8))

/-- A completed WRITE step as one record, the last bit's and any other's alike (spec/43_embedder.md R173). -/
theorem writeBitDone_eq_record (a : Nat) (v : Byte) {s : State} (hb : s.busy = true) :
    writeBitDone a v s = { s with
      carrier := (writeBitDone a v s).carrier, cursor := s.cursor + 1
      result := if s.cursor + 1 = s.frameBits.toNat then .ok else s.result
      done := if s.cursor + 1 = s.frameBits.toNat then true else s.done
      busy := if s.cursor + 1 = s.frameBits.toNat then false else true
      phase := if s.cursor + 1 = s.frameBits.toNat then .idle else writePhase (s.cursor + 1) } := by
  simp only [writeBitDone_eq]
  split
  · rfl
  · rw [← hb]

/-- The byte of a completed WRITE step. -/
theorem readCarrier_writeBitDone_self (a : Nat) (v : Byte) (s : State) : readCarrier (writeBitDone a v s) a = v := by
  rw [writeBitDone_eq]
  split <;> simp [readCarrier]

/-- A WRITE step of EMBED past its checks answers: its frame byte and its carrier byte exist. -/
theorem writeBitStep_answers_of_embedding {s : State} (h : Embedding s) : ∃ t, writeBitStep s = .next t := by
  obtain ⟨-, hlt, hfit, -, hbits, hreg⟩ := h
  exact writeBitStep_answers (by omega) (byteAddr_lt_carrierSize hreg (Nat.lt_of_lt_of_le hlt hfit))

/-- In either WRITE phase EMBED's step is the WRITE step (spec/43_embedder.md R170). -/
theorem exec_embed_of_writing {s : State} (he : Engaged s) (hp : s.phase = .writeHeader ∨ s.phase = .writePayload) :
    exec .embed s = writeBitStep s :=
  hp.elim (exec_embed_of_writeHeader he) (exec_embed_of_writePayload he)

/-- Settles O21: the port's response selects among the three outcomes of `writeBitStep_next`, and each has the record. -/
theorem writeStepEmbedsOneBit : Obligations.WriteStepEmbedsOneBit := by
  intro s he hp hemb b a v y
  have hy : embeddedByte s b = y := by simp only [embeddedByte, fbit_eq]; rfl
  obtain ⟨t, ht⟩ := writeBitStep_answers_of_embedding hemb
  refine ⟨t, (exec_embed_of_writing he hp).trans ht, (writeBitStep_embedFrame ht).1, ?_⟩
  obtain ⟨-, -, ⟨hport, rfl⟩ | ⟨hport, rfl⟩ | ⟨hport, rfl⟩⟩ := writeBitStep_next ht
  · exact ⟨by simp [hport], fun _ => rfl, by simp [hport]⟩
  · rw [logAccess_logAccess, hy]
    exact ⟨by simp [hport], by simp [hport], fun _ => ⟨readCarrier_writeCarrierDrawn_self _ _ _, rfl⟩⟩
  · rw [logAccess_logAccess, hy]
    exact ⟨fun _ => ⟨readCarrier_writeBitDone_self _ _ _, writeBitDone_eq_record _ _ he.1⟩, by simp [hport], by simp [hport]⟩

/-! ### An uninterrupted WRITE step -/

/-- A step that a bus error ended: finish with BUS_ERROR, and of the carrier only the byte at CURSOR was accessed
(spec/43_embedder.md R178). -/
structure BitFailed (s t : State) : Prop where
  ended : CommandEnd t
  result : t.result = .busError
  cursor : t.cursor = s.cursor
  other_kept : ∀ a, a ≠ byteAddr s s.cursor → readCarrier t a = readCarrier s a
  kept_of_readError : s.port = .readError → readCarrier t (byteAddr s s.cursor) = readCarrier s (byteAddr s s.cursor)
  old_or_new : readCarrier t (byteAddr s s.cursor) = readCarrier s (byteAddr s s.cursor) ∨
    readCarrier t (byteAddr s s.cursor) = embeddedByte s s.cursor
  log_at_cursor : ∀ e ∈ t.portLog, e.address = byteAddr s s.cursor

section
variable {s t : State}

theorem writeBitStep_bitFailed (hport : s.port ≠ .okay) (hlog : s.portLog = []) (h : writeBitStep s = .next t) : BitFailed s t := by
  have hother := (writeBitStep_embedFrame h).1
  obtain ⟨-, -, ⟨-, rfl⟩ | ⟨hw, rfl⟩ | ⟨hok, -⟩⟩ := writeBitStep_next h
  · exact ⟨⟨rfl, rfl⟩, rfl, rfl, hother, fun _ => rfl, .inl rfl, by simp [hlog, Access.address]⟩
  · exact ⟨⟨rfl, rfl⟩, rfl, rfl, hother, by simp [hw], (readCarrier_writeCarrierDrawn_self _ _ _).symm, by simp [hlog, Access.address]⟩
  · exact absurd hok hport

section
variable (hu : Uninterrupted s) (hemb : Embedding s) (hp : s.phase = writePhase s.cursor)
include hu hemb hp

/-- In a WRITE phase an uninterrupted step is the WRITE step. -/
theorem step_eq_writeBitStep : step s = writeBitStep (taken [] s) :=
  (hu.step_eq hemb.1).trans (exec_embed_of_writePhase (s := taken [] s) hu.engaged hp)

theorem step_of_failing_write (hport : s.port ≠ .okay) : ∃ t, step s = .next t ∧ BitFailed s t := by
  obtain ⟨t, ht⟩ := writeBitStep_answers_of_embedding (s := taken [] s) hemb
  exact ⟨t, (step_eq_writeBitStep hu hemb hp).trans ht, { writeBitStep_bitFailed (s := taken [] s) hport rfl ht with }⟩

theorem step_of_answered_write (hport : s.port = .okay) :
    ∃ log, step s =
      .next (writeBitDone (byteAddr s s.cursor) (embeddedByte s s.cursor) { s with inputs := [], portLog := log }) := by
  obtain ⟨t, ht⟩ := writeBitStep_answers_of_embedding (s := taken [] s) hemb
  have hstep := (step_eq_writeBitStep hu hemb hp).trans ht
  obtain ⟨-, -, ⟨hbad, -⟩ | ⟨hbad, -⟩ | ⟨-, rfl⟩⟩ := writeBitStep_next ht
  · simp [hport] at hbad
  · simp [hport] at hbad
  · exact ⟨_, hstep⟩

end

end

/-! ### The first bits of a frame, written -/

/-- The carrier of `s` with the first `n` bits of its frame written (spec/43_embedder.md R174). -/
def embeddedCarrier (s : State) : Nat → List Host.Cell
  | 0 => s.carrier
  | n + 1 => Memory.set (embeddedCarrier s n) (byteAddr s n) (embeddedByte s n)

/-- The state `s` with the first `n` bits of its frame written and CURSOR behind them, nothing scheduled and the last step's accesses in
`log`. -/
def bitsWritten (log : List Access) (n : Nat) (s : State) : State :=
  { s with carrier := embeddedCarrier s n, cursor := n, inputs := [], portLog := log }

/-- The state in which EMBED is about to write bit `n`. -/
def writingBit (log : List Access) (n : Nat) (s : State) : State := enterPhase (writePhase n) (bitsWritten log n s)

section
variable (log : List Access) (s : State)

theorem readCarrier_bitsWritten_succ_self (n : Nat) : readCarrier (bitsWritten log (n + 1) s) (byteAddr s n) = embeddedByte s n := by
  simp [readCarrier, bitsWritten, embeddedCarrier]

theorem readCarrier_bitsWritten_succ_of_ne {n a : Nat} (ha : a ≠ byteAddr s n) :
    readCarrier (bitsWritten log (n + 1) s) a = readCarrier (bitsWritten log n s) a := by
  simp [readCarrier, bitsWritten, embeddedCarrier, Memory.get?_set_of_ne _ _ ha]

/-- The byte of a bit that has been written. -/
theorem readCarrier_bitsWritten {n c : Nat} (hc : c < n) : readCarrier (bitsWritten log n s) (byteAddr s c) = embeddedByte s c := by
  induction n with
  | zero => omega
  | succ n ih =>
    by_cases hcn : c = n
    · rw [hcn, readCarrier_bitsWritten_succ_self]
    · rw [readCarrier_bitsWritten_succ_of_ne log s ((byteAddr_injective s).ne hcn), ih (by omega)]

/-- Any other byte is as it was. -/
theorem readCarrier_bitsWritten_of_ne {n a : Nat} (ha : ∀ c, c < n → a ≠ byteAddr s c) :
    readCarrier (bitsWritten log n s) a = readCarrier s a := by
  induction n with
  | zero => rfl
  | succ n ih =>
    rw [readCarrier_bitsWritten_succ_of_ne log s (ha n (Nat.lt_succ_self n))]
    exact ih fun c hc => ha c (Nat.lt_succ_of_lt hc)

/-- The byte of a bit not yet written is as it was. -/
theorem readCarrier_bitsWritten_of_le {n b : Nat} (hb : n ≤ b) :
    readCarrier (bitsWritten log n s) (byteAddr s b) = readCarrier s (byteAddr s b) :=
  readCarrier_bitsWritten_of_ne log s fun _ hc => (byteAddr_injective s).ne (by omega)

/-- The next bit's step writes what it would have written at acceptance. -/
theorem embeddedByte_writingBit (n : Nat) : embeddedByte (writingBit log n s) n = embeddedByte s n :=
  congrArg (replaceLsb · (fbit s n)) (readCarrier_bitsWritten_of_le log s (Nat.le_refl n))

/-- The state that completes bit `n`. -/
theorem writeBitDone_writingBit (log' : List Access) (n : Nat) :
    writeBitDone (byteAddr s n) (embeddedByte s n) { writingBit log n s with inputs := [], portLog := log' } =
      if n + 1 = s.frameBits.toNat then finish .ok (bitsWritten log' (n + 1) s) else writingBit log' (n + 1) s :=
  writeBitDone_eq _ _ _

end

/-! ### The command -/

/-- The word of an EMBED whose range checks pass, and whose frame fits the carrier, has just been accepted in a quiet environment. -/
structure FittingEmbed (s : State) : Prop where
  accepted : Accepted .embed s
  pixels : PixelCountLegal s
  bits : FrameBitsLegal s
  region : RegionLegal s
  fits : s.frameBits.toNat ≤ cap s

/-- A run that answers took a first step that answered. -/
theorem step_of_run_succ {k : Nat} {s t : State} (h : run (k + 1) s = .next t) : ∃ u, step s = .next u ∧ run k u = .next t := by
  change Host.Core.run core (k + 1) s = .next t at h
  simp only [Host.Core.run] at h
  split at h
  · next u hu => exact ⟨u, hu, h⟩
  · cases h
  · cases h

theorem run_succ_of_run {k : Nat} {s t u : State} (hst : run k s = .next t) (htu : step t = .next u) : run (k + 1) s = .next u := by
  induction k generalizing s with
  | zero =>
    cases hst
    exact run_succ_of_step htu 0
  | succ k ih =>
    obtain ⟨s', hs, hrun⟩ := step_of_run_succ hst
    rw [run_succ_of_step hs]
    exact ih hrun

namespace FittingEmbed

section
variable {s : State} (h : FittingEmbed s)
include h

theorem uninterrupted : Uninterrupted s := by
  obtain ⟨-, hb, -, -, hin, -, hr⟩ := h.accepted
  exact ⟨⟨hb, hr⟩, hin⟩

theorem latched_eq : latched s = some .embed := h.accepted.1

theorem port_eq : s.port = .okay := by
  obtain ⟨-, -, -, -, -, hport, -⟩ := h.accepted
  exact hport

/-- START passes its checks (spec/40_command.md R125). -/
theorem step_start : step s = .next (enterPhase .capCheck (bitsWritten [] 0 s)) := by
  obtain ⟨hl, -, hp, hcur, -⟩ := h.accepted
  have hstart : bitsWritten [] 0 s = taken [] s := by simp [bitsWritten, embeddedCarrier, hcur]
  rw [hstart, h.uninterrupted.step_eq hl]
  exact exec_embed_of_passing (s := taken [] s) h.uninterrupted.engaged hp h.pixels h.bits h.region

/-- The second step is EMBED's CAP_CHECK. -/
theorem step_capCheck :
    step (enterPhase .capCheck (bitsWritten [] 0 s)) = exec .embed (enterPhase .capCheck (bitsWritten [] 0 s)) :=
  Uninterrupted.step_eq (s := enterPhase .capCheck (bitsWritten [] 0 s)) ⟨h.uninterrupted.engaged, rfl⟩ h.latched_eq

theorem run_two_of_empty (hzero : s.frameBits.toNat = 0) : run 2 s = .next (finish .ok (bitsWritten [] 0 s)) :=
  run_two_of_steps h.step_start (h.step_capCheck.trans (exec_embed_of_empty h.uninterrupted.engaged rfl hzero))

theorem run_two_of_nonempty (hpos : 0 < s.frameBits.toNat) : run 2 s = .next (writingBit [] 0 s) :=
  run_two_of_steps h.step_start (h.step_capCheck.trans (exec_embed_of_fitting h.uninterrupted.engaged rfl hpos h.fits))

theorem embedding_writingBit (log : List Access) {n : Nat} (hn : n < s.frameBits.toNat) : Embedding (writingBit log n s) :=
  ⟨h.latched_eq, hn, h.fits, h.pixels, h.bits, h.region⟩

theorem uninterrupted_writingBit (log : List Access) (n : Nat) : Uninterrupted (writingBit log n s) := ⟨h.uninterrupted.engaged, rfl⟩

/-- The WRITE step of bit `n` (spec/43_embedder.md R173). -/
theorem step_writingBit (log : List Access) {n : Nat} (hn : n < s.frameBits.toNat) :
    ∃ log', step (writingBit log n s) =
      .next (if n + 1 = s.frameBits.toNat then finish .ok (bitsWritten log' (n + 1) s) else writingBit log' (n + 1) s) := by
  obtain ⟨log', hstep⟩ :=
    step_of_answered_write (h.uninterrupted_writingBit log n) (h.embedding_writingBit log hn) rfl h.port_eq
  refine ⟨log', hstep.trans (congrArg _ ?_)⟩
  rw [← writeBitDone_writingBit log s log' n, ← embeddedByte_writingBit log s n]
  rfl

/-- After START, CAP_CHECK and a WRITE step for each of the bits below it, bit `n` is next. -/
theorem run_writingBit {n : Nat} (hn : n < s.frameBits.toNat) : ∃ log, run (2 + n) s = .next (writingBit log n s) := by
  induction n with
  | zero => exact ⟨[], h.run_two_of_nonempty hn⟩
  | succ n ih =>
    obtain ⟨log, hrun⟩ := ih (by omega)
    obtain ⟨log', hstep⟩ := h.step_writingBit log (by omega : n < s.frameBits.toNat)
    rw [if_neg hn.ne] at hstep
    exact ⟨log', run_succ_of_run hrun hstep⟩

/-- The whole command, of an empty frame too, ends with every bit written. -/
theorem run_whole : ∃ log, run (2 + s.frameBits.toNat) s = .next (finish .ok (bitsWritten log s.frameBits.toNat s)) := by
  cases hn : s.frameBits.toNat with
  | zero => exact ⟨[], h.run_two_of_empty hn⟩
  | succ n =>
    have hlt : n < s.frameBits.toNat := by omega
    obtain ⟨log, hrun⟩ := h.run_writingBit hlt
    obtain ⟨log', hstep⟩ := h.step_writingBit log hlt
    rw [if_pos hn.symm] at hstep
    exact ⟨log', run_succ_of_run hrun hstep⟩

/-- A bus error at bit `n` leaves the state `bitsWritten` but for the byte of that bit (spec/43_embedder.md R178). -/
theorem step_writingBit_failed (log : List Access) {n : Nat} (hn : n < s.frameBits.toNat) {r : PortReply} (hr : r ≠ .okay) :
    ∃ t, step { writingBit log n s with port := r } = .next t ∧ BitFailed { writingBit log n s with port := r } t :=
  step_of_failing_write { h.uninterrupted_writingBit log n with } (h.embedding_writingBit log hn) rfl hr

end

end FittingEmbed

/-- Settles O23: bit `b` is next after 2 + b steps, and a failed WRITE step leaves every byte but that of bit `b` alone. -/
theorem embedBusErrorIsPrecise : Obligations.EmbedBusErrorIsPrecise := by
  intro s b hacc hpix hbits hreg hfit hb
  have h : FittingEmbed s := ⟨hacc, hpix, hbits, hreg, hfit⟩
  obtain ⟨log, hrun⟩ := h.run_writingBit hb
  refine ⟨_, hrun, fun r hr => ?_⟩
  obtain ⟨t, ht, hfail⟩ := h.step_writingBit_failed log hb hr
  have hother {a : Nat} (ha : a ≠ byteAddr s b) : readCarrier t a = readCarrier (bitsWritten log b s) a := hfail.other_kept a ha
  have hold := readCarrier_bitsWritten_of_le log s (Nat.le_refl b)
  refine ⟨t, ht, hfail.ended, hfail.result, hfail.cursor, fun c hc => ?_, fun hread => ?_, ?_, fun a ha => ?_, hfail.log_at_cursor⟩
  · exact (hother ((byteAddr_injective s).ne hc.ne)).trans (readCarrier_bitsWritten log s hc)
  · exact (hfail.kept_of_readError hread).trans hold
  · exact hfail.old_or_new.imp (·.trans hold) (·.trans (embeddedByte_writingBit log s b))
  · exact (hother (ha b (Nat.le_refl b))).trans (readCarrier_bitsWritten_of_ne log s fun c hc => ha c hc.le)

/-- Settles O24: the command ends in `bitsWritten` for the whole frame, whose bytes are known. -/
theorem embedWritesTheWholeFrame : Obligations.EmbedWritesTheWholeFrame := by
  intro s hacc hpix hbits hreg hfit
  have h : FittingEmbed s := ⟨hacc, hpix, hbits, hreg, hfit⟩
  obtain ⟨log, hrun⟩ := h.run_whole
  exact ⟨_, hrun, ⟨rfl, rfl⟩, rfl, rfl, fun _ hb => readCarrier_bitsWritten log s hb,
    fun _ ha => readCarrier_bitsWritten_of_ne log s ha, rfl, rfl, rfl, rfl, rfl⟩

end Sys2Proof.Machine
end

section
/-!
PROOF. Bits as numbers, most significant first: the sums of spec/44_extractor.md R199, what SHIFT and ACC make of their bits (R192, R195),
and the header and the message bytes of a frame as its bits (spec/20_memory.md R80, R81).
-/

namespace Sys2Proof.Machine

/-! ### Sums of bits -/

/-- The number that the bits `f 0, …, f (n − 1)` make, most significant first. -/
def bitsValue (f : Nat → Bool) (n : Nat) : Nat := ∑ i ∈ Finset.range n, (f i).toNat * 2 ^ (n - 1 - i)

section
variable (s : State)

theorem carrierHeader_eq : carrierHeader s = bitsValue (carrierBit s) 32 := rfl

theorem carrierPayloadByte_eq (j : Nat) : carrierPayloadByte s j = bitsValue (fun m => carrierBit s (32 + 8 * j + m)) 8 := rfl

theorem carrierHeader_lt : carrierHeader s < 2 ^ 32 := headerUpTo_lt s 32

end

section
variable {f g : Nat → Bool}

@[simp] theorem bitsValue_zero (f : Nat → Bool) : bitsValue f 0 = 0 := rfl

theorem bitsValue_congr {n : Nat} (h : ∀ i, i < n → f i = g i) : bitsValue f n = bitsValue g n :=
  Finset.sum_congr rfl fun i hi => by rw [h i (Finset.mem_range.1 hi)]

/-- The first `m` bits stand above the other `n`. -/
theorem bitsValue_add (f : Nat → Bool) (m n : Nat) :
    bitsValue f (m + n) = bitsValue f m * 2 ^ n + bitsValue (fun i => f (m + i)) n := by
  simp only [bitsValue, Finset.sum_range_add, Finset.sum_mul]
  congr 1 <;> refine Finset.sum_congr rfl fun i hi => ?_
  · have hexp : m + n - 1 - i = m - 1 - i + n := by
      have := Finset.mem_range.1 hi
      omega
    rw [hexp, pow_add, mul_assoc]
  · congr 2
    omega

theorem bitsValue_succ (f : Nat → Bool) (n : Nat) : bitsValue f (n + 1) = 2 * bitsValue f n + (f n).toNat := by
  rw [bitsValue_add, pow_one, mul_comm]
  simp [bitsValue]

theorem bitsValue_lt (f : Nat → Bool) (n : Nat) : bitsValue f n < 2 ^ n := by
  induction n with
  | zero => simp
  | succ n ih =>
    have hbit := (f n).toNat_le
    rw [bitsValue_succ, pow_succ]
    omega

/-- The first `k` of a number's `n` bits make the number without its other bits. -/
theorem bitsValue_testBit {x n k : Nat} (hx : x < 2 ^ n) (hk : k ≤ n) :
    bitsValue (fun i => x.testBit (n - 1 - i)) k = x / 2 ^ (n - k) := by
  induction k with
  | zero => rw [bitsValue_zero, Nat.sub_zero, Nat.div_eq_of_lt hx]
  | succ k ih =>
    have hexp : n - k = n - 1 - k + 1 := by omega
    have hpos : n - (k + 1) = n - 1 - k := by omega
    rw [bitsValue_succ, ih (by omega), Nat.toNat_testBit, hpos, hexp, pow_succ, ← Nat.div_div_eq_div_mul]
    exact Nat.div_add_mod _ 2

theorem toNat_eq_bitsValue {w : Nat} (x : BitVec w) : x.toNat = bitsValue (fun i => x.getLsbD (w - 1 - i)) w := by
  have h := bitsValue_testBit x.isLt (Nat.le_refl w)
  rw [Nat.sub_self, pow_zero, Nat.div_one] at h
  exact h.symm

end

/-! ### One more bit -/

/-- The LSB as a number (spec/00_scope.md R19). -/
theorem toNat_lsb (x : Byte) : (lsb x).toNat = x.toNat % 2 := by
  rw [lsb, BitVec.getLsbD, Nat.toNat_testBit, pow_zero, Nat.div_one]

/-- The LSB that the LSB write puts in place (spec/20_memory.md R87). -/
@[simp] theorem lsb_replaceLsb (x : Byte) (v : Bool) : lsb (replaceLsb x v) = v := by
  cases v <;> simp [lsb, replaceLsb, bitByte]

theorem shiftLeft_one_or_eq_shiftConcat {w : Nat} (x : BitVec w) (v : Bool) :
    x <<< 1 ||| (bitByte v).setWidth w = x.shiftConcat v := by
  ext i hi
  cases i with
  | zero => cases v <;> simp [bitByte, BitVec.getElem_shiftConcat]
  | succ i => cases v <;> simp [bitByte]

theorem shiftIn_eq_shiftConcat (x : Word) (v : Bool) : shiftIn x v = x.shiftConcat v := shiftLeft_one_or_eq_shiftConcat x v

theorem shiftInByte_eq_shiftConcat (x : Byte) (v : Bool) : shiftInByte x v = x.shiftConcat v := by
  rw [← shiftLeft_one_or_eq_shiftConcat, BitVec.setWidth_eq, shiftInByte]

/-- Shifting a bit in, as a number. -/
theorem toNat_shiftConcat_eq {w : Nat} (x : BitVec w) (v : Bool) : (x.shiftConcat v).toNat = (2 * x.toNat + v.toNat) % 2 ^ w := by
  rw [BitVec.toNat_shiftConcat, Nat.shiftLeft_eq, pow_one, mul_comm]

theorem shiftConcat_ofNat {w : Nat} (x : Nat) (v : Bool) :
    (BitVec.ofNat w x).shiftConcat v = BitVec.ofNat w (2 * x + v.toNat) := by
  apply BitVec.eq_of_toNat_eq
  rw [toNat_shiftConcat_eq, BitVec.toNat_ofNat, BitVec.toNat_ofNat]
  simp [Nat.add_mod, Nat.mul_mod]

/-! ### The bits of a frame -/

section
variable (s : State)

/-- A byte of FRAME RAM by its bits (spec/20_memory.md R80). -/
theorem toNat_readFrame (j : Nat) : (readFrame s j).toNat = bitsValue (fun m => fbit s (8 * j + m)) 8 := by
  rw [toNat_eq_bitsValue]
  exact bitsValue_congr fun m hm => (fbit_eq_getLsbD s j hm).symm

/-- The frame's header is its first 32 bits (spec/20_memory.md R81). -/
theorem toNat_frameHeader : (frameHeader s).toNat = bitsValue (fbit s) 32 := by
  have hfirst : (readFrame s 0).toNat = bitsValue (fbit s) 8 := by simpa using toNat_readFrame s 0
  change _ = bitsValue (fbit s) (8 + 8 + 8 + 8)
  rw [bitsValue_add, bitsValue_add, bitsValue_add, frameHeader, be32_toNat, hfirst]
  simp only [toNat_readFrame, Nat.reduceMul, Nat.reduceAdd]
  ring

end

section
variable {s u : State} {n : Nat} (hbits : ∀ i, i < n → fbit u i = carrierBit s i)
include hbits

/-- A carrier that holds a frame's first bits holds its header. -/
theorem carrierHeader_of_frame_bits (hn : 32 ≤ n) : carrierHeader s = (frameHeader u).toNat := by
  rw [carrierHeader_eq, toNat_frameHeader]
  exact bitsValue_congr fun i hi => (hbits i (by omega)).symm

/-- A carrier that holds a frame's bits holds the bytes behind its header. -/
theorem carrierPayloadByte_of_frame_bits {j : Nat} (hj : 32 + 8 * j + 8 ≤ n) : carrierPayloadByte s j = (readFrame u (4 + j)).toNat := by
  rw [carrierPayloadByte_eq, toNat_readFrame]
  refine bitsValue_congr fun m hm => ?_
  rw [show 8 * (4 + j) + m = 32 + 8 * j + m by ring, hbits _ (by omega)]

end

end Sys2Proof.Machine
end

section
/-!
PROOF. The steps of EXTRACT in every phase after START (spec/44_extractor.md R192, R193, R195, R197), each as one record.
-/

namespace Sys2Proof.Machine

section
variable {s : State} (he : Engaged s)
include he

/-! ### READ_HEADER and READ_PAYLOAD -/

section
variable (ha : byteAddr s s.cursor < s.params.carrierSize)
include ha

theorem exec_extract_of_failing_header (hp : s.phase = .readHeader) (hport : s.port = .readError) :
    exec .extract s = .next (finish .busError (logAccess (.read (byteAddr s s.cursor)) s)) :=
  (exec_extract_of_readHeader he hp).trans (readHeaderStep_of_readError ha hport)

theorem exec_extract_of_answered_header (hp : s.phase = .readHeader) (hport : s.port ≠ .readError) :
    exec .extract s = .next { s with
      shift := shiftIn s.shift (carrierBit s s.cursor), cursor := s.cursor + 1
      phase := if s.cursor + 1 = 32 then .validateLength else .readHeader
      portLog := s.portLog ++ [.read (byteAddr s s.cursor)] } := by
  rw [exec_extract_of_readHeader he hp, readHeaderStep_of_answered ha hport, ← hp]
  dsimp only
  split <;> rfl

theorem exec_extract_of_failing_payload (hp : s.phase = .readPayload) (hr : PayloadByteFits s) (hport : s.port = .readError) :
    exec .extract s = .next (finish .busError (logAccess (.read (byteAddr s s.cursor)) s)) :=
  (exec_extract_of_readPayload he hp).trans (readPayloadStep_of_readError ha hr hport)

theorem exec_extract_of_answered_payload (hp : s.phase = .readPayload) (hr : PayloadByteFits s) (hport : s.port ≠ .readError) :
    exec .extract s = .next
      (readPayloadDone (logAccess (.read (byteAddr s s.cursor)) s) (s.cursor - 32) (carrierBit s s.cursor)) :=
  (exec_extract_of_readPayload he hp).trans (readPayloadStep_of_answered ha hr hport)

end

/-! ### VALIDATE_LENGTH -/

section
variable (hp : s.phase = .validateLength)
include hp

theorem exec_extract_of_invalid_header (h : s.shift.toNat = 0 ∨ cap s < 32 + s.shift.toNat) :
    exec .extract s = .next (finish .absent (setHdrLen s.shift s)) := by
  rw [exec_extract_of_validateLength he hp]
  exact if_pos (decide_eq_false (by omega))

theorem exec_extract_of_oversized_header (hpos : 0 < s.shift.toNat) (hfit : 32 + s.shift.toNat ≤ cap s)
    (hsize : s.params.msgCap < s.shift.toNat / 8) : exec .extract s = .next (finish .oversize (setHdrLen s.shift s)) := by
  have hvalid : headerValid s s.shift.toNat = true := decide_eq_true ⟨hpos, hfit⟩
  rw [exec_extract_of_validateLength he hp]
  simp [validateLengthStep, hvalid, hsize]

theorem exec_extract_of_accepted_header (hpos : 0 < s.shift.toNat) (hfit : 32 + s.shift.toNat ≤ cap s)
    (hsize : s.shift.toNat / 8 ≤ s.params.msgCap) :
    exec .extract s = .next (enterPhase .readPayload (clearAcc (setHdrLen s.shift s))) := by
  have hvalid : headerValid s s.shift.toNat = true := decide_eq_true ⟨hpos, hfit⟩
  rw [exec_extract_of_validateLength he hp]
  simp [validateLengthStep, hvalid, Nat.not_lt.2 hsize]

end

end

/-- The byte of a payload bit that EXTRACT is yet to read exists, in the carrier and in MSG RAM (spec/44_extractor.md R198). -/
theorem payload_bytes_exist {s : State} (hext : Extracting s) (hacc : HeaderAccepted s) (hhi : s.cursor < 32 + s.shift.toNat) :
    byteAddr s s.cursor < s.params.carrierSize ∧ PayloadByteFits s := by
  obtain ⟨-, -, -, hreg⟩ := hext
  obtain ⟨-, -, hfit, hsize⟩ := hacc
  refine ⟨byteAddr_lt_carrierSize hreg (Nat.lt_of_lt_of_le hhi hfit), ?_⟩
  simp only [PayloadByteFits]
  omega

theorem header_byte_exists {s : State} (hext : Extracting s) (hcur : s.cursor < 32) : byteAddr s s.cursor < s.params.carrierSize := by
  obtain ⟨-, hcap, -, hreg⟩ := hext
  exact byteAddr_lt_carrierSize hreg (Nat.lt_of_lt_of_le hcur hcap)

/-- The message byte that payload bit `k` stores (spec/44_extractor.md R195). -/
theorem readMsg_readPayloadDone (s : State) (k : Nat) (v : Bool) (j : Nat) :
    readMsg (readPayloadDone s k v) j =
      if (k + 1) % 8 = 0 ∧ j = (k + 1) / 8 - 1 then shiftInByte s.acc v else readMsg s j := by
  by_cases hj : j = (k + 1) / 8 - 1
  · by_cases hk : (k + 1) % 8 = 0 <;> simp [readMsg, hj, hk]
  · rw [readMsg_readPayloadDone_of_ne k v hj, if_neg (fun h => hj h.2)]

/-- A payload bit that has been read as one record (spec/44_extractor.md R195). -/
theorem readPayloadDone_eq_record {s : State} (hp : s.phase = .readPayload) (k : Nat) (v : Bool) :
    readPayloadDone s k v = { s with
      cursor := s.cursor + 1, acc := if (k + 1) % 8 = 0 then 0#8 else shiftInByte s.acc v
      msg := if (k + 1) % 8 = 0 then (readPayloadDone s k v).msg else s.msg
      phase := if k + 1 = s.shift.toNat then .decode else .readPayload } := by
  rw [← hp, readPayloadDone_msg]
  by_cases hbyte : (k + 1) % 8 = 0 <;> simp only [readPayloadDone, hbyte, if_true, if_false]

/-! ### The obligations -/

/-- Settles O27: the port's response selects the outcome, and SHIFT's update is R192's formula mod 2^32. -/
theorem readHeaderStepShiftsOneBit : Obligations.ReadHeaderStepShiftsOneBit := by
  intro s he hp hext hcur b a
  have ha := header_byte_exists hext hcur
  refine ⟨exec_extract_of_failing_header he ha hp, fun hport => ⟨_, exec_extract_of_answered_header he ha hp hport, ?_, rfl⟩⟩
  dsimp only
  rw [shiftIn_eq_shiftConcat, toNat_shiftConcat_eq, carrierBit, toNat_lsb]
  rfl

/-- Settles O28: the header in SHIFT against 0, CAP and MSG_CAP selects the outcome. -/
theorem validateLengthStepDecides : Obligations.ValidateLengthStepDecides :=
  fun _ he hp => ⟨exec_extract_of_invalid_header he hp, exec_extract_of_oversized_header he hp, exec_extract_of_accepted_header he hp⟩

/-- Settles O29: the port's response selects the outcome, and ACC's update is R195's formula mod 256. -/
theorem readPayloadStepTakesOneBit : Obligations.ReadPayloadStepTakesOneBit := by
  intro s he hp hext hacc _ hhi b k a
  obtain ⟨ha, hr⟩ := payload_bytes_exist hext hacc hhi
  refine ⟨exec_extract_of_failing_payload he ha hp hr, fun hport =>
    ⟨_, shiftInByte s.acc (carrierBit s b), exec_extract_of_answered_payload he ha hp hr hport, ?_, ?_, ?_⟩⟩
  · rw [shiftInByte_eq_shiftConcat, toNat_shiftConcat_eq, carrierBit, toNat_lsb]
    rfl
  · exact readMsg_readPayloadDone _ k _
  · exact readPayloadDone_eq_record (s := logAccess _ s) hp k _

/-- Settles O30: L div 8 fits MSG_LEN, since SHIFT has 32 bits. -/
theorem decodeStepSetsTheLength : Obligations.DecodeStepSetsTheLength := by
  intro s he hp
  refine ⟨_, exec_extract_of_decode he hp, ?_, rfl⟩
  have hl : s.shift.toNat < 2 ^ 32 := s.shift.isLt
  simp only [finish_msgLen, setMsgLen_msgLen, BitVec.toNat_ofNat]
  omega

end Sys2Proof.Machine
end

section
/-!
PROOF. EXTRACT from START on (spec/44_extractor.md R190), by induction on the bits read. `headerRead` is the state between two READ_HEADER
steps and `payloadRead` the state between two READ_PAYLOAD steps; both are functions of the state at acceptance, since EXTRACT leaves the
carrier alone.
-/

namespace Sys2Proof.Machine

/-! ### The states between the steps -/

/-- The state `s` with the first `n` header bits in SHIFT and CURSOR behind them, nothing scheduled and the last step's accesses in
`log`. -/
def headerRead (log : List Access) (n : Nat) (s : State) : State :=
  { s with
    inputs := [], portLog := log, shift := BitVec.ofNat 32 (headerUpTo s n), cursor := n
    phase := if n = 32 then .validateLength else .readHeader }

/-- What ACC holds after `k` payload bits: those behind the last whole byte (spec/44_extractor.md R195). -/
def partialByte (s : State) (k : Nat) : Byte := BitVec.ofNat 8 (bitsValue (fun m => carrierBit s (32 + 8 * (k / 8) + m)) (k % 8))

/-- MSG RAM after `k` payload bits: the bytes they complete are stored (spec/44_extractor.md R195). -/
def payloadStored (s : State) (k : Nat) : List Host.Cell :=
  Memory.fill s.msg 0 (fun j => BitVec.ofNat 8 (carrierPayloadByte s j)) (k / 8)

/-- The state `s` with a header `l` accepted and the first `k` payload bits taken (spec/44_extractor.md R193, R195). -/
def payloadRead (log : List Access) (l k : Nat) (s : State) : State :=
  { s with
    inputs := [], portLog := log, hdrLen := BitVec.ofNat 32 l, shift := BitVec.ofNat 32 l
    cursor := 32 + k, acc := partialByte s k, msg := payloadStored s k
    phase := if k = l then .decode else .readPayload }

/-- The state in which an EXTRACT that recovers a payload of `l` bits ends (spec/44_extractor.md R197). -/
def extractEnd (l : Nat) (s : State) : State := finish .ok (setMsgLen (BitVec.ofNat 32 (l / 8)) (payloadRead [] l l s))

section
variable (log : List Access) (s : State)

/-- SHIFT takes the next header bit. -/
theorem shiftIn_headerUpTo (n : Nat) :
    shiftIn (BitVec.ofNat 32 (headerUpTo s n)) (carrierBit s n) = BitVec.ofNat 32 (headerUpTo s (n + 1)) := by
  rw [shiftIn_eq_shiftConcat, shiftConcat_ofNat, headerUpTo_succ]

/-- All 32 bits in SHIFT are the header. -/
theorem toNat_headerRead_shift : (headerRead log 32 s).shift.toNat = carrierHeader s := by
  rw [headerRead, headerUpTo_full, BitVec.toNat_ofNat, Nat.mod_eq_of_lt (carrierHeader_lt s)]

/-- ACC takes the next payload bit. -/
theorem shiftInByte_partialByte (k : Nat) :
    shiftInByte (partialByte s k) (carrierBit s (32 + k)) =
      BitVec.ofNat 8 (bitsValue (fun m => carrierBit s (32 + 8 * (k / 8) + m)) (k % 8 + 1)) := by
  have hbit : 32 + 8 * (k / 8) + k % 8 = 32 + k := by omega
  rw [partialByte, shiftInByte_eq_shiftConcat, shiftConcat_ofNat, bitsValue_succ, hbit]

theorem partialByte_succ (k : Nat) :
    partialByte s (k + 1) = if (k + 1) % 8 = 0 then 0#8 else shiftInByte (partialByte s k) (carrierBit s (32 + k)) := by
  split
  · next hwhole => rw [partialByte, hwhole, bitsValue_zero]
  · next hpartial =>
    have hbyte : (k + 1) / 8 = k / 8 := by omega
    have hbit : (k + 1) % 8 = k % 8 + 1 := by omega
    rw [shiftInByte_partialByte, partialByte, hbyte, hbit]

theorem payloadStored_succ (k : Nat) :
    payloadStored s (k + 1) =
      if (k + 1) % 8 = 0 then
        Memory.set (payloadStored s k) ((k + 1) / 8 - 1) (shiftInByte (partialByte s k) (carrierBit s (32 + k)))
      else payloadStored s k := by
  split
  · next hwhole =>
    have hbyte : (k + 1) / 8 = k / 8 + 1 := by omega
    have hbit : k % 8 + 1 = 8 := by omega
    rw [shiftInByte_partialByte, hbit, ← carrierPayloadByte_eq, payloadStored, hbyte, Memory.fill, Nat.zero_add, Nat.add_sub_cancel,
      payloadStored]
  · next hpartial =>
    have hbyte : (k + 1) / 8 = k / 8 := by omega
    rw [payloadStored, hbyte, payloadStored]

end

section
variable (log : List Access) (s : State) {l k : Nat}

theorem toNat_payloadRead_shift (hl : l < 2 ^ 32) : (payloadRead log l k s).shift.toNat = l := Nat.mod_eq_of_lt hl

/-- The step that takes payload bit `k`. -/
theorem readPayloadDone_payloadRead (hl : l < 2 ^ 32) (hk : k < l) (log' : List Access) :
    readPayloadDone { payloadRead log l k s with portLog := log' } k (carrierBit s (32 + k)) = payloadRead log' l (k + 1) s := by
  have hphase : (payloadRead log l k s).phase = .readPayload := if_neg hk.ne
  have hshift := toNat_payloadRead_shift log s (k := k) hl
  rw [readPayloadDone, hphase, hshift]
  conv_rhs => rw [payloadRead, partialByte_succ, payloadStored_succ]
  rfl

/-- The bytes that the first `k` payload bits complete. -/
theorem toNat_readMsg_payloadRead {j : Nat} (hj : j < k / 8) : (readMsg (payloadRead log l k s) j).toNat = carrierPayloadByte s j := by
  have hget := Memory.get?_fill s.msg 0 (fun j => BitVec.ofNat 8 (carrierPayloadByte s j)) hj
  have hread : readMsg (payloadRead log l k s) j = BitVec.ofNat 8 (carrierPayloadByte s j) := by
    rw [Nat.zero_add] at hget
    simp [readMsg, payloadRead, payloadStored, hget]
  rw [hread, BitVec.toNat_ofNat]
  exact Nat.mod_eq_of_lt (bitsValue_lt _ 8)

/-- The other message bytes are as they were. -/
theorem readMsg_payloadRead_of_le {j : Nat} (hj : k / 8 ≤ j) : readMsg (payloadRead log l k s) j = readMsg s j := by
  simp [readMsg, payloadRead, payloadStored, Memory.get?_fill_outside _ _ _ (Or.inr (by omega : 0 + k / 8 ≤ j))]

end

/-! ### The steps -/

/-- The carrier holds a header that VALIDATE_LENGTH accepts (spec/44_extractor.md R193, R194). It goes by the name `l` from here on, so that
no comparison of states evaluates the sum it is. -/
structure HoldsPayload (l : Nat) (s : State) : Prop where
  header : carrierHeader s = l
  positive : 0 < l
  fits : 32 + l ≤ cap s
  stored : l / 8 ≤ s.params.msgCap

theorem HoldsPayload.lt {l : Nat} {s : State} (h : HoldsPayload l s) : l < 2 ^ 32 := h.header ▸ carrierHeader_lt s

theorem payloadRead_bytes_exist {l k : Nat} {s : State} (hext : Extracting s) (hl : HoldsPayload l s) (hk : k < l) :
    byteAddr s (32 + k) < s.params.carrierSize ∧ PayloadByteFits (payloadRead [] l k s) := by
  have hshift := toNat_payloadRead_shift [] s (k := k) hl.lt
  have hacc : HeaderAccepted (payloadRead [] l k s) := by
    rw [HeaderAccepted, hshift]
    exact ⟨rfl, hl.positive, hl.fits, hl.stored⟩
  refine payload_bytes_exist (s := payloadRead [] l k s) hext hacc ?_
  rw [hshift]
  exact Nat.add_lt_add_left hk 32

section
variable {s : State} (he : Engaged s) (hext : Extracting s) (log : List Access)
include he hext

/-- The step after `n` header bits is EXTRACT's. -/
theorem step_headerRead (n : Nat) : step (headerRead log n s) = exec .extract (headerRead [] n s) :=
  Uninterrupted.step_eq (s := headerRead log n s) ⟨he, rfl⟩ hext.1

theorem step_headerRead_answered {n : Nat} (hn : n < 32) (hport : s.port ≠ .readError) :
    ∃ log', step (headerRead log n s) = .next (headerRead log' (n + 1) s) := by
  have ha : byteAddr s n < s.params.carrierSize := header_byte_exists (s := headerRead [] n s) hext hn
  refine ⟨[.read (byteAddr s n)], (step_headerRead he hext log n).trans ?_⟩
  refine (exec_extract_of_answered_header (s := headerRead [] n s) he ha (if_neg hn.ne) hport).trans ?_
  rw [headerRead, headerRead, ← shiftIn_headerUpTo]
  rfl

theorem step_headerRead_failed {n : Nat} (hn : n < 32) (hport : s.port = .readError) :
    ∃ log', step (headerRead log n s) = .next (finish .busError (headerRead log' n s)) := by
  have ha : byteAddr s n < s.params.carrierSize := header_byte_exists (s := headerRead [] n s) hext hn
  exact ⟨_, (step_headerRead he hext log n).trans
    (exec_extract_of_failing_header (s := headerRead [] n s) he ha (if_neg hn.ne) hport)⟩

/-- VALIDATE_LENGTH of a header that R194 rejects. -/
theorem step_headerRead_invalid (h : carrierHeader s = 0 ∨ cap s < 32 + carrierHeader s) :
    step (headerRead log 32 s) = .next (finish .absent (setHdrLen (headerRead [] 32 s).shift (headerRead [] 32 s))) := by
  rw [← toNat_headerRead_shift []] at h
  exact (step_headerRead he hext log 32).trans (exec_extract_of_invalid_header (s := headerRead [] 32 s) he rfl h)

/-- VALIDATE_LENGTH of a header too long for MSG RAM (spec/44_extractor.md R196). -/
theorem step_headerRead_oversized (hpos : 0 < carrierHeader s) (hfit : 32 + carrierHeader s ≤ cap s)
    (hsize : s.params.msgCap < carrierHeader s / 8) :
    step (headerRead log 32 s) = .next (finish .oversize (setHdrLen (headerRead [] 32 s).shift (headerRead [] 32 s))) := by
  rw [← toNat_headerRead_shift []] at hpos hfit hsize
  exact (step_headerRead he hext log 32).trans (exec_extract_of_oversized_header (s := headerRead [] 32 s) he rfl hpos hfit hsize)

/-- The step after `k` payload bits is EXTRACT's. -/
theorem step_payloadRead (l k : Nat) : step (payloadRead log l k s) = exec .extract (payloadRead [] l k s) :=
  Uninterrupted.step_eq (s := payloadRead log l k s) ⟨he, rfl⟩ hext.1

section
variable {l : Nat} (hl : HoldsPayload l s)
include hl

/-- VALIDATE_LENGTH of any other header. -/
theorem step_headerRead_accepted : step (headerRead log 32 s) = .next (payloadRead [] l 0 s) := by
  obtain ⟨hheader, hpos, hfit, hstored⟩ := hl
  have hshift : (headerRead [] 32 s).shift.toNat = l := (toNat_headerRead_shift [] s).trans hheader
  rw [step_headerRead he hext, exec_extract_of_accepted_header (s := headerRead [] 32 s) he rfl (by rwa [hshift]) (by rwa [hshift])
    (by rwa [hshift]), headerRead, headerUpTo_full, hheader, payloadRead, if_neg hpos.ne]
  rfl

theorem step_payloadRead_answered {k : Nat} (hk : k < l) (hport : s.port ≠ .readError) :
    ∃ log', step (payloadRead log l k s) = .next (payloadRead log' l (k + 1) s) := by
  obtain ⟨ha, hr⟩ := payloadRead_bytes_exist hext hl hk
  have hstep := (step_payloadRead he hext log l k).trans
    (exec_extract_of_answered_payload (s := payloadRead [] l k s) he ha (if_neg hk.ne) hr hport)
  have hbit : (payloadRead [] l k s).cursor - 32 = k := Nat.add_sub_cancel_left 32 k
  rw [hbit] at hstep
  exact ⟨_, hstep.trans (congrArg _ (readPayloadDone_payloadRead [] s hl.lt hk _))⟩

theorem step_payloadRead_failed {k : Nat} (hk : k < l) (hport : s.port = .readError) :
    ∃ log', step (payloadRead log l k s) = .next (finish .busError (payloadRead log' l k s)) := by
  obtain ⟨ha, hr⟩ := payloadRead_bytes_exist hext hl hk
  exact ⟨_, (step_payloadRead he hext log l k).trans
    (exec_extract_of_failing_payload (s := payloadRead [] l k s) he ha (if_neg hk.ne) hr hport)⟩

/-- DECODE (spec/44_extractor.md R197). -/
theorem step_payloadRead_whole : step (payloadRead log l l s) = .next (extractEnd l s) := by
  rw [step_payloadRead he hext, exec_extract_of_decode (s := payloadRead [] l l s) he (if_pos rfl), decodeStep,
    toNat_payloadRead_shift [] s hl.lt, extractEnd]

end

end

/-! ### The command -/

/-- The word of an EXTRACT whose range checks pass, with room for a header, has just been accepted in a quiet environment. -/
structure LegalExtract (s : State) : Prop where
  accepted : Accepted .extract s
  pixels : PixelCountLegal s
  region : RegionLegal s
  header_fits : 32 ≤ cap s

namespace LegalExtract

section
variable {s : State} (h : LegalExtract s)
include h

theorem engaged : Engaged s := by
  obtain ⟨-, hb, -, -, -, -, hr⟩ := h.accepted
  exact ⟨hb, hr⟩

theorem extracting : Extracting s := ⟨h.accepted.1, h.header_fits, h.pixels, h.region⟩

theorem port_answers : s.port ≠ .readError := by
  obtain ⟨-, -, -, -, -, hport, -⟩ := h.accepted
  simp [hport]

/-- START passes its checks (spec/44_extractor.md R191). -/
theorem step_start : step s = .next (headerRead [] 0 s) := by
  obtain ⟨hl, -, hp, hcur, hin, -⟩ := h.accepted
  have hstart : headerRead [] 0 s = enterPhase .readHeader (clearShift (taken [] s)) := by
    simp [headerRead, headerUpTo, enterPhase, clearShift, hcur]
  rw [hstart, Uninterrupted.step_eq ⟨h.engaged, hin⟩ hl]
  exact (exec_extract_of_passing (s := taken [] s) h.engaged hp h.pixels h.region).trans
    (congrArg _ (extractContinuation_of_large h.header_fits))

/-- After START and a READ_HEADER step for each, `n` header bits are in SHIFT. -/
theorem run_headerRead {n : Nat} (hn : n ≤ 32) : ∃ log, run (1 + n) s = .next (headerRead log n s) := by
  induction n with
  | zero => exact ⟨[], run_succ_of_step h.step_start 0⟩
  | succ n ih =>
    obtain ⟨log, hrun⟩ := ih (by omega)
    obtain ⟨log', hstep⟩ := step_headerRead_answered h.engaged h.extracting log hn h.port_answers
    exact ⟨log', run_succ_of_run hrun hstep⟩

/-- A header that VALIDATE_LENGTH rejects ends the command after 34 steps (spec/44_extractor.md R193). -/
theorem run_rejected (hrej : carrierHeader s = 0 ∨ cap s < 32 + carrierHeader s ∨ s.params.msgCap < carrierHeader s / 8) :
    run 34 s = .next (finish (if carrierHeader s = 0 ∨ cap s < 32 + carrierHeader s then .absent else .oversize)
      (setHdrLen (headerRead [] 32 s).shift (headerRead [] 32 s))) := by
  obtain ⟨log, hrun⟩ := h.run_headerRead (Nat.le_refl 32)
  by_cases hinvalid : carrierHeader s = 0 ∨ cap s < 32 + carrierHeader s
  · rw [if_pos hinvalid]
    exact run_succ_of_run hrun (step_headerRead_invalid h.engaged h.extracting log hinvalid)
  · rw [if_neg hinvalid]
    exact run_succ_of_run hrun (step_headerRead_oversized h.engaged h.extracting log (by omega) (by omega) (by omega))

section
variable {l : Nat} (hl : HoldsPayload l s)
include hl

/-- After VALIDATE_LENGTH too and a READ_PAYLOAD step for each, `k` payload bits are taken. -/
theorem run_payloadRead {k : Nat} (hk : k ≤ l) : ∃ log, run (34 + k) s = .next (payloadRead log l k s) := by
  induction k with
  | zero =>
    obtain ⟨log, hrun⟩ := h.run_headerRead (Nat.le_refl 32)
    exact ⟨[], run_succ_of_run hrun (step_headerRead_accepted h.engaged h.extracting log hl)⟩
  | succ k ih =>
    obtain ⟨log, hrun⟩ := ih (by omega)
    obtain ⟨log', hstep⟩ := step_payloadRead_answered h.engaged h.extracting log hl hk h.port_answers
    exact ⟨log', run_succ_of_run hrun hstep⟩

/-- The whole command ends with every payload bit taken and MSG_LEN set. -/
theorem run_whole : run (35 + l) s = .next (extractEnd l s) := by
  obtain ⟨log, hrun⟩ := h.run_payloadRead hl (Nat.le_refl l)
  rw [Nat.succ_add]
  exact run_succ_of_run hrun (step_payloadRead_whole h.engaged h.extracting log hl)

end

end

end LegalExtract

section
variable (s : State) {l : Nat}

theorem toNat_extractEnd_msgLen (hl : l < 2 ^ 32) : (extractEnd l s).msgLen.toNat = l / 8 :=
  Nat.mod_eq_of_lt (Nat.lt_of_le_of_lt (Nat.div_le_self l 8) hl)

theorem toNat_extractEnd_hdrLen (hl : l < 2 ^ 32) : (extractEnd l s).hdrLen.toNat = l := Nat.mod_eq_of_lt hl

theorem toNat_readMsg_extractEnd {j : Nat} (hj : j < l / 8) : (readMsg (extractEnd l s) j).toNat = carrierPayloadByte s j :=
  toNat_readMsg_payloadRead (l := l) [] s hj

theorem readMsg_extractEnd_of_le {j : Nat} (hj : l / 8 ≤ j) : readMsg (extractEnd l s) j = readMsg s j :=
  readMsg_payloadRead_of_le (l := l) [] s hj

end

/-- Settles O31: the command ends in `extractEnd`, where every payload bit is taken. -/
theorem extractRecoversThePayload : Obligations.ExtractRecoversThePayload := by
  intro s hacc hpix hreg hpos hfit hstored
  have h : LegalExtract s := ⟨hacc, hpix, hreg, by omega⟩
  obtain ⟨l, hheader⟩ : ∃ l, carrierHeader s = l := ⟨_, rfl⟩
  rw [hheader] at hpos hfit hstored ⊢
  have hl : HoldsPayload l s := ⟨hheader, hpos, hfit, hstored⟩
  exact ⟨extractEnd l s, h.run_whole hl, ⟨rfl, rfl⟩, rfl, fun _ => toNat_readMsg_extractEnd s, toNat_extractEnd_msgLen s hl.lt,
    toNat_extractEnd_hdrLen s hl.lt, rfl, fun _ => readMsg_extractEnd_of_le s, rfl, rfl, rfl⟩

/-- Settles O32: the command ends in VALIDATE_LENGTH, which writes HDR_LEN alone. -/
theorem rejectedHeaderLeavesTheOutputs : Obligations.RejectedHeaderLeavesTheOutputs := by
  intro s hacc hpix hreg hcap hrej
  have h : LegalExtract s := ⟨hacc, hpix, hreg, hcap⟩
  exact ⟨_, h.run_rejected hrej, ⟨rfl, rfl⟩, finish_result _ _, toNat_headerRead_shift [] s, rfl, rfl, rfl, rfl⟩

/-- Settles O33: bit `b` is next in `headerRead` or `payloadRead`, and a failed read changes nothing of it but how the command stands. -/
theorem extractBusErrorIsPrecise : Obligations.ExtractBusErrorIsPrecise := by
  intro s b hacc hpix hreg hcap hb
  have h : LegalExtract s := ⟨hacc, hpix, hreg, hcap⟩
  obtain hlt | ⟨hge, hlt, hfit, hstored⟩ := hb
  · obtain ⟨log, hrun⟩ := h.run_headerRead hlt.le
    obtain ⟨log', hstep⟩ := step_headerRead_failed (s := { s with port := .readError }) h.engaged h.extracting log hlt rfl
    rw [if_pos hlt]
    refine ⟨_, _, hrun, hstep, ⟨rfl, rfl⟩, rfl, rfl, fun _ => rfl, fun hge => ?_, fun j hj => ?_, rfl, rfl⟩ <;> omega
  · obtain ⟨k, rfl⟩ := Nat.exists_eq_add_of_le hge
    obtain ⟨l, hheader⟩ : ∃ l, carrierHeader s = l := ⟨_, rfl⟩
    rw [hheader] at hlt hfit hstored ⊢
    have hk : k < l := Nat.lt_of_add_lt_add_left hlt
    have hl : HoldsPayload l s := ⟨hheader, by omega, hfit, hstored⟩
    obtain ⟨log, hrun⟩ := h.run_payloadRead hl hk.le
    obtain ⟨log', hstep⟩ := step_payloadRead_failed (s := { s with port := .readError }) h.engaged h.extracting log { hl with } hk rfl
    rw [if_neg (Nat.not_lt.2 hge), ← Nat.add_assoc, Nat.add_sub_cancel_left]
    refine ⟨_, _, hrun, hstep, ⟨rfl, rfl⟩, rfl, rfl, fun hlo => ?_, fun _ => Nat.mod_eq_of_lt hl.lt,
      fun _ => toNat_readMsg_payloadRead (l := l) log' s, rfl, rfl⟩
    omega

end Sys2Proof.Machine
end

section
/-!
PROOF. EXTRACT against UNPACK of the frame that the carrier holds (spec/44_extractor.md R200), and the round trip of PACK, EMBED and EXTRACT
(R203). In both a carrier holds the bits of a frame, so its header and its payload bytes are the frame's.
-/

namespace Sys2Proof.Machine

/-! ### EXTRACT and UNPACK -/

/-- The state in which an accepted UNPACK of a whole frame ends (spec/41_framer.md R147). -/
def unpacked (s : State) : State :=
  finish .ok (unpackedMessage s ((frameHeader s).toNat / 8) (setHdrLen (frameHeader s) (enterPhase .unpack (taken [] s))))

/-- An accepted UNPACK of a frame that holds its whole payload ends after two steps. -/
theorem run_accepted_unpack {s : State} (hacc : Accepted .unpack s) (hbits : FrameBitsLegal s)
    (hwhole : 32 + (frameHeader s).toNat ≤ s.frameBits.toNat) : run 2 s = .next (unpacked s) := by
  obtain ⟨hl, hb, hp, -, hin, -, hr⟩ := hacc
  have he : Engaged s := ⟨hb, hr⟩
  have hstart : step s = .next (enterPhase .unpack (taken [] s)) :=
    (Uninterrupted.step_eq ⟨he, hin⟩ hl).trans (exec_unpack_of_passing (s := taken [] s) he hp hbits)
  have hunpack : step (enterPhase .unpack (taken [] s)) = exec .unpack (enterPhase .unpack (taken [] s)) :=
    Uninterrupted.step_eq (s := enterPhase .unpack (taken [] s)) ⟨he, rfl⟩ hl
  refine run_two_of_steps hstart (hunpack.trans ((exec_unpack_of_unpack (s := enterPhase .unpack (taken [] s)) he rfl).trans ?_))
  exact unpackStep_of_whole_payload (s := enterPhase .unpack (taken [] s)) hbits hwhole

/-- Settles O35: both commands take the header and the message bytes of one frame. -/
theorem extractEqualsUnpack : Obligations.ExtractEqualsUnpack := by
  intro s u _ _ hacc hpix hreg hpos hfit hstored hacc' hlegal hlen hbits
  have h : LegalExtract s := ⟨hacc, hpix, hreg, by omega⟩
  have hheader : carrierHeader s = (frameHeader u).toNat := carrierHeader_of_frame_bits hbits (Nat.le_add_right 32 _)
  rw [hheader] at hpos hfit hstored hlen hbits ⊢
  have hl : HoldsPayload (frameHeader u).toNat s := ⟨hheader, hpos, hfit, hstored⟩
  refine ⟨_, unpacked u, h.run_whole hl, run_accepted_unpack hacc' hlegal hlen.ge, rfl, rfl, rfl, ?_, fun j hj => ?_⟩
  · exact (BitVec.ofNat_toNat 32 (frameHeader u)).trans (BitVec.setWidth_eq _)
  · apply BitVec.eq_of_toNat_eq
    rw [toNat_readMsg_extractEnd s hj, carrierPayloadByte_of_frame_bits hbits (by omega)]
    exact congrArg _ (readMsg_unpackedMessage_message u _ hj).symm

/-! ### PACK, EMBED and EXTRACT -/

/-- The frame bit that a written channel bit holds (spec/43_embedder.md R174). -/
theorem carrierBit_bitsWritten (log : List Access) (s : State) {n b : Nat} (hb : b < n) : carrierBit (bitsWritten log n s) b = fbit s b :=
  (congrArg lsb (readCarrier_bitsWritten log s hb)).trans (lsb_replaceLsb _ _)

/-- A legal carrier region has fewer than 2^32 bits (spec/00_scope.md R8, spec/20_memory.md R72). -/
theorem cap_lt_of_region {s : State} (hwf : s.params.wf) (hreg : RegionLegal s) : cap s < 2 ^ 32 := by
  obtain ⟨-, -, -, -, -, haddr, -⟩ := hwf
  have hsize : s.params.carrierSize ≤ 2 ^ 32 := Nat.pow_le_pow_right (by decide) haddr
  have hend : carrierBaseAddr s + 4 * s.pixelCount.toNat ≤ s.params.carrierSize := hreg
  have hcap : cap s = 3 * s.pixelCount.toNat := rfl
  omega

/-- A step of an idle block with nothing scheduled changes nothing but the log of the port. -/
theorem step_of_idle {s : State} (hb : s.busy = false) (hin : s.inputs = []) : step s = .next (taken [] s) := by
  rw [step_of_engineTurn (.inl ⟨hin, rfl⟩)]
  exact engineStep_of_not_engaged (s := taken [] s) fun he => absurd he.1 (by simp [hb])

/-- EXTRACT of a carrier with header 0 ends ABSENT, and the block is idle one step later (spec/44_extractor.md R203). -/
theorem LegalExtract.run_empty {s : State} (h : LegalExtract s) (hzero : carrierHeader s = 0) :
    ∃ t, run 35 s = .next t ∧ CommandEnd t ∧ t.result = .absent := by
  have hrun := h.run_rejected (.inl hzero)
  rw [if_pos (.inl hzero)] at hrun
  exact ⟨_, run_succ_of_run hrun (step_of_idle rfl rfl), ⟨rfl, rfl⟩, rfl⟩

/-- The state in which an EMBED that nothing interrupts ends (spec/43_embedder.md R174). -/
def embedEnd (log : List Access) (s : State) : State := finish .ok (bitsWritten log s.frameBits.toNat s)

/-- After EMBED the carrier holds the frame, for EXTRACT to find. -/
theorem frame_bits_embedded (log : List Access) (s : State) (i : Nat) (hi : i < s.frameBits.toNat) :
    fbit s i = carrierBit (accept 0x5#32 (embedEnd log s)) i :=
  (carrierBit_bitsWritten log s hi).symm

theorem carrierHeader_embedded (log : List Access) {s : State} (hhdr : 32 ≤ s.frameBits.toNat) :
    carrierHeader (accept 0x5#32 (embedEnd log s)) = (frameHeader s).toNat :=
  carrierHeader_of_frame_bits (frame_bits_embedded log s) hhdr

namespace FittingEmbed

section
variable {s : State} (h : FittingEmbed s)
include h

theorem run_embedEnd : ∃ log, run (2 + s.frameBits.toNat) s = .next (embedEnd log s) := h.run_whole

/-- EXTRACT after EMBED passes its checks, where the frame has a header. -/
theorem legalExtract (log : List Access) (hhdr : 32 ≤ s.frameBits.toNat) : LegalExtract (accept 0x5#32 (embedEnd log s)) where
  accepted := by
    obtain ⟨-, -, -, -, -, hport, hr⟩ := h.accepted
    exact ⟨latched_accept_encode (i := .extract) _ rfl, rfl, rfl, rfl, rfl, hport, hr⟩
  pixels := h.pixels
  region := h.region
  header_fits := Nat.le_trans hhdr h.fits

/-- EXTRACT after EMBED accepts the frame's header, where the frame holds its payload. -/
theorem holdsPayload (log : List Access) {l : Nat} (hheader : (frameHeader s).toNat = l) (hpos : 0 < l)
    (hwhole : 32 + l ≤ s.frameBits.toNat) : HoldsPayload l (accept 0x5#32 (embedEnd log s)) where
  header := (carrierHeader_embedded log (by omega)).trans hheader
  positive := hpos
  fits := Nat.le_trans hwhole h.fits
  stored := payload_fits_msg h.bits hwhole

end

end FittingEmbed

/-- EMBED's word, accepted after PACK of a message whose frame fits the carrier (spec/44_extractor.md R203). -/
theorem fittingEmbed_of_packEnd {s : State} (hq : Quiet s) (hlen : MsgLenLegal s) (hpix : PixelCountLegal s) (hreg : RegionLegal s)
    (hfit : 32 + 8 * s.msgLen.toNat ≤ cap s) (hn : 32 + 8 * s.msgLen.toNat < 2 ^ 32) : FittingEmbed (accept 0x4#32 (packEnd s)) where
  accepted := ⟨latched_accept_encode (i := .embed) _ rfl, rfl, rfl, rfl, rfl, hq.2⟩
  pixels := hpix
  bits := frameBitsLegal_packEnd hlen hn
  region := hreg
  fits := (toNat_frameBits_packEnd hn).trans_le hfit

/-- Settles O36: EMBED puts every bit of PACK's frame into the carrier, so EXTRACT finds the header 8n and the message's bytes. -/
theorem composedRoundTrip : Obligations.ComposedRoundTrip := by
  intro s hwf hq hlen hpix hreg hfit
  have hn : 32 + 8 * s.msgLen.toNat < 2 ^ 32 := Nat.lt_of_le_of_lt hfit (cap_lt_of_region hwf hreg)
  have h := fittingEmbed_of_packEnd hq hlen hpix hreg hfit hn
  have hheader : (frameHeader (accept 0x4#32 (packEnd s))).toNat = 8 * s.msgLen.toNat := toNat_frameHeader_packEnd hn
  have hbits : (accept 0x4#32 (packEnd s)).frameBits.toNat = 32 + 8 * s.msgLen.toNat := toNat_frameBits_packEnd hn
  have hmsg {i : Nat} (hi : i < s.msgLen.toNat) : readFrame (accept 0x4#32 (packEnd s)) (4 + i) = readMsg s i :=
    readFrame_packEnd_message hi
  obtain ⟨log, hembed⟩ := h.run_embedEnd
  rw [hbits] at hembed
  have hextract := h.legalExtract log (by omega)
  obtain hzero | hpos := Nat.eq_zero_or_pos s.msgLen.toNat
  · rw [hzero] at hheader
    obtain ⟨v, hrun, hend, hresult⟩ := hextract.run_empty ((carrierHeader_embedded log (by omega)).trans hheader)
    refine ⟨_, _, v, run_pack hq hlen, hembed, ?_, ⟨rfl, rfl⟩, ⟨rfl, rfl⟩, hend, fun _ => hresult,
      fun hpos => absurd hzero hpos.ne'⟩
    rw [hzero]
    exact hrun
  · have hl := h.holdsPayload log hheader (Nat.mul_pos (by decide) hpos) hbits.ge
    have hbytes : 8 * s.msgLen.toNat / 8 = s.msgLen.toNat := Nat.mul_div_cancel_left _ (by decide)
    refine ⟨_, _, _, run_pack hq hlen, hembed, hextract.run_whole hl, ⟨rfl, rfl⟩, ⟨rfl, rfl⟩, ⟨rfl, rfl⟩,
      fun hzero => absurd hzero hpos.ne', fun _ => ⟨rfl, ?_, fun i hi => ?_⟩⟩
    · apply BitVec.eq_of_toNat_eq
      rw [toNat_extractEnd_msgLen _ hl.lt, hbytes]
    · apply BitVec.eq_of_toNat_eq
      rw [toNat_readMsg_extractEnd _ (by rwa [hbytes]), carrierPayloadByte_of_frame_bits (frame_bits_embedded log _) (by omega), hmsg hi]

end Sys2Proof.Machine
end

section
/-!
PROOF. What a HOST transaction answers (spec/45_host_access.md). An ill-formed one gets the error response; a well-formed read answers its
register's value or moves a data port; a well-formed write is stored, or dropped by the busy lock. Each of these is one equation of `exec`
here, and each obligation takes it at its offsets.
-/

namespace Sys2Proof.Machine

/-! ### The shape of a transaction -/

/-- The transactions that spec/30_encoding.md R101 does not call well formed. -/
theorem illFormed_iff (off : BitVec 8) (size : Nat) : (sizeOk size && offsetAligned off) = false ↔ size ≠ 4 ∨ off.toNat % 4 ≠ 0 := by
  rw [← Bool.not_eq_true, Bool.and_eq_true, offsetAligned_iff, sizeOk, beq_iff_eq, not_and_or]

theorem readReg_resp (r : Reg) (s : State) : (readReg r s).resp = .okay := by rw [readReg_frame]

theorem writeReg_resp (r : Reg) (w : Word) (s : State) : (writeReg r w s).resp = .okay := rfl

section
variable {off : BitVec 8} {s : State} (hr : s.rst = false)
include hr

theorem exec_rd_illFormed {size : Nat} (h : size ≠ 4 ∨ off.toNat % 4 ≠ 0) : exec (.rd off size) s = .next (errorRead s) := by
  simp [exec, execRd, hr, (illFormed_iff off size).2 h]

theorem exec_wr_illFormed {size : Nat} (h : size ≠ 4 ∨ off.toNat % 4 ≠ 0) (w : Word) : exec (.wr off size w) s = .next (errorWrite s) := by
  simp [exec, execWr, hr, (illFormed_iff off size).2 h]

end

/-- Settles O37: an ill-formed access only answers the error response, and every register access ends in OKAY. -/
theorem illFormedAccessGetsTheErrorResponse : Obligations.IllFormedAccessGetsTheErrorResponse := by
  intro off size w s hr
  refine ⟨fun h => ⟨exec_rd_illFormed hr h, exec_wr_illFormed hr h w⟩, ?_⟩
  rintro rfl ha
  exact ⟨⟨_, exec_rd_word hr ha, readReg_resp _ s⟩, _, exec_wr_word hr ha w, writeReg_resp _ w s⟩

/-- Settles O38: only the offsets of the data ports name a data port, and any other register's read answers its value alone. -/
theorem plainReadsHaveNoSideEffect : Obligations.PlainReadsHaveNoSideEffect :=
  fun _ _ hr ha hm hf => ⟨_, exec_rd_value hr ha rfl (mt regAt_eq_msgData hm) (mt regAt_eq_frameData hf)⟩

/-! ### Register writes, stored or dropped -/

section
variable {r : Reg} {s : State}

theorem writeDropped_of_idle (hb : s.busy = false) : writeDropped r s = false := by simp [writeDropped, hb]

/-- CTRL and STATUS are written at any time (spec/45_host_access.md R223, R224). -/
theorem writeDropped_of_unlocked (hl : r.locked = false) (hc : r ≠ .cmd) : writeDropped r s = false := by simp [writeDropped, hl, hc]

theorem writeDropped_of_locked (hb : s.busy = true) (hl : r.locked = true) : writeDropped r s = true := by simp [writeDropped, hb, hl]

end

section
variable {off : BitVec 8} {s : State} (hr : s.rst = false) (ha : off.toNat % 4 = 0)
include hr ha

theorem exec_wr_stored {r : Reg} (hreg : regAt off = r) (hopen : writeDropped r s = false) (w : Word) :
    exec (.wr off 4 w) s = .next { storeReg r w s with resp := .okay } := by
  rw [exec_wr_word hr ha, hreg, writeReg, hopen]
  rfl

/-- A dropped write sets BUSYERR, and its response is OKAY (spec/45_host_access.md R226). -/
theorem exec_wr_dropped (hdrop : writeDropped (regAt off) s = true) (w : Word) :
    exec (.wr off 4 w) s = .next { s with busyErr := true, resp := .okay } := by
  rw [exec_wr_word hr ha, writeReg, hdrop]
  rfl

end

/-- Settles O41: STATUS is never locked; while a command runs DONE is already 0 (spec/10_state.md R36), so clearing it changes nothing. -/
theorem statusWriteClearsFlags : Obligations.StatusWriteClearsFlags := by
  intro w s hr
  have hwrite := exec_wr_stored (off := 0x0C#8) (r := .status) hr rfl rfl (writeDropped_of_unlocked rfl nofun) w
  refine ⟨hwrite, fun hinv hb => hwrite.trans ?_⟩
  have hdone : (s.done && !w.getLsbD 1) = s.done := by rw [hinv.busy_not_done hb, Bool.false_and]
  simp only [storeReg, writeStatus, acknowledge, hdone]

/-- Settles O42: CTRL is never locked, and IRQ is IE and DONE. -/
theorem ctrlWriteSetsTheInterruptEnable : Obligations.CtrlWriteSetsTheInterruptEnable :=
  fun w _ hr => ⟨_, exec_wr_stored (r := .ctrl) hr rfl rfl (writeDropped_of_unlocked rfl nofun) w, rfl, rfl⟩

/-- Settles O43: while BUSY = 0 no write is dropped, and each of the six registers stores the word. -/
theorem lockedRegisterWritesStore : Obligations.LockedRegisterWritesStore := by
  intro w s hr hb
  have hopen {r : Reg} : writeDropped r s = false := writeDropped_of_idle hb
  exact ⟨exec_wr_stored (r := .carrierBase) hr rfl rfl hopen w, exec_wr_stored (r := .pixelCount) hr rfl rfl hopen w,
    exec_wr_stored (r := .frameBits) hr rfl rfl hopen w, exec_wr_stored (r := .msgLen) hr rfl rfl hopen w,
    exec_wr_stored (r := .msgPtr) hr rfl rfl hopen w, exec_wr_stored (r := .framePtr) hr rfl rfl hopen w⟩

/-! ### The busy lock -/

/-- The offsets of the locked registers and the data ports (spec/10_state.md R54). -/
theorem locked_of_mem {off : BitVec 8} (h : off ∈ [0x18#8, 0x1C#8, 0x20#8, 0x24#8, 0x2C#8, 0x34#8, 0x30#8, 0x38#8]) :
    off.toNat % 4 = 0 ∧ (regAt off).locked = true := by
  revert h
  revert off
  decide

theorem readMsgPort_of_busy {s : State} (hb : s.busy = true) :
    readMsgPort s = { s with busyErr := true, rdata := 0#32, resp := .okay } := by
  rw [readMsgPort, if_pos hb]
  rfl

theorem readFramePort_of_busy {s : State} (hb : s.busy = true) :
    readFramePort s = { s with busyErr := true, rdata := 0#32, resp := .okay } := by
  rw [readFramePort, if_pos hb]
  rfl

/-- Settles O44: the writes name locked registers and are dropped, a port's read is locked out, and the registers answer their values. -/
theorem busyLockDropsAccesses : Obligations.BusyLockDropsAccesses := by
  intro w s hr hb
  refine ⟨fun off hoff => ?writes, ?ports, ?registers⟩
  case writes =>
    obtain ⟨ha, hl⟩ := locked_of_mem hoff
    exact exec_wr_dropped hr ha (writeDropped_of_locked hb hl) w
  case ports =>
    simp only [List.forall_mem_cons]
    exact ⟨(exec_rd_word hr rfl).trans (congrArg _ (readMsgPort_of_busy hb)),
      (exec_rd_word hr rfl).trans (congrArg _ (readFramePort_of_busy hb)), nofun⟩
  case registers =>
    simp only [List.forall_mem_cons]
    exact ⟨exec_rd_value (r := .carrierBase) hr rfl rfl nofun nofun, exec_rd_value (r := .pixelCount) hr rfl rfl nofun nofun,
      exec_rd_value (r := .frameBits) hr rfl rfl nofun nofun, exec_rd_value (r := .msgLen) hr rfl rfl nofun nofun,
      exec_rd_value (r := .msgPtr) hr rfl rfl nofun nofun, exec_rd_value (r := .framePtr) hr rfl rfl nofun nofun, nofun⟩

/-! ### The data ports while BUSY = 0 -/

/-- RDATA of a port's read: the byte, or 0 where the pointer is out of range (spec/45_host_access.md R227). -/
theorem toNat_portRead (inRange : Prop) [Decidable inRange] (b : Byte) :
    (if inRange then b.setWidth 32 else 0#32).toNat = if inRange then b.toNat else 0 := by
  split
  · exact BitVec.toNat_setWidth_of_le (by decide)
  · rfl

section
variable {s : State} (hb : s.busy = false)
include hb

/-- A read of MSG_DATA as one record. -/
theorem readMsgPort_of_idle :
    readMsgPort s = { s with
      msgPtr := s.msgPtr + 1#32
      rdata := if s.msgPtr.toNat < s.params.msgCap then (readMsg s s.msgPtr.toNat).setWidth 32 else 0#32
      resp := .okay
      ramErr := if s.msgPtr.toNat < s.params.msgCap then s.ramErr else true } := by
  obtain ⟨hb', -⟩ | ⟨-, hp, heq⟩ | ⟨-, hp, heq⟩ := readMsgPort_cases s
  · simp [hb] at hb'
  · rw [heq, if_pos hp, if_pos hp]
    rfl
  · rw [heq, if_neg hp.not_gt, if_neg hp.not_gt]
    rfl

/-- A read of FRAME_DATA as one record. -/
theorem readFramePort_of_idle :
    readFramePort s = { s with
      framePtr := s.framePtr + 1#32
      rdata := if s.framePtr.toNat < s.params.frameCap then (readFrame s s.framePtr.toNat).setWidth 32 else 0#32
      resp := .okay
      ramErr := if s.framePtr.toNat < s.params.frameCap then s.ramErr else true } := by
  obtain ⟨hb', -⟩ | ⟨-, hp, heq⟩ | ⟨-, hp, heq⟩ := readFramePort_cases s
  · simp [hb] at hb'
  · rw [heq, if_pos hp, if_pos hp]
    rfl
  · rw [heq, if_neg hp.not_gt, if_neg hp.not_gt]
    rfl

end

/-- A port's pointer is a 32-bit word, so it wraps (spec/45_host_access.md R227). -/
theorem toNat_advancedPtr (p : Word) : (p + 1#32).toNat = (p.toNat + 1) % 2 ^ 32 := BitVec.toNat_add p 1#32

section
variable (w : Word) (s : State)

/-- A write of MSG_DATA: in range, or out of range (spec/45_host_access.md R227). -/
theorem writeMsgPort_cases :
    (s.msgPtr.toNat < s.params.msgCap ∧ writeMsgPort w s = advanceMsgPtr (writeMsg s.msgPtr.toNat (w.setWidth 8) s)) ∨
    (s.params.msgCap ≤ s.msgPtr.toNat ∧ writeMsgPort w s = advanceMsgPtr (setRamErr s)) := by
  by_cases hp : s.msgPtr.toNat < s.params.msgCap
  · exact .inl ⟨hp, by rw [writeMsgPort, if_pos hp]⟩
  · exact .inr ⟨Nat.le_of_not_lt hp, by rw [writeMsgPort, if_neg hp]⟩

/-- A write of FRAME_DATA: in range, or out of range (spec/45_host_access.md R227). -/
theorem writeFramePort_cases :
    (s.framePtr.toNat < s.params.frameCap ∧
      writeFramePort w s = advanceFramePtr (writeFrame s.framePtr.toNat (w.setWidth 8) s)) ∨
    (s.params.frameCap ≤ s.framePtr.toNat ∧ writeFramePort w s = advanceFramePtr (setRamErr s)) := by
  by_cases hp : s.framePtr.toNat < s.params.frameCap
  · exact .inl ⟨hp, by rw [writeFramePort, if_pos hp]⟩
  · exact .inr ⟨Nat.le_of_not_lt hp, by rw [writeFramePort, if_neg hp]⟩

theorem toNat_writeMsgPort_msgPtr : (writeMsgPort w s).msgPtr.toNat = (s.msgPtr.toNat + 1) % 2 ^ 32 := by
  obtain ⟨-, heq⟩ | ⟨-, heq⟩ := writeMsgPort_cases w s <;> rw [heq] <;> exact toNat_advancedPtr s.msgPtr

theorem toNat_writeFramePort_framePtr : (writeFramePort w s).framePtr.toNat = (s.framePtr.toNat + 1) % 2 ^ 32 := by
  obtain ⟨-, heq⟩ | ⟨-, heq⟩ := writeFramePort_cases w s <;> rw [heq] <;> exact toNat_advancedPtr s.framePtr

/-- MSG RAM after a write of MSG_DATA: the word's low byte at the pointer, where that is in range. -/
theorem readMsg_writeMsgPort (i : Nat) :
    readMsg (writeMsgPort w s) i = if i = s.msgPtr.toNat ∧ i < s.params.msgCap then w.setWidth 8 else readMsg s i := by
  obtain ⟨hp, heq⟩ | ⟨hp, heq⟩ := writeMsgPort_cases w s <;> rw [heq]
  · by_cases hi : i = s.msgPtr.toNat
    · rw [hi, if_pos ⟨rfl, hp⟩]
      exact readMsg_writeMsg_self s _ _
    · rw [if_neg (mt And.left hi)]
      exact readMsg_writeMsg_of_ne s _ hi
  · rw [if_neg (by omega)]
    rfl

/-- FRAME RAM after a write of FRAME_DATA: the word's low byte at the pointer, where that is in range. -/
theorem readFrame_writeFramePort (i : Nat) :
    readFrame (writeFramePort w s) i = if i = s.framePtr.toNat ∧ i < s.params.frameCap then w.setWidth 8 else readFrame s i := by
  obtain ⟨hp, heq⟩ | ⟨hp, heq⟩ := writeFramePort_cases w s <;> rw [heq]
  · by_cases hi : i = s.framePtr.toNat
    · rw [hi, if_pos ⟨rfl, hp⟩]
      exact readFrame_writeFrame_self s _ _
    · rw [if_neg (mt And.left hi)]
      exact readFrame_writeFrame_of_ne s _ hi
  · rw [if_neg (by omega)]
    rfl

/-- A write of MSG_DATA changes MSG RAM, MSG_PTR and RAMERR alone. -/
theorem writeMsgPort_eq_record :
    writeMsgPort w s = { s with
      msg := (writeMsgPort w s).msg, msgPtr := (writeMsgPort w s).msgPtr
      ramErr := if s.msgPtr.toNat < s.params.msgCap then s.ramErr else true } := by
  obtain ⟨hp, heq⟩ | ⟨hp, heq⟩ := writeMsgPort_cases w s
  · rw [heq, if_pos hp]
    rfl
  · rw [heq, if_neg hp.not_gt]
    rfl

/-- A write of FRAME_DATA changes FRAME RAM, FRAME_PTR and RAMERR alone. -/
theorem writeFramePort_eq_record :
    writeFramePort w s = { s with
      frame := (writeFramePort w s).frame, framePtr := (writeFramePort w s).framePtr
      ramErr := if s.framePtr.toNat < s.params.frameCap then s.ramErr else true } := by
  obtain ⟨hp, heq⟩ | ⟨hp, heq⟩ := writeFramePort_cases w s
  · rw [heq, if_pos hp]
    rfl
  · rw [heq, if_neg hp.not_gt]
    rfl

end

/-- Settles O45: while BUSY = 0 each access of a port is the one record that the lemmas above give for it. -/
theorem dataPortsMoveOneByte : Obligations.DataPortsMoveOneByte := by
  intro w s hr hb
  have hopen {r : Reg} : writeDropped r s = false := writeDropped_of_idle hb
  refine ⟨?readMsgData, ?readFrameData, ?writeMsgData, ?writeFrameData⟩
  case readMsgData =>
    exact ⟨_, (exec_rd_word hr rfl).trans (congrArg _ (readMsgPort_of_idle hb)), toNat_portRead _ _, toNat_advancedPtr s.msgPtr, rfl⟩
  case readFrameData =>
    exact ⟨_, (exec_rd_word hr rfl).trans (congrArg _ (readFramePort_of_idle hb)), toNat_portRead _ _, toNat_advancedPtr s.framePtr, rfl⟩
  case writeMsgData =>
    exact ⟨_, exec_wr_stored (r := .msgData) hr rfl rfl hopen w, toNat_writeMsgPort_msgPtr w s, readMsg_writeMsgPort w s,
      congrArg answerWrite (writeMsgPort_eq_record w s)⟩
  case writeFrameData =>
    exact ⟨_, exec_wr_stored (r := .frameData) hr rfl rfl hopen w, toNat_writeFramePort_framePtr w s, readFrame_writeFramePort w s,
      congrArg answerWrite (writeFramePort_eq_record w s)⟩

end Sys2Proof.Machine
end

section
/-!
PROOF. The interrupt output IRQ (spec/60_exceptions.md R250, R251). While IRQ is asserted no command runs, since DONE = 1, so the engine's
turn changes nothing; of the register writes only those in `LowersIrq` deassert it.
-/

namespace Sys2Proof.Machine

/-- The register writes that deassert IRQ: STATUS with DONE's bit set, CMD, and CTRL with IE's bit clear (spec/60_exceptions.md R251). -/
def LowersIrq (r : Reg) (w : Word) : Prop :=
  (r = .status ∧ w.getLsbD 1 = true) ∨ r = .cmd ∨ (r = .ctrl ∧ w.getLsbD 0 = false)

theorem irq_readReg (r : Reg) (s : State) : irq (readReg r s) = irq s := by
  rw [readReg_frame]
  rfl

theorem regAt_eq_ctrl {off : BitVec 8} (h : regAt off = .ctrl) : off = 0x04#8 := by
  revert h
  revert off
  decide

section
variable {s t : State}

theorem Unfelt.irq_eq (h : Unfelt s t) : irq t = irq s := by
  rw [h]
  rfl

/-- While BUSY = 0 every write is stored, so IRQ falls where the store clears DONE or IE. -/
theorem irq_writeReg_eq_false_iff (hb : s.busy = false) (hirq : irq s = true) (r : Reg) (w : Word) :
    irq (writeReg r w s) = false ↔ LowersIrq r w := by
  have hstore : writeReg r w s = answerWrite (storeReg r w s) := by simp [writeReg, writeDropped_of_idle hb]
  obtain ⟨hie, hdone⟩ : s.ie = true ∧ s.done = true := by simpa [irq] using hirq
  rw [hstore]
  cases r with
  | status => simp [storeReg, irq, writeStatus, hie, hdone, LowersIrq]
  | cmd => simp [storeReg, irq, LowersIrq]
  | ctrl => simp [storeReg, irq, hdone, LowersIrq]
  | msgData => obtain ⟨-, heq⟩ | ⟨-, heq⟩ := writeMsgPort_cases w s <;> simp [storeReg, heq, irq, hie, hdone, LowersIrq]
  | frameData => obtain ⟨-, heq⟩ | ⟨-, heq⟩ := writeFramePort_cases w s <;> simp [storeReg, heq, irq, hie, hdone, LowersIrq]
  | _ => simp [storeReg, irq, hie, hdone, LowersIrq]

section
variable (hb : s.busy = false) (hirq : irq s = true) (h : step s = .next t)
include hb hirq h

/-- A step that deasserts IRQ is a write in `LowersIrq` or a reset. -/
theorem step_irq_falls (hfall : irq t = false) : ResetEvent s ∨ ∃ off w, HostWrites s off w ∧ LowersIrq (regAt off) w := by
  have hchanged : irq t ≠ irq s := by simp [hfall, hirq]
  obtain hreset | ⟨rest, ⟨off, w, hw, rfl⟩ | ⟨r, rfl⟩ | hun | heng⟩ := step_next h
  · exact .inl hreset
  · exact .inr ⟨off, w, hw, (irq_writeReg_eq_false_iff (s := taken rest s) hb hirq _ w).1 hfall⟩
  · exact absurd (irq_readReg r (taken rest s)) hchanged
  · exact absurd hun.irq_eq hchanged
  · have hidle : ¬ Engaged (taken rest s) := fun ⟨hbusy, _⟩ => by simp [hb] at hbusy
    cases (engineStep_of_not_engaged hidle).symm.trans heng
    exact absurd rfl hchanged

theorem step_irq_of_hostWrites {off : BitVec 8} {w : Word} (ha : off.toNat % 4 = 0) (hw : HostWrites s off w)
    (hlow : LowersIrq (regAt off) w) : irq t = false := by
  obtain ⟨rest, rfl⟩ := step_of_hostWrites ha hw h
  exact (irq_writeReg_eq_false_iff (s := taken rest s) hb hirq _ w).2 hlow

end

/-- A reset clears DONE and IE (spec/10_state.md R62). -/
theorem step_resetEvent_irq (hreset : ResetEvent s) (h : step s = .next t) : irq t = false := by
  obtain ⟨level, u, rfl, -⟩ := step_of_resetEvent hreset h
  rfl

end

/-- Settles O47: IRQ asserted means DONE = 1, hence BUSY = 0, so IRQ falls exactly over a write in `LowersIrq` or a reset. -/
theorem onlyHostAndResetDropIrq : Obligations.OnlyHostAndResetDropIrq := by
  intro s t hinv h hirq
  have hdone : s.done = true := by
    rw [irq, Bool.and_eq_true] at hirq
    exact hirq.2
  have hb : s.busy = false := Bool.eq_false_iff.2 fun hbusy => by simp [hinv hbusy] at hdone
  constructor
  · intro hfall
    obtain hreset | ⟨off, w, hw, ⟨hr, hbit⟩ | hr | ⟨hr, hbit⟩⟩ := step_irq_falls hb hirq h hfall
    · exact .inr (.inr (.inr hreset))
    · exact .inl ⟨w, regAt_eq_status hr ▸ hw, hbit⟩
    · exact .inr (.inl ⟨w, regAt_eq_cmd hr ▸ hw⟩)
    · exact .inr (.inr (.inl ⟨w, regAt_eq_ctrl hr ▸ hw, hbit⟩))
  · rintro (⟨w, hw, hbit⟩ | ⟨w, hw⟩ | ⟨w, hw, hbit⟩ | hreset)
    · exact step_irq_of_hostWrites hb hirq h rfl hw (.inl ⟨rfl, hbit⟩)
    · exact step_irq_of_hostWrites hb hirq h rfl hw (.inr (.inl rfl))
    · exact step_irq_of_hostWrites hb hirq h rfl hw (.inr (.inr ⟨rfl, hbit⟩))
    · exact step_resetEvent_irq hreset h

end Sys2Proof.Machine
end

section
/-!
PROOF. RST while it is asserted: what its assertion does to a running command and to the carrier (spec/70_reset_and_hazards.md R271, R272),
and that a HOST transaction gets no step under it (R276).
-/

namespace Sys2Proof.Machine

section
variable {s : State}

/-- A write is in flight only while an EMBED that RST does not hold is in one of its WRITE phases. -/
theorem embedding_of_writeInFlight (h : writeInFlight s = true) :
    Engaged s ∧ latched s = some .embed ∧ (s.phase = .writeHeader ∨ s.phase = .writePayload) := by
  simp only [writeInFlight, Bool.and_eq_true, Bool.not_eq_true', decide_eq_true_eq] at h
  obtain ⟨⟨⟨hengaged, hembed⟩, hphase⟩, -⟩ := h
  exact ⟨hengaged, hembed, hphase⟩

theorem changeRst_true_of_deasserted (h : s.rst = false) : changeRst true s = assertReset s := by
  simp [changeRst, h]

/-- Asserting RST abandons the command with no finish (spec/70_reset_and_hazards.md R271). -/
theorem assertReset_abandons (s : State) :
    (assertReset s).rst = true ∧ (assertReset s).busy = false ∧ (assertReset s).done = false ∧ (assertReset s).phase = .idle ∧
      irq (assertReset s) = false :=
  ⟨rfl, rfl, rfl, rfl, rfl⟩

section
variable (hr : s.rst = true)
include hr

theorem exec_rd_in_reset (off : BitVec 8) (size : Nat) : exec (.rd off size) s = .fault .stuckInReset := if_pos hr

theorem exec_wr_in_reset (off : BitVec 8) (size : Nat) (w : Word) : exec (.wr off size w) s = .fault .stuckInReset := if_pos hr

end

end

/-- Settles O51: the step is `assertReset`, which touches no carrier byte but that of a write in flight, so of an EMBED in a WRITE phase. -/
theorem resetAbandonsTheCommand : Obligations.ResetAbandonsTheCommand := by
  intro s rest hin hr
  have hstep : step s = .next (assertReset (taken rest s)) :=
    (step_of_reset hin).trans (congrArg _ (changeRst_true_of_deasserted (s := taken rest s) hr))
  obtain ⟨hrst, hbusy, hdone, hphase, hirq⟩ := assertReset_abandons (taken rest s)
  refine ⟨_, hstep, hrst, hbusy, hdone, hphase, hirq, fun a => ?_⟩
  obtain hkept | ⟨hflight, rfl, hnew⟩ := assertReset_carrier (taken rest s) a
  · exact .inl hkept
  · obtain ⟨hengaged, hembed, hwriting⟩ := embedding_of_writeInFlight hflight
    exact .inr ⟨hengaged, hembed, hwriting, rfl, hnew⟩

/-- Settles O52: RD and WR both look at RST before anything else. -/
theorem hostTransactionsInResetAreStuck : Obligations.HostTransactionsInResetAreStuck :=
  fun off size w _ hr => ⟨exec_rd_in_reset hr off size, exec_wr_in_reset hr off size w⟩

end Sys2Proof.Machine
end
